-- ==== Sys2Proof/Word.lean ====
section
/-! DEFINITION. The plain data types every layer shares: register words, bytes, node ids, bit strings and
256-entry tables (spec/00_scope.md R12 to R14, spec/10_state.md R60). -/

namespace Sys2Proof

/-- A register, counter, weight, address or command word: 32 bits, unsigned (R9, R12). -/
abbrev Word := BitVec 32

/-- One byte of system memory; also a symbol, "an integer in [0, 255]" (R17). -/
abbrev Byte := BitVec 8

/-- A node id, 9 bits, 0..510 (R60): below 256 the leaf of that symbol, `256 + j` the internal node `j`. -/
abbrev NodeId := BitVec 9

/-- A bit string (R14): the head of the list is bit index 0, the first bit emitted or consumed; `true` is "1". -/
abbrev Code := List Bool

/-- A table with one entry for each symbol 0..255 (R30: FREQ, CODE). -/
abbrev Table (α : Type) := Vector α 256

end Sys2Proof
end

