-- ==== Sys2Proof/Config.lean ====
section
/-! DEFINITION. What the platform fixes and the spec leaves OPEN, and the free values: the draws of
spec/93_implementation_defined.md. Every constant here is opaque: no proof can see a value of it. -/

namespace Sys2Proof

/-- What is special about a region of system memory. An address in no region is plain memory that answers. -/
inductive RegionKind where
  /-- `MEM_R_OK(a)` is false: a byte read by the block answers a bus error (R82). -/
  | readFails
  /-- `MEM_W_OK(a)` is false: a byte write by the block answers a bus error (R82). -/
  | writeFails
  /-- reads or writes have side effects, or reads do not repeat (R332). -/
  | sideEffects
  deriving DecidableEq, Repr

/-- The system-memory addresses `base`, …, `base + size - 1` and what is special about them. -/
structure Region where
  base : Nat
  size : Nat
  kind : RegionKind
  deriving DecidableEq, Repr

/-- The launch parameters of R9, fixed for a run: HUFF_BASE, MEM_R_OK and MEM_W_OK (as regions, so that
they are plain data) and HOST_COHERENT (DESIGN CHOICE, notes/assumptions/3, 9). -/
structure Platform where
  huffBase     : Word
  regions      : List Region
  hostCoherent : Bool
  deriving DecidableEq, Repr

/-- HUFF_BASE, OPEN (R32, U9); the one base of the window in both address spaces of R80 (DESIGN CHOICE,
notes/assumptions/25). -/
opaque Config.huffBase : Word

/-- The special regions of system memory, OPEN (R82, R92, U10, U18). -/
opaque Config.regions : List Region

/-- HOST_COHERENT, OPEN (R96, U11). No rule of the block reads it: it says what the host must do with its own caches. -/
opaque Config.hostCoherent : Bool

/-- The launch parameters of the run that starts at reset. -/
def Config.platform : Platform := ⟨Config.huffBase, Config.regions, Config.hostCoherent⟩

/-- The value a busy read returns (R57, U3): argument, the number of the draw (DESIGN CHOICE, notes/assumptions/12). -/
opaque Config.freeWord : Nat → Word

/-- A counter of FREQ after reset (R63, U1): the number of the draw and the symbol (DESIGN CHOICE,
notes/assumptions/6). -/
opaque Config.freeFreq : Nat → Byte → Word

/-- A byte of the destination window after a failed or abandoned command (R88, R323, U4, U5): the number
of the draw and the address (DESIGN CHOICE, notes/assumptions/13). -/
opaque Config.freeByte : Nat → Word → Byte

/-- How many host accesses the ENGINE step lets pass after a start: finite and unbounded (R152, R337, U8; DESIGN CHOICE,
notes/assumptions/4). -/
opaque Config.freeDelay : Nat → Nat

end Sys2Proof
end

