-- ==== Sys2Proof/Syntax.lean ====
section
/-! DEFINITION. The block's commands, one constructor for each row of spec/opcode_table.json
(spec/30_encoding.md R111). A command has no operand field (R110): its operands are registers. -/

namespace Sys2Proof

/-- The seven commands of R111. -/
inductive Instr where
  /-- FREQ_CLEAR, OPC 0x01: every counter becomes 0 (R171). -/
  | freqClear
  /-- FREQ_COUNT, OPC 0x02: FREQ becomes the count of the source range (R172). -/
  | freqCount
  /-- FREQ_ACCUM, OPC 0x03: the count of the source range is added to FREQ (R173). -/
  | freqAccum
  /-- BUILD, OPC 0x04: the tree and the code table are built from FREQ (R190). -/
  | build
  /-- ENCODE, OPC 0x05: the container of the source range under the current code table (R221). -/
  | encode
  /-- COMPRESS, OPC 0x06: count, build, encode (R228). -/
  | compress
  /-- DECODE, OPC 0x07: the bytes of a container (R250). -/
  | decode
  deriving DecidableEq, Repr

end Sys2Proof
end

