-- ==== Sys2Proof/Decode.lean ====
section
/-! DEFINITION. The command word (spec/30_encoding.md R110 to R114, spec/40_command_interface.md R154, R155):
the decoder, total on every 32-bit word and rejecting by name, and the encoder written from the same table. -/

namespace Sys2Proof

/-- Why a word is no command (R112, R154). -/
inductive IllegalWord where
  /-- `w[7:0]` is none of 0x01..0x07 (tested first). -/
  | unknownOpcode
  /-- a listed OPC with `w[31:8] ≠ 0`. -/
  | reservedBits
  deriving DecidableEq, Repr

/-- The OPC field, `w[7:0]` (R110). -/
def opcField (w : Word) : Byte := w.extractLsb' 0 8

/-- The RSV field, `w[31:8]` (R110). -/
def rsvField (w : Word) : BitVec 24 := w.extractLsb' 8 24

/-- The opcode map of R111. -/
def commandOfOpc (opc : Byte) : Option Instr :=
  match opc.toNat with
  | 1 => some .freqClear
  | 2 => some .freqCount
  | 3 => some .freqAccum
  | 4 => some .build
  | 5 => some .encode
  | 6 => some .compress
  | 7 => some .decode
  | _ => none

/-- The decoder. The two checks stand in the order of R154: the opcode first, then the reserved bits. -/
def decode (w : Word) : Except IllegalWord Instr :=
  match commandOfOpc (opcField w) with
  | none => .error .unknownOpcode
  | some i => if rsvField w = 0#24 then .ok i else .error .reservedBits

/-- The OPC value of each command, the other direction of R111's map. -/
def opcOf : Instr → Byte
  | .freqClear => 0x01#8
  | .freqCount => 0x02#8
  | .freqAccum => 0x03#8
  | .build => 0x04#8
  | .encode => 0x05#8
  | .compress => 0x06#8
  | .decode => 0x07#8

/-- The command word of a command: format CMD with RSV = 0 (R110). -/
def encode (i : Instr) : Word := 0#24 ++ opcOf i

/-- The host's question: the command this decoder reads from a table word of `nbits` bits. The one word of
a command is a register value, so there is no byte order to lay it out in (R89, R110). -/
def decodeTableWord (nbits w : Nat) : Option Instr :=
  match decode (BitVec.ofNat 32 (w % 2 ^ nbits)) with
  | .ok i => some i
  | .error _ => none

end Sys2Proof
end

