-- ==== Sys2Proof/Machine/Bits.lean ====
section
/-! DEFINITION. Bit fields, bit strings, big-endian words and table access: the primitives of
spec/00_scope.md R13 to R15 and the bit order of spec/30_encoding.md R118, R126, R131. -/

namespace Sys2Proof.Machine

/-- `ceil8(n)` of R15. -/
def ceil8 (n : Nat) : Nat := (n + 7) / 8

/-- `BE32(b0, b1, b2, b3)` of R15, R126. -/
def be32 (b0 b1 b2 b3 : Byte) : Word := b0 ++ b1 ++ b2 ++ b3

/-- `bytesBE32(v)` of R15, R126. -/
def bytesBE32 (v : Word) : List Byte :=
  [v.extractLsb' 24 8, v.extractLsb' 16 8, v.extractLsb' 8 8, v.extractLsb' 0 8]

/-- The value of a bit string read most significant bit first (R14, R220). -/
def bitsValue (bits : Code) : Nat := bits.foldl (fun n b => 2 * n + b.toNat) 0

/-- The byte whose bit 7 is bit index 0 of an eight-bit string (R131). -/
def byteOfBits (bits : Code) : Byte := BitVec.ofNat 8 (bitsValue bits)

/-- The whole bytes at the front of an accumulator, in order (R224). -/
def fullBytes : Code → List Byte
  | b0 :: b1 :: b2 :: b3 :: b4 :: b5 :: b6 :: b7 :: rest =>
    byteOfBits [b0, b1, b2, b3, b4, b5, b6, b7] :: fullBytes rest
  | _ => []

/-- The 0 to 7 bits an accumulator keeps after its whole bytes left (R224). -/
def leftover : Code → Code
  | _ :: _ :: _ :: _ :: _ :: _ :: _ :: _ :: rest => leftover rest
  | bits => bits

/-- The final byte: 1 to 7 bits left-justified, zeros below (R225). -/
def finalByte (bits : Code) : Byte := byteOfBits (bits ++ List.replicate (8 - bits.length) false)

/-- Bit index `8 * _ + t` of a byte stream inside its byte: bit `7 - t` (R14, R131). -/
def streamBit (b : Byte) (t : Nat) : Bool := b.getLsbD (7 - t)

/-- Word `w` of a left-justified code: bit `31 - t` is bit index `32 * w + t`, and 0 past the code's end (R52, R118). -/
def codeWord (c : Code) (w : Nat) : Word :=
  BitVec.ofNat 32 (bitsValue ((List.range 32).map fun t => c.getD (32 * w + t) false))

/-- The table with entry `f s` at every symbol `s`. Unfolded by `entry_tabulate` only. -/
@[irreducible]
def tabulate {α : Type} (f : Byte → α) : Table α := Vector.ofFn fun i => f (BitVec.ofNat 8 i.val)

/-- The entry of symbol `s`. -/
def entry {α : Type} (t : Table α) (s : Byte) : α := t[s.toNat]'s.isLt

/-- The table with the entry of symbol `s` replaced. -/
def setEntry {α : Type} (t : Table α) (s : Byte) (v : α) : Table α := t.set s.toNat v s.isLt

/-- The symbols 0..255 in increasing order. -/
def symbols : List Byte := (List.range 256).map (BitVec.ofNat 8)

/-- The integer ranges `[a, a + n)` and `[b, b + m)` share a number; an empty range shares none (R330). -/
def rangesMeet (a n b m : Nat) : Bool :=
  decide (n ≠ 0) && (decide (m ≠ 0) && (decide (a < b + m) && decide (b < a + n)))

end Sys2Proof.Machine
end

