-- ==== Sys2Proof/Machine/HostAccess.lean ====
section
/-! DEFINITION. What the HOST can do: the register window's map (spec/10_state.md R32), host accesses
(R307), and the host program notation of spec/30_encoding.md R121, R122. -/

namespace Sys2Proof.Machine

/-- The registers and table words of the 16 KiB window, by name (R32). `reserved` is every offset no row names (R49). -/
inductive Reg where
  | id | version | ctrl | status | cmd | srcAddr | srcLen | dstAddr | dstCap
  | outLen | errAddr | errData | treeRoot | nsym | bitsLo | bitsHi
  | freq (s : Byte)
  | codeLen (s : Byte)
  | codeBits (s : Byte) (w : BitVec 3)
  | nodeChild (j : Fin 255)
  | nodeWeight (j : Fin 255)
  | reserved
  deriving DecidableEq, Repr

/-- The registers at offsets 0x000 to 0x03C (R32). -/
def lowReg : Nat → Reg
  | 0 => .id
  | 1 => .version
  | 2 => .ctrl
  | 3 => .status
  | 4 => .cmd
  | 5 => .srcAddr
  | 6 => .srcLen
  | 7 => .dstAddr
  | 8 => .dstCap
  | 9 => .outLen
  | 10 => .errAddr
  | 11 => .errData
  | 12 => .treeRoot
  | 13 => .nsym
  | 14 => .bitsLo
  | 15 => .bitsHi
  | _ => .reserved

/-- What stands at an aligned offset of the window, the map of R32 row by row. -/
def regAt (n : Nat) : Reg :=
  if n < 0x040 then lowReg (n / 4)
  else if n < 0x400 then .reserved
  else if n < 0x800 then .freq (BitVec.ofNat 8 ((n - 0x400) / 4))
  else if n < 0xC00 then .codeLen (BitVec.ofNat 8 ((n - 0x800) / 4))
  else if n < 0x1000 then .reserved
  else if n < 0x3000 then
    .codeBits (BitVec.ofNat 8 ((n - 0x1000) / 0x20)) (BitVec.ofNat 3 ((n - 0x1000) % 0x20 / 4))
  else if n < 0x33FC then .nodeChild (Fin.ofNat 255 ((n - 0x3000) / 4))
  else if n < 0x3400 then .reserved
  else if n < 0x37FC then .nodeWeight (Fin.ofNat 255 ((n - 0x3400) / 4))
  else .reserved

/-- The register an access of `bytes` bytes at an offset reaches: only aligned 32-bit accesses reach one (R307).
Aligned is said of the offset, and HUFF_BASE may have any value (DESIGN CHOICE, notes/assumptions/24). -/
def regOfAccess (off : BitVec 14) (bytes : Nat) : Option Reg :=
  if bytes = 4 ∧ off.toNat % 4 = 0 then some (regAt off.toNat) else none

/-- The offset of a register of R32; the reserved offsets have no one offset, 0x040 stands for them. -/
def offsetOf : Reg → BitVec 14
  | .id => 0x000#14
  | .version => 0x004#14
  | .ctrl => 0x008#14
  | .status => 0x00C#14
  | .cmd => 0x010#14
  | .srcAddr => 0x014#14
  | .srcLen => 0x018#14
  | .dstAddr => 0x01C#14
  | .dstCap => 0x020#14
  | .outLen => 0x024#14
  | .errAddr => 0x028#14
  | .errData => 0x02C#14
  | .treeRoot => 0x030#14
  | .nsym => 0x034#14
  | .bitsLo => 0x038#14
  | .bitsHi => 0x03C#14
  | .freq s => BitVec.ofNat 14 (0x400 + 4 * s.toNat)
  | .codeLen s => BitVec.ofNat 14 (0x800 + 4 * s.toNat)
  | .codeBits s w => BitVec.ofNat 14 (0x1000 + 0x20 * s.toNat + 4 * w.toNat)
  | .nodeChild j => BitVec.ofNat 14 (0x3000 + 4 * j.val)
  | .nodeWeight j => BitVec.ofNat 14 (0x3400 + 4 * j.val)
  | .reserved => 0x040#14

/-- One access from outside the block, in the order the buses deliver them (R101). -/
inductive HostOp where
  /-- a read of `bytes` bytes at HUFF_BASE + `off`. -/
  | regRead (off : BitVec 14) (bytes : Nat)
  /-- a write of `bytes` bytes at HUFF_BASE + `off`. -/
  | regWrite (off : BitVec 14) (bytes : Nat) (v : Word)
  /-- another agent (a host or another bus master) reads a byte of system memory. -/
  | memRead (a : Word)
  /-- another agent writes a byte of system memory. -/
  | memWrite (a : Word) (v : Byte)
  /-- the platform asserts the hardware reset, or removes power (R320, R306). -/
  | hardReset
  deriving DecidableEq, Repr

/-- `rd NAME` (R121). -/
def rd (r : Reg) : HostOp := .regRead (offsetOf r) 4

/-- `wr NAME, v` (R121). -/
def wr (r : Reg) (v : Word) : HostOp := .regWrite (offsetOf r) 4 v

/-- `cmdw v` (R121). -/
def cmdw (v : Word) : HostOp := wr .cmd v

/-- `cmd MNEMONIC` (R121). -/
def cmd (i : Instr) : HostOp := cmdw (encode i)

/-- `n` rounds of the loop of `wait` (R122). -/
def waitReads (n : Nat) : List HostOp := List.replicate n (rd .status)

/-- `ack` (R122). -/
def ackDone : HostOp := wr .status 0x00000002#32

/-- `clrflags` (R122). -/
def clrflags : HostOp := wr .status 0x00000006#32

/-- `srst` (R122). -/
def srst : HostOp := wr .ctrl 0x00000002#32

/-- `setup a, n, d, c` (R122). -/
def setup (a n d c : Word) : List HostOp := [wr .srcAddr a, wr .srcLen n, wr .dstAddr d, wr .dstCap c]

end Sys2Proof.Machine
end

