-- ==== Sys2Proof/Machine/State.lean ====
section
/-! DEFINITION. The state of the block, of system memory and of what the outside has queued
(spec/10_state.md R30 to R63, spec/20_memory.md R81), the reasons a step can stop, and the state after reset. -/

namespace Sys2Proof.Machine

/-- System memory (R81): the bytes that are not 0, at strictly rising addresses; an unlisted address reads 0
(DESIGN CHOICE, notes/assumptions/5). -/
abbrev Memory := List Host.Cell

/-- Entry `j` of the node arena, internal node `256 + j` (R54). -/
structure ArenaNode where
  left   : NodeId
  right  : NodeId
  weight : Word
  deriving DecidableEq, Repr

/-- A built tree (R204): NSYM, TREE_ROOT, the node arena and the code table. -/
structure Tree where
  nsym  : BitVec 9
  root  : NodeId
  arena : Vector ArenaNode 255
  code  : Table Code
  deriving DecidableEq, Repr

/-- The hazard rule that was broken (R339). -/
inductive Hazard where
  /-- R328: an agent wrote a byte of the source range while the command ran. -/
  | sourceWritten
  /-- R329: an agent read or wrote a byte of the destination window while the command ran. -/
  | destinationTouched
  /-- R330: source range and destination window share a byte. -/
  | rangesOverlap
  /-- R331: a range covers an address of the block's own register window. -/
  | coversWindow
  /-- R332: a range lies in memory with side effects or non-repeatable reads. -/
  | notPlainMemory
  /-- R307: a window access that is not an aligned 32-bit access. -/
  | badHostAccess
  deriving DecidableEq, Repr

/-- Why the machine stops with a fault. -/
inductive Fault where
  /-- HazardViolation (R339): "A model records a fault (HazardViolation) and gives the run no further meaning".
  Raised where a command that uses a range starts, runs or is abandoned by a reset, and by host accesses. Safe:
  the hardware goes on with results the spec does not define. -/
  | hazardViolation (h : Hazard)
  deriving DecidableEq, Repr

/-- Why the machine refuses. -/
inductive Refusal where
  /-- An instruction with no meaning yet. Raised by no arm of this model. Safe. -/
  | notModelled (mnemonic : String)
  deriving DecidableEq, Repr

/-- Everything the spec gives the machine. ID and VERSION are constants (R33, R34); BUSY is "`pend` holds a
word" (R31, R62); TREE_VALID is "`tree` holds a tree" (R53; DEDUCED, notes/assumptions/8); IRQ has no storage (R59);
CMD and CTRL.SRST read 0. The last five fields are the model's own (DESIGN CHOICE, notes/assumptions/1, 3, 7). -/
structure State where
  /-- CTRL.IE (R35). -/
  ie          : Bool
  /-- STATUS.DONE (R36). -/
  done        : Bool
  /-- STATUS.BUSY_WR (R36). -/
  busyWr      : Bool
  /-- STATUS.ERR (R36, R119). -/
  err         : BitVec 4
  /-- STATUS.ERR_SUB (R36, R120). -/
  errSub      : BitVec 4
  /-- STATUS.LAST_CMD (R36). -/
  lastCmd     : Byte
  /-- SRC_ADDR (R39). -/
  srcAddr     : Word
  /-- SRC_LEN (R40). -/
  srcLen      : Word
  /-- DST_ADDR (R41). -/
  dstAddr     : Word
  /-- DST_CAP (R42). -/
  dstCap      : Word
  /-- OUT_LEN (R43). -/
  outLen      : Word
  /-- ERR_ADDR (R44). -/
  errAddr     : Word
  /-- ERR_DATA (R45). -/
  errData     : Word
  /-- {BITS_HI, BITS_LO} (R48). -/
  bits        : BitVec 64
  /-- FREQ[0..255] (R50). -/
  freq        : Table Word
  /-- TREE_VALID with CODE, the arena, TREE_ROOT and NSYM (R46, R47, R51 to R56): without a tree all of them read 0. -/
  tree        : Option Tree
  /-- STATUS.BUSY with PEND, the latched command word (R31, R62). -/
  pend        : Option Word
  /-- System memory (R81), outside the block. -/
  mem         : Memory
  /-- The launch parameters (R9), which no step changes. -/
  platform    : Platform
  /-- The accesses the outside will make, oldest first (R101). -/
  inputs      : List HostOp
  /-- The model's own: how many host accesses may still pass before the ENGINE step (R152, R337). -/
  engineDelay : Nat
  /-- The model's own: what the bus answered to the latest host read. -/
  hostData    : Word
  /-- The model's own: how many draws were made. -/
  draws       : Nat
  deriving DecidableEq, Repr

/-- The machine right after a hardware reset (R63, R320): every register 0, no tree, no command, FREQ a draw.
Memory lists nothing, the launch parameters are the platform's, and nothing is queued. -/
def State.reset : State where
  ie := false
  done := false
  busyWr := false
  err := 0#4
  errSub := 0#4
  lastCmd := 0#8
  srcAddr := 0#32
  srcLen := 0#32
  dstAddr := 0#32
  dstCap := 0#32
  outLen := 0#32
  errAddr := 0#32
  errData := 0#32
  bits := 0#64
  freq := tabulate (Config.freeFreq 0)
  tree := none
  pend := none
  mem := []
  platform := Config.platform
  inputs := []
  engineDelay := 0
  hostData := 0#32
  draws := 1

end Sys2Proof.Machine
end

