-- ==== Sys2Proof/Machine/Flags.lean ====
section
/-! DEFINITION. STATUS, CTRL and IRQ (spec/30_encoding.md R115, spec/60_exceptions.md R297) and the numbers of the
errors (R119, R120). -/

namespace Sys2Proof.Machine

/-- The error kinds with their sub-causes, one constructor for each row of R120 that is an error. -/
inductive ErrCause where
  | ioRead | ioWrite | ioSinkFull
  | emptyInput
  | unknownSymbol
  | headerTruncated | corruptWeightOverflow | emptyTable | payloadExhausted | invalidDescent | trailingBytes
  | unknownOpcode | reservedBits
  | srcWrap | dstWrap | countOverflow | weightOverflow
  deriving DecidableEq, Repr

/-- `raise Kind(SUB, addr, data)` of R15: the cause with ERR_ADDR and ERR_DATA (R285). -/
structure CmdError where
  cause : ErrCause
  addr  : Word
  data  : Word
  deriving DecidableEq, Repr

/-- STATUS.ERR of a cause, `code(Kind)` of R119. -/
def errNumber : ErrCause → BitVec 4
  | .ioRead | .ioWrite | .ioSinkFull => 1#4
  | .emptyInput => 2#4
  | .unknownSymbol => 3#4
  | .headerTruncated | .corruptWeightOverflow | .emptyTable
  | .payloadExhausted | .invalidDescent | .trailingBytes => 4#4
  | .unknownOpcode | .reservedBits => 5#4
  | .srcWrap | .dstWrap | .countOverflow | .weightOverflow => 6#4

/-- STATUS.ERR_SUB of a cause (R120). -/
def errSubNumber : ErrCause → BitVec 4
  | .ioRead => 1#4
  | .ioWrite => 2#4
  | .ioSinkFull => 3#4
  | .emptyInput => 0#4
  | .unknownSymbol => 0#4
  | .headerTruncated => 1#4
  | .corruptWeightOverflow => 2#4
  | .emptyTable => 3#4
  | .payloadExhausted => 4#4
  | .invalidDescent => 5#4
  | .trailingBytes => 6#4
  | .unknownOpcode => 1#4
  | .reservedBits => 2#4
  | .srcWrap => 1#4
  | .dstWrap => 2#4
  | .countOverflow => 3#4
  | .weightOverflow => 4#4

/-- The (ERR, ERR_SUB) pairs R120 lists; every other pair is "never produced". -/
def listedErrors : List (BitVec 4 × BitVec 4) :=
  [(0#4, 0#4), (1#4, 1#4), (1#4, 2#4), (1#4, 3#4), (2#4, 0#4), (3#4, 0#4), (4#4, 1#4), (4#4, 2#4), (4#4, 3#4),
    (4#4, 4#4), (4#4, 5#4), (4#4, 6#4), (5#4, 1#4), (5#4, 2#4), (6#4, 1#4), (6#4, 2#4), (6#4, 3#4), (6#4, 4#4)]

/-- STATUS.BUSY: a command word is latched (R31, R62). -/
def State.busy (s : State) : Bool := s.pend.isSome

/-- STATUS.TREE_VALID (R53). -/
def State.treeValid (s : State) : Bool := s.tree.isSome

/-- IRQ = CTRL.IE AND STATUS.DONE (R59, R297). -/
def State.irq (s : State) : Bool := s.ie && s.done

/-- STATUS with its TREE_VALID bit given: `{8'b0, LAST_CMD, ERR_SUB, ERR, 4'b0, TREE_VALID, BUSY_WR, DONE, BUSY}` (R115). -/
def statusWith (s : State) (treeValid : Bool) : Word :=
  0#8 ++ s.lastCmd ++ s.errSub ++ s.err ++ 0#4 ++ BitVec.ofBool treeValid ++ BitVec.ofBool s.busyWr
    ++ BitVec.ofBool s.done ++ BitVec.ofBool s.busy

/-- STATUS as it stands (R36, R115). -/
def State.status (s : State) : Word := statusWith s s.treeValid

/-- CTRL as it reads: `{30'b0, SRST, IE}` with SRST reading 0 (R35, R115). -/
def State.ctrl (s : State) : Word := 0#30 ++ 0#1 ++ BitVec.ofBool s.ie

end Sys2Proof.Machine
end

