-- ==== Sys2Proof/Machine/Operands.lean ====
section
/-! DEFINITION. A command's operands: the source range, the destination window, the code table, the checks on the
two ranges (spec/20_memory.md R82, R91) and the hazard rules on them (spec/70_reset_and_hazards.md R330 to R332). -/

namespace Sys2Proof.Machine

/-- The region holds address `a`. -/
def regionHolds (r : Region) (a : Word) : Bool := decide (r.base ≤ a.toNat) && decide (a.toNat < r.base + r.size)

/-- MEM_R_OK(a) (R82). -/
def memROk (p : Platform) (a : Word) : Bool := !p.regions.any fun r => decide (r.kind = .readFails) && regionHolds r a

/-- MEM_W_OK(a) (R82). -/
def memWOk (p : Platform) (a : Word) : Bool := !p.regions.any fun r => decide (r.kind = .writeFails) && regionHolds r a

/-- The bytes of the source range: address `a` lies in `[SRC_ADDR, SRC_ADDR + SRC_LEN)` (R17). -/
def inSource (s : State) (a : Word) : Bool :=
  decide (s.srcAddr.toNat ≤ a.toNat) && decide (a.toNat < s.srcAddr.toNat + s.srcLen.toNat)

/-- The bytes of the destination window: address `a` lies in `[DST_ADDR, DST_ADDR + DST_CAP)` (R17). -/
def inWindow (s : State) (a : Word) : Bool :=
  decide (s.dstAddr.toNat ≤ a.toNat) && decide (a.toNat < s.dstAddr.toNat + s.dstCap.toNat)

/-- Address `a` is one at which the platform maps the block's 16 KiB register window (R32, R331). That an agent sees the
window at HUFF_BASE among the addresses of its memory accesses is DESIGN CHOICE, notes/assumptions/25. -/
def inRegisterWindow (p : Platform) (a : Word) : Bool :=
  decide (p.huffBase.toNat ≤ a.toNat) && decide (a.toNat < p.huffBase.toNat + 0x4000)

/-- CheckSrc() of R91. -/
def checkSrc (s : State) : Option CmdError :=
  if s.srcAddr.toNat + s.srcLen.toNat > 2 ^ 32 then some ⟨.srcWrap, s.srcAddr, s.srcLen⟩ else none

/-- CheckDst() of R91. -/
def checkDst (s : State) : Option CmdError :=
  if s.dstAddr.toNat + s.dstCap.toNat > 2 ^ 32 then some ⟨.dstWrap, s.dstAddr, s.dstCap⟩ else none

/-- CheckSrc() then CheckDst(), the order of R158. -/
def checkRanges (s : State) : Option CmdError :=
  match checkSrc s with
  | some e => some e
  | none => checkDst s

/-- CODE[x]: the empty string where there is no tree (R51, R53). -/
def State.code (s : State) (x : Byte) : Code :=
  match s.tree with
  | none => []
  | some t => entry t.code x

/-- The commands that read the source range (R80). -/
def usesSource : Instr → Bool
  | .freqClear | .build => false
  | .freqCount | .freqAccum | .encode | .compress | .decode => true

/-- The commands that write the destination window (R86). -/
def usesWindow : Instr → Bool
  | .freqClear | .freqCount | .freqAccum | .build => false
  | .encode | .compress | .decode => true

/-- R331 and R332 for one range; a range of no bytes breaks neither. That the bus master meets the register window at
the system-memory addresses from HUFF_BASE on is DESIGN CHOICE, notes/assumptions/25. -/
def rangeHazard (p : Platform) (a n : Nat) : Option Hazard :=
  if n = 0 then none
  else if rangesMeet a n p.huffBase.toNat 0x4000 then some .coversWindow
  else if p.regions.any fun r => decide (r.kind = .sideEffects) && rangesMeet a n r.base r.size then some .notPlainMemory
  else none

/-- R331, R332 for the source range. -/
def sourceHazard (s : State) : Option Hazard := rangeHazard s.platform s.srcAddr.toNat s.srcLen.toNat

/-- R331, R332 for the destination window. -/
def windowHazard (s : State) : Option Hazard := rangeHazard s.platform s.dstAddr.toNat s.dstCap.toNat

/-- R330 to R332 for the two ranges of ENCODE, COMPRESS and DECODE. -/
def bothHazard (s : State) : Option Hazard :=
  if rangesMeet s.srcAddr.toNat s.srcLen.toNat s.dstAddr.toNat s.dstCap.toNat then some .rangesOverlap
  else
    match sourceHazard s with
    | some h => some h
    | none => windowHazard s

/-- The hazard rule a command breaks by its operands, if any (R339; DESIGN CHOICE, notes/assumptions/14). R331 and R332
name no commands: that they bind only a range the command uses is the model's reading (DEDUCED, notes/assumptions/26). -/
def commandHazard (i : Instr) (s : State) : Option Hazard :=
  match usesSource i, usesWindow i with
  | false, _ => none
  | true, false => sourceHazard s
  | true, true => bothHazard s

end Sys2Proof.Machine
end

