-- ==== Sys2Proof/Machine/Ops.lean ====
section
/-! DEFINITION. The named operations over memory and registers: the byte accesses of spec/20_memory.md R84, R85, the
life cycle of a command (spec/40_command_interface.md R150, R152), the error record (spec/60_exceptions.md R285) and
its acknowledgement (R293), what a failure does to the window (R88, R159) and reset (spec/70_reset_and_hazards.md R320). -/

namespace Sys2Proof.Machine

/-! ### System memory -/

/-- `Mem[a]` (R81); an unlisted address reads 0. -/
def readMem (m : Memory) (a : Word) : Byte :=
  match m with
  | [] => 0#8
  | c :: rest => if c.1 = a.toNat then c.2 else readMem rest a

/-- A cell put before the first cell of a higher address. -/
def insertCell (c : Host.Cell) : Memory → Memory
  | [] => [c]
  | d :: rest => if c.1 < d.1 then c :: d :: rest else d :: insertCell c rest

/-- `Mem[a] <- v` (R85), in the canonical form: a zero byte is not listed. -/
def writeMem (m : Memory) (a : Word) (v : Byte) : Memory :=
  if v = 0#8 then m.filter fun c => c.1 ≠ a.toNat else insertCell (a.toNat, v) (m.filter fun c => c.1 ≠ a.toNat)

/-- The canonical form: addresses strictly rising and below 2^32, no byte 0. -/
abbrev Memory.wf (m : Memory) : Prop :=
  m.Pairwise (fun c d => c.1 < d.1) ∧ ∀ c ∈ m, c.1 < 2 ^ 32 ∧ c.2 ≠ 0#8

/-- The `n` bytes of memory from address `a` up. -/
def bytesAt (m : Memory) (a : Word) : Nat → List Byte
  | 0 => []
  | n + 1 => readMem m a :: bytesAt m (a + 1#32) n

/-- `MemRead(a, 1)` (R84). -/
def memRead (s : State) (a : Word) : Except CmdError Byte :=
  if memROk s.platform a then .ok (readMem s.mem a) else .error ⟨.ioRead, a, 0#32⟩

/-- `MemWrite(a, 1, v)` (R85) on the memory `m` a command has written so far. -/
def memWrite (s : State) (m : Memory) (a : Word) (v : Byte) : Except CmdError Memory :=
  if memWOk s.platform a then .ok (writeMem m a v) else .error ⟨.ioWrite, a, 0#32⟩

/-- The `n` bytes from `a` up, read in increasing address order; the lowest address whose read fails is reported (R170). -/
def readBytes (s : State) (a : Word) : Nat → Except CmdError (List Byte)
  | 0 => .ok []
  | n + 1 =>
    match memRead s a with
    | .error e => .error e
    | .ok b =>
      match readBytes s (a + 1#32) n with
      | .error e => .error e
      | .ok bs => .ok (b :: bs)

/-! ### Tables -/

/-- FREQ is replaced, and any change to FREQ withdraws the tree (R53). -/
def State.withFreq (s : State) (f : Table Word) : State := { s with freq := f, tree := none }

/-- A built tree is committed and TREE_VALID becomes 1 (R204). -/
def State.withTree (s : State) (t : Tree) : State := { s with tree := some t }

/-- TREE_VALID becomes 0, and with it the code table and the arena (R53, R190). -/
def State.withoutTree (s : State) : State := { s with tree := none }

/-- System memory is replaced. -/
def State.withMem (s : State) (m : Memory) : State := { s with mem := m }

/-! ### The life of a command -/

/-- The start of a command (R150) with the ENGINE step `delay` host accesses away. -/
def State.startWith (s : State) (w : Word) (delay : Nat) : State :=
  { s with
    done := false, err := 0#4, errSub := 0#4, lastCmd := opcField w, outLen := 0#32, bits := 0#64,
    errAddr := 0#32, errData := 0#32, pend := some w, engineDelay := delay }

/-- The start of a command by a host write of `w` to CMD (R150): the time to the ENGINE step is a draw (R152). -/
def State.start (s : State) (w : Word) : State :=
  { s.startWith w (Config.freeDelay s.draws) with draws := s.draws + 1 }

/-- Completion without an error (R152): the results, the empty error record (R120), BUSY 0, DONE 1 (DEDUCED,
notes/assumptions/17). -/
def State.succeed (s : State) (outLen : Word) (bits : BitVec 64) : State :=
  { s with
    done := true, err := 0#4, errSub := 0#4, outLen := outLen, bits := bits, errAddr := 0#32, errData := 0#32,
    pend := none, engineDelay := 0 }

/-- Taking an exception: completion with an error (R285, R291). The record is committed, OUT_LEN and BITS are 0,
BUSY becomes 0 and DONE 1; nothing else changes. -/
def State.fail (s : State) (e : CmdError) : State :=
  { s with
    done := true, err := errNumber e.cause, errSub := errSubNumber e.cause, outLen := 0#32, bits := 0#64,
    errAddr := e.addr, errData := e.data, pend := none, engineDelay := 0 }

/-- The return from an exception: the host's acknowledgement, a write of `v` to STATUS (R36, R293). -/
def State.acknowledge (s : State) (v : Word) : State :=
  { s with done := s.done && !v.getLsbD 1, busyWr := s.busyWr && !v.getLsbD 2 }

/-- The command word is illegal: IllegalCommand with the word in ERR_DATA, and nothing else (R154). -/
def illegalCommand (r : IllegalWord) (w : Word) (s : State) : State :=
  match r with
  | .unknownOpcode => s.fail ⟨.unknownOpcode, 0#32, w⟩
  | .reservedBits => s.fail ⟨.reservedBits, 0#32, w⟩

/-! ### What a failure leaves in the window -/

/-- A draw for each writable byte among the `n` addresses from `a` up that exist (R88). -/
def drawBytes (p : Platform) (draw : Nat) (m : Memory) (a : Nat) : Nat → Memory
  | 0 => m
  | n + 1 =>
    let m' :=
      if a < 2 ^ 32 ∧ memWOk p (BitVec.ofNat 32 a) then
        writeMem m (BitVec.ofNat 32 a) (Config.freeByte draw (BitVec.ofNat 32 a))
      else m
    drawBytes p draw m' (a + 1) n

/-- The destination window holds unspecified bytes: one draw for each byte with MEM_W_OK (R88, R159, R323). -/
def State.spoilWindow (s : State) : State :=
  { s with
    mem := drawBytes s.platform s.draws s.mem s.dstAddr.toNat s.dstCap.toNat, draws := s.draws + 1 }

/-- A failed ENCODE, COMPRESS or DECODE: the error record and the unspecified window (R159). -/
def State.failWindow (s : State) (e : CmdError) : State := s.spoilWindow.fail e

/-! ### Hazards and reset -/

/-- A command whose operands break a hazard rule faults (R339); otherwise it completes in state `t`. -/
def runUnlessHazard (i : Instr) (s t : State) : Host.Outcome State Fault Refusal :=
  match commandHazard i s with
  | some h => .fault (.hazardViolation h)
  | none => .next t

/-- A host write of `w` to CMD while idle (R150). A legal command whose operands break a hazard rule faults where it
starts (R339; DESIGN CHOICE, notes/assumptions/14), so that no value is picked for a state that has no meaning. -/
def startCommand (w : Word) (s : State) : Host.Outcome State Fault Refusal :=
  match decode w with
  | .ok i => runUnlessHazard i s (s.start w)
  | .error _ => .next (s.start w)

/-- Every piece of the block's state at its reset value (R63), FREQ a fresh draw. Memory, the launch parameters and
the queue of host accesses are outside the block (R321; DEDUCED, notes/assumptions/22). -/
def State.resetBlock (s : State) : State :=
  { s with
    ie := false, done := false, busyWr := false, err := 0#4, errSub := 0#4, lastCmd := 0#8,
    srcAddr := 0#32, srcLen := 0#32, dstAddr := 0#32, dstCap := 0#32,
    outLen := 0#32, errAddr := 0#32, errData := 0#32, bits := 0#64,
    freq := tabulate (Config.freeFreq s.draws), tree := none, pend := none, engineDelay := 0, draws := s.draws + 1 }

/-- The command in progress, where a legal one is. -/
def runningCommand (s : State) : Option Instr :=
  match s.pend with
  | none => none
  | some w =>
    match decode w with
    | .ok i => some i
    | .error _ => none

/-- Hardware or soft reset (R320, R322): a command in progress is abandoned, and an abandoned ENCODE, COMPRESS or
DECODE leaves draws in its window (R323); an abandoned command whose operands break a hazard rule faults (R339). -/
def resetStep (s : State) : Host.Outcome State Fault Refusal :=
  match runningCommand s with
  | none => .next s.resetBlock
  | some i => runUnlessHazard i s (if usesWindow i then s.spoilWindow.resetBlock else s.resetBlock)

/-! ### The ENGINE's turn -/

/-- The command word the ENGINE carries out now: the latched one, once its delay is over or no host access is left (R152). -/
def engineWord (s : State) : Option Word :=
  match s.pend with
  | none => none
  | some w => if s.engineDelay = 0 ∨ s.inputs = [] then some w else none

/-- The next host access leaves the queue, and the ENGINE step comes one access nearer. -/
def State.takeInput (s : State) (rest : List HostOp) : State :=
  { s with inputs := rest, engineDelay := s.engineDelay - 1 }

end Sys2Proof.Machine
end

