-- ==== Sys2Proof/Machine/TreeBuilder.lean ====
section
/-! DEFINITION. The tree builder and the code-table generator (spec/42_tree_builder.md) and the command BUILD. -/

namespace Sys2Proof.Machine

/-- A node in the priority queue with its key `(weight, id)` (R192). -/
structure QueueNode where
  weight : Nat
  id     : NodeId
  deriving DecidableEq, Repr

/-- The key order of R192: weight first, then id. -/
def keyBefore (a b : QueueNode) : Bool :=
  decide (a.weight < b.weight) || (decide (a.weight = b.weight) && decide (a.id.toNat < b.id.toNat))

/-- Insertion into the queue, which is held in key order, least first. -/
def insertNode (a : QueueNode) : List QueueNode → List QueueNode
  | [] => [a]
  | b :: rest => if keyBefore a b then a :: b :: rest else b :: insertNode a rest

/-- The symbols with a non-zero count, in increasing order; their number is k (R191). -/
def present (f : Table Word) : List Byte := symbols.filter fun x => decide (entry f x ≠ 0#32)

/-- The leaves of R191: one for each symbol with a non-zero count, id the symbol, weight the count. -/
def leafNodes (f : Table Word) : List QueueNode := (present f).map fun x => ⟨(entry f x).toNat, 0#1 ++ x⟩

/-- The queue at the start of R193. -/
def initialQueue (f : Table Word) : List QueueNode := (leafNodes f).foldr insertNode []

/-- The merge loop of R193 from step `j` on, `steps` steps: the arena entries it creates, in order. The first node
extracted is the left child (R194). -/
def mergeLoop : Nat → Nat → List QueueNode → List ArenaNode
  | steps + 1, j, a :: b :: rest =>
    ⟨a.id, b.id, BitVec.ofNat 32 (a.weight + b.weight)⟩ ::
      mergeLoop steps (j + 1) (insertNode ⟨a.weight + b.weight, BitVec.ofNat 9 (256 + j)⟩ rest)
  | _, _, _ => []

/-- An unused arena entry reads 0 (R54). -/
def noNode : ArenaNode := ⟨0#9, 0#9, 0#32⟩

/-- The arena: the created entries, then zeros (R54, R204). -/
def arenaOf (nodes : List ArenaNode) : Vector ArenaNode 255 := Vector.ofFn fun j => nodes.getD j.val noNode

/-- The arena entry of an internal node's id (R60). -/
def childNode (arena : Vector ArenaNode 255) (n : NodeId) : ArenaNode := arena[n.toNat - 256]?.getD noNode

/-- The depth-first traversal of R197 from node `n` with code `c`: each leaf met with its code. `fuel` bounds the
depth; a tree of R193 has depth at most 255 (R200; notes/assumptions/18). -/
def traverse (arena : Vector ArenaNode 255) : Nat → NodeId → Code → List (Byte × Code)
  | 0, _, _ => []
  | fuel + 1, n, c =>
    if n.toNat < 256 then [(n.setWidth 8, c)]
    else
      traverse arena fuel (childNode arena n).left (c ++ [false]) ++
        traverse arena fuel (childNode arena n).right (c ++ [true])

/-- The code recorded for symbol `x`; none recorded is the empty code (R197). -/
def codeIn (found : List (Byte × Code)) (x : Byte) : Code :=
  match found with
  | [] => []
  | (y, c) :: rest => if y = x then c else codeIn rest x

/-- The code table of R197 for a tree with at least two leaves. -/
def codesOf (arena : Vector ArenaNode 255) (root : NodeId) : Table Code :=
  tabulate (codeIn (traverse arena 256 root []))

/-- The single-symbol tree of R196: the lone leaf, code "0", no arena entry. -/
def singleTree (x : Byte) : Tree where
  nsym := 1#9
  root := 0#1 ++ x
  arena := arenaOf []
  code := tabulate fun y => if y = x then [false] else []

/-- The tree of R193, R195 and R197 for `k ≥ 2` symbols. -/
def mergedTree (f : Table Word) (k : Nat) : Tree :=
  let arena := arenaOf (mergeLoop (k - 1) 0 (initialQueue f))
  let root := BitVec.ofNat 9 (256 + k - 2)
  { nsym := BitVec.ofNat 9 k, root := root, arena := arena, code := codesOf arena root }

/-- What BuildTree returns (R204). -/
inductive BuildResult where
  | overflow
  | empty
  | ok (t : Tree)
  deriving DecidableEq, Repr

/-- The exact sum of the counters (R204). -/
def freqSum (f : Table Word) : Nat := (symbols.map fun x => (entry f x).toNat).sum

/-- BuildTree(F) of R204. -/
def buildTree (f : Table Word) : BuildResult :=
  if freqSum f > 2 ^ 32 - 1 then .overflow
  else
    match present f with
    | [] => .empty
    | [x] => .ok (singleTree x)
    | x :: y :: rest => .ok (mergedTree f (x :: y :: rest).length)

/-- The state BUILD completes in (R190). -/
def buildDone (s : State) : State :=
  match buildTree s.freq with
  | .overflow => s.withoutTree.fail ⟨.weightOverflow, 0#32, 0#32⟩
  | .empty => s.withoutTree.fail ⟨.emptyInput, 0#32, 0#32⟩
  | .ok t => (s.withTree t).succeed 0#32 0#64

/-- BUILD (R190). -/
def execBuild (s : State) : Host.Outcome State Fault Refusal := .next (buildDone s)

end Sys2Proof.Machine
end

