-- ==== Sys2Proof/Machine/Decoder.lean ====
section
/-! DEFINITION. The bitstream decoder (spec/44_decoder.md): DECODE. -/

namespace Sys2Proof.Machine

/-- The big-endian word at byte offset `o` of a header (R126). -/
def headerWord (h : List Byte) (o : Nat) : Word :=
  be32 (h.getD o 0#8) (h.getD (o + 1) 0#8) (h.getD (o + 2) 0#8) (h.getD (o + 3) 0#8)

/-- The frequency table of a header: freq[s] at offset `4 + 4 * s` (R125, R126). -/
def headerTable (h : List Byte) : Table Word := tabulate fun x => headerWord h (4 + 4 * x.toNat)

/-- The address of payload byte 0: `base` of R250. -/
def payloadBase (s : State) : Word := s.srcAddr + 1028#32

/-- The payload bits of the container: `8 * P` of R250. -/
def payloadBits (s : State) : Nat := 8 * (s.srcLen.toNat - 1028)

/-- CorruptStreamError(PAYLOAD_EXHAUSTED) after `m` decoded symbols (R259). -/
def exhausted (s : State) (m : Nat) : CmdError := ⟨.payloadExhausted, s.srcAddr + s.srcLen, BitVec.ofNat 32 m⟩

/-- The payload bit at index `pos`, which is below `8 * P`. The byte is read, and may fail, when its first bit is
needed (R250, D43). -/
def payloadBit (s : State) (pos : Nat) : Except CmdError Bool :=
  if pos % 8 = 0 ∧ memROk s.platform (payloadBase s + BitVec.ofNat 32 (pos / 8)) = false then
    .error ⟨.ioRead, payloadBase s + BitVec.ofNat 32 (pos / 8), 0#32⟩
  else .ok (streamBit (readMem s.mem (payloadBase s + BitVec.ofNat 32 (pos / 8))) (pos % 8))

/-- The walk of R257 from node `n`, with `left` payload bits from `pos` on and `m` symbols decoded before: the
position after the walk and the leaf's symbol. -/
def walk (s : State) (t : Tree) (m : Nat) : Nat → Nat → NodeId → Except CmdError (Nat × Byte)
  | left, pos, n =>
    if n.toNat < 256 then .ok (pos, n.setWidth 8)
    else
      match left with
      | 0 => .error (exhausted s m)
      | left + 1 =>
        match payloadBit s pos with
        | .error e => .error e
        | .ok bit =>
          walk s t m left (pos + 1) (if bit then (childNode t.arena n).right else (childNode t.arena n).left)

/-- One symbol under a single-symbol tree: one bit, which must be 0 (R258). -/
def singleStep (s : State) (t : Tree) (m pos : Nat) : Except CmdError (Nat × Byte) :=
  if payloadBits s ≤ pos then .error (exhausted s m)
  else
    match payloadBit s pos with
    | .error e => .error e
    | .ok true => .error ⟨.invalidDescent, payloadBase s + BitVec.ofNat 32 (pos / 8), BitVec.ofNat 32 m⟩
    | .ok false => .ok (pos + 1, t.root.setWidth 8)

/-- Symbol `m` of the payload, decoded from bit `pos` on (R250). -/
def decodeSymbol (s : State) (t : Tree) (m pos : Nat) : Except CmdError (Nat × Byte) :=
  if t.nsym = 1#9 then singleStep s t m pos else walk s t m (payloadBits s - pos) pos t.root

/-- The loop of R250 over the symbols `m`, `m + 1`, …, `n` of them left: the payload bits consumed and memory. -/
def decodeLoop (s : State) (t : Tree) : Nat → Nat → Nat → Memory → Except CmdError (Nat × Memory)
  | 0, _, pos, mem => .ok (pos, mem)
  | n + 1, m, pos, mem =>
    match decodeSymbol s t m pos with
    | .error e => .error e
    | .ok (pos', x) =>
      match memWrite s mem (s.dstAddr + BitVec.ofNat 32 m) x with
      | .error e => .error e
      | .ok mem' => decodeLoop s t n (m + 1) pos' mem'

/-- The walk stage of DECODE over `n` symbols, with the check for surplus bytes (R255, R260, R262). -/
def decodePayload (s : State) (t : Tree) (n : Word) : State :=
  if s.dstCap.toNat < n.toNat then s.failWindow ⟨.ioSinkFull, s.dstAddr + s.dstCap, 0#32⟩
  else
    match decodeLoop s t n.toNat 0 0 s.mem with
    | .error e => s.failWindow e
    | .ok (pos, mem) =>
      if s.srcLen.toNat - 1028 ≠ ceil8 pos then
        s.failWindow ⟨.trailingBytes, payloadBase s + BitVec.ofNat 32 (ceil8 pos), n⟩
      else (s.withMem mem).succeed n (BitVec.ofNat 64 pos)

/-- DECODE once the header `h` is read: FREQ is loaded, and the tree rebuilt, before anything else can fail (R252 to R256). -/
def decodeContainer (s : State) (h : List Byte) : State :=
  let s1 := s.withFreq (headerTable h)
  let n := headerWord h 0
  if n = 0#32 then
    if s.srcLen.toNat - 1028 ≠ 0 then s1.failWindow ⟨.trailingBytes, payloadBase s, 0#32⟩ else s1.succeed 0#32 0#64
  else
    match buildTree s1.freq with
    | .overflow => s1.failWindow ⟨.corruptWeightOverflow, s.srcAddr, 0#32⟩
    | .empty => s1.failWindow ⟨.emptyTable, s.srcAddr, 0#32⟩
    | .ok t => decodePayload (s1.withTree t) t n

/-- The state DECODE completes in (R250). A container shorter than its header leaves FREQ and the tree alone (R251)
and, as every failed DECODE, draws in the window (R88, R159; DEDUCED, notes/assumptions/11). -/
def decodeDone (s : State) : State :=
  match checkRanges s with
  | some e => s.failWindow e
  | none =>
    if s.srcLen.toNat < 1028 then s.failWindow ⟨.headerTruncated, s.srcAddr, s.srcLen⟩
    else
      match readBytes s s.srcAddr 1028 with
      | .error e => s.failWindow e
      | .ok h => decodeContainer s h

/-- DECODE (R250). -/
def execDecode (s : State) : Host.Outcome State Fault Refusal := runUnlessHazard .decode s (decodeDone s)

end Sys2Proof.Machine
end

