-- ==== Sys2Proof/Machine/FreqCounter.lean ====
section
/-! DEFINITION. The frequency counter (spec/41_frequency_counter.md): FREQ_CLEAR, FREQ_COUNT, FREQ_ACCUM. -/

namespace Sys2Proof.Machine

/-- The occurrences of each byte value among `bytes`, the table L of R170. -/
def countBytes (bytes : List Byte) : Table Word := tabulate fun x => BitVec.ofNat 32 (bytes.count x)

/-- The count of the `n` bytes from address `a` up (R170). -/
def countRange (s : State) (a : Word) (n : Nat) : Except CmdError (Table Word) :=
  match readBytes s a n with
  | .error e => .error e
  | .ok bytes => .ok (countBytes bytes)

/-- LocalCount() of R170. -/
def localCount (s : State) : Except CmdError (Table Word) := countRange s s.srcAddr s.srcLen.toNat

/-- The all-zero table. -/
def zeroTable : Table Word := tabulate fun _ => 0#32

/-- Element-wise addition, the source's merge (R173, R176). -/
def addTables (f l : Table Word) : Table Word := tabulate fun x => entry f x + entry l x

/-- The least symbol whose counter would pass 2^32 - 1 (R173). -/
def firstOverflow (f l : Table Word) : Option Byte :=
  symbols.find? fun x => decide ((entry f x).toNat + (entry l x).toNat > 2 ^ 32 - 1)

/-- FREQ_CLEAR (R171). -/
def execFreqClear (s : State) : Host.Outcome State Fault Refusal :=
  .next ((s.withFreq zeroTable).succeed 0#32 0#64)

/-- The state FREQ_COUNT completes in (R172). -/
def freqCountDone (s : State) : State :=
  match checkSrc s with
  | some e => s.fail e
  | none =>
    match localCount s with
    | .error e => s.fail e
    | .ok l => (s.withFreq l).succeed 0#32 0#64

/-- FREQ_COUNT (R172). -/
def execFreqCount (s : State) : Host.Outcome State Fault Refusal := runUnlessHazard .freqCount s (freqCountDone s)

/-- The state FREQ_ACCUM completes in (R173). -/
def freqAccumDone (s : State) : State :=
  match checkSrc s with
  | some e => s.fail e
  | none =>
    match localCount s with
    | .error e => s.fail e
    | .ok l =>
      match firstOverflow s.freq l with
      | some x => s.fail ⟨.countOverflow, 0#32, 0#24 ++ x⟩
      | none => (s.withFreq (addTables s.freq l)).succeed 0#32 0#64

/-- FREQ_ACCUM (R173). -/
def execFreqAccum (s : State) : Host.Outcome State Fault Refusal := runUnlessHazard .freqAccum s (freqAccumDone s)

end Sys2Proof.Machine
end

