-- ==== Sys2Proof/Machine/Encoder.lean ====
section
/-! DEFINITION. The bitstream encoder (spec/43_encoder.md): the encode stage, ENCODE and COMPRESS. -/

namespace Sys2Proof.Machine

/-- How far the container is written: the next container offset and memory so far (R220). -/
structure Sink where
  offset : Nat
  mem    : Memory
  deriving DecidableEq, Repr

/-- Emit(v) of R220: the capacity test comes before the write (R290). -/
def emit (s : State) (k : Sink) (v : Byte) : Except CmdError Sink :=
  if s.dstCap.toNat ≤ k.offset then .error ⟨.ioSinkFull, s.dstAddr + s.dstCap, 0#32⟩
  else
    match memWrite s k.mem (s.dstAddr + BitVec.ofNat 32 k.offset) v with
    | .error e => .error e
    | .ok m => .ok ⟨k.offset + 1, m⟩

/-- Emit of each byte in order. -/
def emitAll (s : State) (k : Sink) : List Byte → Except CmdError Sink
  | [] => .ok k
  | v :: rest =>
    match emit s k v with
    | .error e => .error e
    | .ok k' => emitAll s k' rest

/-- The container header: symbol_count and the 256 frequencies, big-endian (R125, R222). -/
def headerBytes (count : Word) (f : Table Word) : List Byte :=
  bytesBE32 count ++ symbols.flatMap fun x => bytesBE32 (entry f x)

/-- The payload loop of R220 over `n` source bytes from address `a`: `acc` is the bit accumulator and `b` the
payload bits so far. The final byte is written when no source byte is left (R225). -/
def payloadLoop (s : State) : Nat → Word → Code → Nat → Sink → Except CmdError (Sink × Nat)
  | 0, _, acc, b, k =>
    if acc = [] then .ok (k, b)
    else
      match emit s k (finalByte acc) with
      | .error e => .error e
      | .ok k' => .ok (k', b)
  | n + 1, a, acc, b, k =>
    match memRead s a with
    | .error e => .error e
    | .ok x =>
      if s.code x = [] then .error ⟨.unknownSymbol, a, 0#24 ++ x⟩
      else
        match emitAll s k (fullBytes (acc ++ s.code x)) with
        | .error e => .error e
        | .ok k' => payloadLoop s n (a + 1#32) (leftover (acc ++ s.code x)) (b + (s.code x).length) k'

/-- EncodeStage() of R220. The source is read from memory as it stands at the start: R328 and R330 keep it unchanged
(DEDUCED, notes/assumptions/16). -/
def encodeStage (s : State) : Except CmdError (Sink × Nat) :=
  match emitAll s ⟨0, s.mem⟩ (headerBytes s.srcLen s.freq) with
  | .error e => .error e
  | .ok k => payloadLoop s s.srcLen.toNat s.srcAddr [] 0 k

/-- The end of ENCODE and COMPRESS: the results of R226, or the failure of R159. -/
def encodeFinish (s : State) : State :=
  match encodeStage s with
  | .error e => s.failWindow e
  | .ok (k, b) => (s.withMem k.mem).succeed (BitVec.ofNat 32 k.offset) (BitVec.ofNat 64 b)

/-- The state ENCODE completes in (R221). -/
def encodeDone (s : State) : State :=
  match checkRanges s with
  | some e => s.failWindow e
  | none => encodeFinish s

/-- ENCODE (R221). -/
def execEncode (s : State) : Host.Outcome State Fault Refusal := runUnlessHazard .encode s (encodeDone s)

/-- The build step of COMPRESS: a tree is committed; the other outcomes cannot arise there (R228, R229;
notes/assumptions/18). -/
def commitBuild (s : State) : State :=
  match buildTree s.freq with
  | .ok t => s.withTree t
  | .overflow | .empty => s

/-- The state COMPRESS completes in (R228). -/
def compressDone (s : State) : State :=
  match checkRanges s with
  | some e => s.failWindow e
  | none =>
    match localCount s with
    | .error e => s.failWindow e
    | .ok l =>
      if s.srcLen = 0#32 then encodeFinish (s.withFreq l) else encodeFinish (commitBuild (s.withFreq l))

/-- COMPRESS (R228). -/
def execCompress (s : State) : Host.Outcome State Fault Refusal := runUnlessHazard .compress s (compressDone s)

end Sys2Proof.Machine
end

