-- ==== Sys2Proof/Machine/Dispatch.lean ====
section
/-! DEFINITION. Exec(w) of spec/40_command_interface.md R161 for a legal word: one arm for each command. -/

namespace Sys2Proof.Machine

def exec (i : Instr) (s : State) : Host.Outcome State Fault Refusal :=
  match i with
  | .freqClear => Sys2Proof.Machine.execFreqClear s
  | .freqCount => Sys2Proof.Machine.execFreqCount s
  | .freqAccum => Sys2Proof.Machine.execFreqAccum s
  | .build => Sys2Proof.Machine.execBuild s
  | .encode => Sys2Proof.Machine.execEncode s
  | .compress => Sys2Proof.Machine.execCompress s
  | .decode => Sys2Proof.Machine.execDecode s

end Sys2Proof.Machine
end

