-- ==== Sys2Proof/Machine/Window.lean ====
section
/-! DEFINITION. What a host access does (spec/40_command_interface.md R151, R156, R157; read values
spec/10_state.md R33 to R57; accesses of other agents to system memory, spec/70_reset_and_hazards.md R328, R329). -/

namespace Sys2Proof.Machine

/-- Arena entry `j` is one the current tree uses: TREE_VALID = 1 and `j < NSYM - 1` (R54, R55). -/
def arenaEntry (s : State) (j : Fin 255) : Option ArenaNode :=
  match s.tree with
  | none => none
  | some t => if j.val + 1 < t.nsym.toNat then some (t.arena[j.val]'j.isLt) else none

/-- NODE_CHILD[j]: `{7'b0, RIGHT[j], 7'b0, LEFT[j]}` (R55, R117). -/
def nodeChildWord (s : State) (j : Fin 255) : Word :=
  match arenaEntry s j with
  | none => 0#32
  | some n => 0#7 ++ n.right ++ 0#7 ++ n.left

/-- NODE_WEIGHT[j] (R56). -/
def nodeWeightWord (s : State) (j : Fin 255) : Word :=
  match arenaEntry s j with
  | none => 0#32
  | some n => n.weight

/-- TREE_ROOT: `{23'b0, root}`, 0 without a tree (R46, R116). -/
def treeRootWord (s : State) : Word :=
  match s.tree with
  | none => 0#32
  | some t => 0#23 ++ t.root

/-- NSYM: `{23'b0, k}`, 0 without a tree (R47, R116). -/
def nsymWord (s : State) : Word :=
  match s.tree with
  | none => 0#32
  | some t => 0#23 ++ t.nsym

/-- The value each register reads as while the block is idle (R32 to R56). -/
def idleValue (s : State) : Reg → Word
  | .id => 0x48554646#32
  | .version => 0x00000007#32
  | .ctrl => s.ctrl
  | .status => s.status
  | .cmd => 0#32
  | .srcAddr => s.srcAddr
  | .srcLen => s.srcLen
  | .dstAddr => s.dstAddr
  | .dstCap => s.dstCap
  | .outLen => s.outLen
  | .errAddr => s.errAddr
  | .errData => s.errData
  | .treeRoot => treeRootWord s
  | .nsym => nsymWord s
  | .bitsLo => s.bits.extractLsb' 0 32
  | .bitsHi => s.bits.extractLsb' 32 32
  | .freq x => entry s.freq x
  | .codeLen x => 0#24 ++ BitVec.ofNat 8 (s.code x).length
  | .codeBits x w => codeWord (s.code x) w.toNat
  | .nodeChild j => nodeChildWord s j
  | .nodeWeight j => nodeWeightWord s j
  | .reserved => 0#32

/-- The registers a busy read of which is a draw, in whole or in the TREE_VALID bit (R57). -/
def busyReadIsDraw : Reg → Bool
  | .status | .treeRoot | .nsym | .freq _ | .codeLen _ | .codeBits _ _ | .nodeChild _ | .nodeWeight _ => true
  | .id | .version | .ctrl | .cmd | .srcAddr | .srcLen | .dstAddr | .dstCap | .outLen | .errAddr | .errData
  | .bitsLo | .bitsHi | .reserved => false

/-- The value of a busy read: a draw for the tables, TREE_ROOT, NSYM and STATUS.TREE_VALID (R57); the rest as when idle. -/
def busyValue (s : State) (draw : Word) (r : Reg) : Word :=
  match r with
  | .status => statusWith s (draw.getLsbD 3)
  | _ => if busyReadIsDraw r then draw else idleValue s r

/-- The value read, with no effect on the block (R157). -/
def regValue (s : State) (r : Reg) : Word :=
  if s.busy then busyValue s (Config.freeWord s.draws) r else idleValue s r

/-- The bus answers `v` to the host. -/
def State.answer (s : State) (v : Word) : State := { s with hostData := v }

/-- The model's count of draws goes on by one. -/
def State.drawn (s : State) : State := { s with draws := s.draws + 1 }

/-- A host read of a register (R157); a busy read that is a draw takes a fresh one. -/
def readReg (r : Reg) (s : State) : State :=
  if s.busy && busyReadIsDraw r then (s.answer (regValue s r)).drawn else s.answer (regValue s r)

/-- A write that is ignored because BUSY = 1 sets BUSY_WR (R151). -/
def State.lostWrite (s : State) : State := { s with busyWr := true }

/-- The operand registers (R39 to R42). -/
def State.setOperand (s : State) (r : Reg) (v : Word) : State :=
  match r with
  | .srcAddr => { s with srcAddr := v }
  | .srcLen => { s with srcLen := v }
  | .dstAddr => { s with dstAddr := v }
  | .dstCap => { s with dstCap := v }
  | _ => s

/-- CTRL.IE <- v[0] (R35). -/
def State.setIe (s : State) (b : Bool) : State := { s with ie := b }

/-- A host write of `v` to a register, the table of R156. -/
def writeReg (r : Reg) (v : Word) (s : State) : Host.Outcome State Fault Refusal :=
  match r with
  | .ctrl => if v.getLsbD 1 then resetStep s else .next (s.setIe (v.getLsbD 0))
  | .status => .next (s.acknowledge v)
  | .cmd => if s.busy then .next s.lostWrite else startCommand v s
  | .srcAddr | .srcLen | .dstAddr | .dstCap => .next (if s.busy then s.lostWrite else s.setOperand r v)
  | .freq x => .next (if s.busy then s.lostWrite else s.withFreq (setEntry s.freq x v))
  | .id | .version | .outLen | .errAddr | .errData | .treeRoot | .nsym | .bitsLo | .bitsHi | .codeLen _
  | .codeBits _ _ | .nodeChild _ | .nodeWeight _ | .reserved => .next s

/-- A running command that reads its source range reads address `a` (R328; DEDUCED, notes/assumptions/15). -/
def sourceBusy (s : State) (a : Word) : Bool :=
  match runningCommand s with
  | none => false
  | some i => usesSource i && inSource s a

/-- A running command owns address `a` as a byte of its destination window (R329). -/
def windowBusy (s : State) (a : Word) : Bool :=
  match runningCommand s with
  | none => false
  | some i => usesWindow i && inWindow s a

/-- A byte of system memory read by another agent (R5, R329). A byte access to an address of the register window
is a window access that is not 32 bits wide (R307). MEM_R_OK does not govern it (DESIGN CHOICE, notes/assumptions/10),
and no cache stands between (notes/assumptions/19). -/
def hostMemRead (a : Word) (s : State) : Host.Outcome State Fault Refusal :=
  if inRegisterWindow s.platform a then .fault (.hazardViolation .badHostAccess)
  else if windowBusy s a then .fault (.hazardViolation .destinationTouched)
  else .next (s.answer (0#24 ++ readMem s.mem a))

/-- A byte of system memory written by another agent (R5, R328, R329, R307). -/
def hostMemWrite (a : Word) (v : Byte) (s : State) : Host.Outcome State Fault Refusal :=
  if inRegisterWindow s.platform a then .fault (.hazardViolation .badHostAccess)
  else if sourceBusy s a then .fault (.hazardViolation .sourceWritten)
  else if windowBusy s a then .fault (.hazardViolation .destinationTouched)
  else .next (s.withMem (writeMem s.mem a v))

/-- One access from outside the block. -/
def hostStep (op : HostOp) (s : State) : Host.Outcome State Fault Refusal :=
  match op with
  | .regRead off bytes =>
    match regOfAccess off bytes with
    | none => .fault (.hazardViolation .badHostAccess)
    | some r => .next (readReg r s)
  | .regWrite off bytes v =>
    match regOfAccess off bytes with
    | none => .fault (.hazardViolation .badHostAccess)
    | some r => writeReg r v s
  | .memRead a => hostMemRead a s
  | .memWrite a v => hostMemWrite a v s
  | .hardReset => resetStep s

end Sys2Proof.Machine
end

