-- ==== Sys2Proof/Machine/Step.lean ====
section
/-! DEFINITION. One step of the machine: the ENGINE step of a started command (spec/40_command_interface.md R152,
R161), or the next host access (spec/20_memory.md R101), or idleness (spec/10_state.md R31). -/

namespace Sys2Proof.Machine

/-- One step. The ENGINE moves when its word is due; else the oldest host access takes effect; an idle block with
nothing to do waits. -/
def step (s : State) : Host.Outcome State Fault Refusal :=
  match engineWord s with
  | some w =>
    match decode w with
    | .ok i => exec i s
    | .error r => .next (illegalCommand r w s)
  | none =>
    match s.inputs with
    | [] => .next s
    | op :: rest => hostStep op (s.takeInput rest)

/-- The machine with the command word started (R150) and the ENGINE step due at once: this is where `step` takes its
next command from. The load stands for a host write to CMD (notes/assumptions/2). -/
def State.withFetchWord (s : State) (nbits w : Nat) : State := s.startWith (BitVec.ofNat 32 (w % 2 ^ nbits)) 0

end Sys2Proof.Machine
end

