-- ==== Sys2Proof/Machine/Container.lean ====
section
/-! DEFINITION. The compressed container as the format rules give it (spec/30_encoding.md R125 to R131): what the
encode stage must write, said without its accumulator. -/

namespace Sys2Proof.Machine

/-- The payload bitstream of R130: the codes of the source bytes in order. -/
def sourceBits (code : Byte → Code) (src : List Byte) : Code := src.flatMap code

/-- The payload bytes of R131: bit index `i` in byte `i / 8` at position `7 - i % 8`, zeros past the last bit. -/
def packBits (bits : Code) : List Byte :=
  (List.range (ceil8 bits.length)).map fun q => byteOfBits ((List.range 8).map fun t => bits.getD (8 * q + t) false)

/-- The container of R125 for a source under a code table; `count` is symbol_count. -/
def container (count : Word) (f : Table Word) (code : Byte → Code) (src : List Byte) : List Byte :=
  headerBytes count f ++ packBits (sourceBits code src)

end Sys2Proof.Machine
end

