-- ==== Sys2Proof/Machine/Parallel.lean ====
section
/-! DEFINITION. The parallel lanes the source allows (spec/41_frequency_counter.md R176, spec/43_encoder.md R227),
as algorithms beside the sequential ones. No command calls them: their results are required to be the sequential
ones (spec/00_scope.md R11), and the statements say that they are. -/

namespace Sys2Proof.Machine

/-- The merge of R176: the tables are added; of two failures the one of the lower range is reported (R11). -/
def mergeCounts : Except CmdError (Table Word) → Except CmdError (Table Word) → Except CmdError (Table Word)
  | .error e, _ => .error e
  | .ok _, .error e => .error e
  | .ok l, .ok r => .ok (addTables l r)

/-- The recursive count of R176: a range over the chunk threshold is split at its midpoint, each half is counted,
and the two counts are merged. `fuel` bounds the depth. -/
def parallelCount (s : State) (threshold : Nat) : Nat → Word → Nat → Except CmdError (Table Word)
  | 0, a, n => countRange s a n
  | fuel + 1, a, n =>
    if n ≤ threshold then countRange s a n
    else
      mergeCounts (parallelCount s threshold fuel a (n / 2))
        (parallelCount s threshold fuel (a + BitVec.ofNat 32 (n / 2)) (n - n / 2))

/-- The local bit length of a chunk (R227 step 2). -/
def chunkBits (code : Byte → Code) (chunk : List Byte) : Nat := (chunk.map fun x => (code x).length).sum

/-- A chunk rendered into its own buffer from its bit phase on (R227 step 4). -/
def renderChunk (code : Byte → Code) (phase : Nat) (chunk : List Byte) : List Byte :=
  packBits (List.replicate phase false ++ sourceBits code chunk)

/-- A buffer spliced to the payload so far: at phase 0 it is appended, otherwise its first byte completes the last
byte already there (R227 step 5). -/
def splice (out : List Byte) (phase : Nat) (buffer : List Byte) : List Byte :=
  if phase = 0 then out ++ buffer
  else
    match buffer with
    | [] => out
    | b :: rest => out.dropLast ++ ((out.getLastD 0#8 ||| b) :: rest)

/-- The chunks rendered and stitched in index order; `offset` is the exclusive prefix sum of the bit lengths (R227 step 3). -/
def stitchChunks (code : Byte → Code) : Nat → List Byte → List (List Byte) → List Byte
  | _, out, [] => out
  | offset, out, chunk :: rest =>
    stitchChunks code (offset + chunkBits code chunk)
      (splice out (offset % 8) (renderChunk code (offset % 8) chunk)) rest

end Sys2Proof.Machine
end

