-- ==== Sys2Proof/Safety.lean ====
section
/-! DEFINITION. What a run keeps and what a safe step is: the invariant of the machine, the conditions on operands
under which a command completes normally, and the frames that the statements speak of. -/

namespace Sys2Proof.Machine

/-! ### The invariant -/

/-- TREE_VALID = 1 means that the tree is the one R204 builds from the current FREQ (R53). -/
def TreeMatchesFreq (s : State) : Prop := ∀ t, s.tree = some t → buildTree s.freq = .ok t

/-- While BUSY = 1, DONE, the error record, OUT_LEN and BITS are 0 (R36, R43 to R45, R48, R298). -/
def BusyRecordClear (s : State) : Prop :=
  s.busy = true →
    s.done = false ∧ s.err = 0#4 ∧ s.errSub = 0#4 ∧ s.errAddr = 0#32 ∧ s.errData = 0#32 ∧ s.outLen = 0#32 ∧ s.bits = 0#64

/-- The latched word's bits [7:0] are visible as LAST_CMD (R62). -/
def PendingIsLastCmd (s : State) : Prop := ∀ w, s.pend = some w → s.lastCmd = opcField w

/-- The error code is one that R119 and R120 list. -/
def ErrorsListed (s : State) : Prop := (s.err, s.errSub) ∈ listedErrors

/-- After a failed command OUT_LEN and BITS are 0 (R43, R48, R159). -/
def FailureHasNoOutput (s : State) : Prop := s.err ≠ 0#4 → s.outLen = 0#32 ∧ s.bits = 0#64

/-- ERR_ADDR and ERR_DATA are 0 after success (R44, R45). -/
def SuccessHasNoRecord (s : State) : Prop := s.err = 0#4 → s.errAddr = 0#32 ∧ s.errData = 0#32

/-- The operands break no hazard rule (R339; where R331 places the register window: notes/assumptions/25; that it
and R332 bind only a range the command uses: notes/assumptions/26). -/
def HazardFree (i : Instr) (s : State) : Prop := commandHazard i s = none

/-- A running command breaks no hazard rule by its operands: a start that breaks one faults (R339). -/
def RunningIsHazardFree (s : State) : Prop := ∀ i, runningCommand s = some i → HazardFree i s

/-- The invariant that every step keeps. -/
structure Inv (s : State) : Prop where
  memory  : Memory.wf s.mem
  tree    : TreeMatchesFreq s
  busy    : BusyRecordClear s
  lastCmd : PendingIsLastCmd s
  errors  : ErrorsListed s
  failure : FailureHasNoOutput s
  success : SuccessHasNoRecord s
  hazard  : RunningIsHazardFree s

/-! ### The conditions on operands -/

/-- CheckSrc() passes (R91). -/
def SourceFits (s : State) : Prop := s.srcAddr.toNat + s.srcLen.toNat ≤ 2 ^ 32

/-- CheckDst() passes (R91). -/
def WindowFits (s : State) : Prop := s.dstAddr.toNat + s.dstCap.toNat ≤ 2 ^ 32

/-- MEM_R_OK holds for each of the first `n` source bytes. -/
def SourceReadable (s : State) (n : Nat) : Prop :=
  ∀ k, k < n → memROk s.platform (s.srcAddr + BitVec.ofNat 32 k) = true

/-- MEM_W_OK holds for each of the first `n` bytes of the window. -/
def WindowWritable (s : State) (n : Nat) : Prop :=
  ∀ k, k < n → memWOk s.platform (s.dstAddr + BitVec.ofNat 32 k) = true

/-- The bytes of the source range, in increasing address order (R81). -/
def sourceBytes (s : State) : List Byte := bytesAt s.mem s.srcAddr s.srcLen.toNat

/-- The ENGINE step for the word `w` is the next step (R152). -/
def Due (s : State) (w : Word) : Prop := s.pend = some w ∧ (s.engineDelay = 0 ∨ s.inputs = [])

/-- The payload bits of the source range under the current code table, B of R128. -/
def encodedBits (s : State) : Code := sourceBits s.code (sourceBytes s)

/-- The container of the source range under the current tables (R125, R222). -/
def encodedBytes (s : State) : List Byte := container s.srcLen s.freq s.code (sourceBytes s)

/-- How many container bytes ENCODE has written when it turns to source byte `j`: the header and the whole payload bytes
of the codes before it; past the last source byte, the final byte as well (R220, R224, R225). -/
def writtenAfter (s : State) (j : Nat) : Nat :=
  1028 + (if j = s.srcLen.toNat then ceil8 (sourceBits s.code (bytesAt s.mem s.srcAddr j)).length
    else (sourceBits s.code (bytesAt s.mem s.srcAddr j)).length / 8)

/-- The container COMPRESS would write is `n` bytes long: just the header for an empty source, else the header and the
codes of the source under the tree of its own counts (R228, R230). -/
def CompressedLength (s : State) (n : Nat) : Prop :=
  (s.srcLen = 0#32 ∧ n = 1028) ∨
    (s.srcLen ≠ 0#32 ∧ ∃ T, buildTree (countBytes (sourceBytes s)) = .ok T ∧
      n = 1028 + ceil8 (sourceBits (entry T.code) (sourceBytes s)).length)

/-- The first `n` bits of the payload are the first `n` of `bits` (R131). -/
def PayloadBegins (payload : List Byte) (bits : Code) (n : Nat) : Prop :=
  ∀ i, i < n → streamBit (payload.getD (i / 8) 0#8) (i % 8) = bits.getD i false

/-- The errors each command can raise besides IllegalCommand, as (ERR, ERR_SUB) (R288). -/
def errorsOf : Instr → List (BitVec 4 × BitVec 4)
  | .freqClear => []
  | .freqCount => [(6#4, 1#4), (1#4, 1#4)]
  | .freqAccum => [(6#4, 1#4), (6#4, 3#4), (1#4, 1#4)]
  | .build => [(6#4, 4#4), (2#4, 0#4)]
  | .encode => [(6#4, 1#4), (6#4, 2#4), (1#4, 1#4), (1#4, 2#4), (1#4, 3#4), (3#4, 0#4)]
  | .compress => [(6#4, 1#4), (6#4, 2#4), (1#4, 1#4), (1#4, 2#4), (1#4, 3#4)]
  | .decode =>
    [(6#4, 1#4), (6#4, 2#4), (1#4, 1#4), (1#4, 2#4), (1#4, 3#4), (4#4, 1#4), (4#4, 2#4), (4#4, 3#4), (4#4, 4#4),
      (4#4, 5#4), (4#4, 6#4)]

/-- The node reached from `n` by branch bits: left on 0, right on 1 (R197, R257). -/
def descend (arena : Vector ArenaNode 255) (n : NodeId) (bits : Code) : NodeId :=
  bits.foldl (fun m b => if b then (childNode arena m).right else (childNode arena m).left) n

/-! ### Frames -/

/-- What no command writes: CTRL.IE, BUSY_WR, LAST_CMD, the operand registers (R58), the launch parameters and the
queue of the outside. -/
structure ControlKept (s t : State) : Prop where
  ie       : t.ie = s.ie
  busyWr   : t.busyWr = s.busyWr
  lastCmd  : t.lastCmd = s.lastCmd
  srcAddr  : t.srcAddr = s.srcAddr
  srcLen   : t.srcLen = s.srcLen
  dstAddr  : t.dstAddr = s.dstAddr
  dstCap   : t.dstCap = s.dstCap
  platform : t.platform = s.platform
  inputs   : t.inputs = s.inputs
  hostData : t.hostData = s.hostData

/-- Every byte of memory but the first `n` of the destination window reads as before (R88). -/
def MemoryKeptPast (s t : State) (n : Nat) : Prop :=
  ∀ a, (∀ k, k < n → a ≠ s.dstAddr + BitVec.ofNat 32 k) → readMem t.mem a = readMem s.mem a

/-- FREQ and the tree are as before. -/
def TablesKept (s t : State) : Prop := t.freq = s.freq ∧ t.tree = s.tree

/-- Every byte of memory outside the destination window, and every byte that is not writable, reads as before. -/
def MemoryKeptOutsideWindow (s t : State) : Prop :=
  ∀ a, (inWindow s a = false ∨ memWOk s.platform a = false) → readMem t.mem a = readMem s.mem a

/-- The registers of a completion without an error and with the results given (R120, R152, R226). -/
structure CompletedOk (t : State) (outLen : Word) (bits : BitVec 64) : Prop where
  busy    : t.busy = false
  done    : t.done = true
  err     : t.err = 0#4
  errSub  : t.errSub = 0#4
  errAddr : t.errAddr = 0#32
  errData : t.errData = 0#32
  outLen  : t.outLen = outLen
  bits    : t.bits = bits

/-- The registers of a completion with the error record of R285. -/
structure CompletedWith (t : State) (e : CmdError) : Prop where
  busy    : t.busy = false
  done    : t.done = true
  err     : t.err = errNumber e.cause
  errSub  : t.errSub = errSubNumber e.cause
  errAddr : t.errAddr = e.addr
  errData : t.errData = e.data
  outLen  : t.outLen = 0#32
  bits    : t.bits = 0#64

end Sys2Proof.Machine
end

