-- ==== Sys2Proof/WellFormed.lean ====
section
/-! DEFINITION. Well-formedness: of commands (none has an operand field, R110), of the command words the HOST
may write (R111), and of host accesses to the window (R307). -/

namespace Sys2Proof

/-- Every command is well formed: format CMD has no operand that a bound could shut out (R110). -/
def Instr.wellFormed : Instr → Bool
  | .freqClear | .freqCount | .freqAccum | .build | .encode | .compress | .decode => true

/-- R111: "A command word w is legal iff w[31:8] = 0 and w[7:0] is one of these values". -/
def legalWord (w : Word) : Bool :=
  decide (rsvField w = 0#24) && decide (1 ≤ (opcField w).toNat ∧ (opcField w).toNat ≤ 7)

/-- R307: a window access is an aligned 32-bit access; an access that is not one of the window has no such check. -/
def hostOpWellFormed : Machine.HostOp → Bool
  | .regRead off bytes => decide (bytes = 4 ∧ off.toNat % 4 = 0)
  | .regWrite off bytes _ => decide (bytes = 4 ∧ off.toNat % 4 = 0)
  | .memRead _ | .memWrite _ _ | .hardReset => true

end Sys2Proof
end

