-- ==== Sys2Proof/Certificates/Slice0/Obligations.lean ====
section
/-! DEFINITION. The statements for the provers, in the order of spec/: the command word, the command interface, the
register window, the frequency counter, the tree builder, the encoder, the decoder, errors, reset and hazards. -/

open Sys2Proof Sys2Proof.Machine

/-! ### The command word and the step -/

/-- R152, R161: the ENGINE step of a due legal word is `exec` of the command it decodes to, on the state as it stands;
a due illegal word completes with its record; otherwise the oldest host access takes effect, and with none queued the
block waits (the queue is notes/assumptions/1). The loaded word of `withFetchWord` is due at once (notes/assumptions/2). -/
def Obligations.StepRunsDecodedCommand : Prop :=
  (∀ (s : State) (w : Word) (i : Instr), Due s w → decode w = .ok i → step s = exec i s) ∧
  (∀ (s : State) (w : Word) (r : IllegalWord), Due s w → decode w = .error r → step s = .next (illegalCommand r w s)) ∧
  (∀ (s : State) (op : HostOp) (rest : List HostOp), (∀ w, ¬ Due s w) → s.inputs = op :: rest →
    step s = hostStep op (s.takeInput rest)) ∧
  (∀ s : State, (∀ w, ¬ Due s w) → s.inputs = [] → step s = .next s) ∧
  ∀ (s : State) (i : Instr), Due (s.withFetchWord 32 (encode i).toNat) (encode i)

/-- R113, R114: every word is one of the seven command words, or illegal by its OPC or by its RSV field. -/
def Obligations.EveryWordIsACommandOrIllegal : Prop :=
  (∀ (w : Word) (i : Instr), decode w = .ok i ↔ w = encode i) ∧
  (∀ w : Word, decode w = .error .unknownOpcode ↔ (w.toNat % 256 = 0 ∨ 8 ≤ w.toNat % 256)) ∧
  (∀ w : Word, decode w = .error .reservedBits ↔
    (1 ≤ w.toNat % 256 ∧ w.toNat % 256 ≤ 7 ∧ w.toNat / 256 ≠ 0)) ∧
  ∀ w : Word, legalWord w = true ↔ ∃ i, decode w = .ok i

/-- R111: the words of the opcode map, as numbers. -/
def Obligations.CommandWordsDecode : Prop :=
  decode 0x00000001#32 = .ok .freqClear ∧ decode 0x00000002#32 = .ok .freqCount ∧
  decode 0x00000003#32 = .ok .freqAccum ∧ decode 0x00000004#32 = .ok .build ∧
  decode 0x00000005#32 = .ok .encode ∧ decode 0x00000006#32 = .ok .compress ∧ decode 0x00000007#32 = .ok .decode

/-- Decoding the word an encoder writes gives the command back, as a word and as a table row. -/
def Obligations.DecodeAfterEncode : Prop :=
  ∀ i : Instr, i.wellFormed = true → decode (encode i) = .ok i ∧ decodeTableWord 32 (encode i).toNat = some i

/-- R32, R307: the offset of every register and table word, as a number; every named register is reached by an aligned
32-bit access at its offset and at no other, and an access of another width or alignment reaches none (alignment is said
of the offset, notes/assumptions/24). -/
def Obligations.WindowMapNamesEachOffsetOnce : Prop :=
  (∀ r : Reg, r ≠ .reserved → regOfAccess (offsetOf r) 4 = some r) ∧
  (∀ (off : BitVec 14) (r : Reg), regOfAccess off 4 = some r → r ≠ .reserved → off = offsetOf r) ∧
  (∀ (off : BitVec 14) (bytes : Nat), (bytes ≠ 4 ∨ off.toNat % 4 ≠ 0) ↔ regOfAccess off bytes = none) ∧
  regOfAccess (offsetOf .reserved) 4 = some .reserved ∧
  (offsetOf .id = 0x000#14 ∧ offsetOf .version = 0x004#14 ∧ offsetOf .ctrl = 0x008#14 ∧ offsetOf .status = 0x00C#14 ∧
    offsetOf .cmd = 0x010#14 ∧ offsetOf .srcAddr = 0x014#14 ∧ offsetOf .srcLen = 0x018#14 ∧
    offsetOf .dstAddr = 0x01C#14 ∧ offsetOf .dstCap = 0x020#14 ∧ offsetOf .outLen = 0x024#14 ∧
    offsetOf .errAddr = 0x028#14 ∧ offsetOf .errData = 0x02C#14 ∧ offsetOf .treeRoot = 0x030#14 ∧
    offsetOf .nsym = 0x034#14 ∧ offsetOf .bitsLo = 0x038#14 ∧ offsetOf .bitsHi = 0x03C#14) ∧
  (∀ x : Byte, (offsetOf (.freq x)).toNat = 0x400 + 4 * x.toNat ∧
    (offsetOf (.codeLen x)).toNat = 0x800 + 4 * x.toNat ∧
    ∀ w : BitVec 3, (offsetOf (.codeBits x w)).toNat = 0x1000 + 0x20 * x.toNat + 4 * w.toNat) ∧
  ∀ j : Fin 255, (offsetOf (.nodeChild j)).toNat = 0x3000 + 4 * j.val ∧
    (offsetOf (.nodeWeight j)).toNat = 0x3400 + 4 * j.val

/-- R154, R112: an illegal word completes with IllegalCommand and the word in ERR_DATA, and changes nothing else. -/
def Obligations.IllegalWordOnlyReports : Prop :=
  ∀ (s : State) (w : Word), Due s w → legalWord w = false →
    ∃ t, step s = .next t ∧
      CompletedWith t ⟨if 1 ≤ w.toNat % 256 ∧ w.toNat % 256 ≤ 7 then .reservedBits else .unknownOpcode, 0#32, w⟩ ∧
      t.err = 5#4 ∧ (PendingIsLastCmd s → t.lastCmd = w.extractLsb' 0 8) ∧
      TablesKept s t ∧ t.mem = s.mem ∧ ControlKept s t ∧
      (PendingIsLastCmd s → w = 0x000000FF#32 → s.treeValid = false → s.busyWr = false → t.status = 0x00FF1502#32)

/-! ### The command interface -/

/-- R150: what a write to CMD does while the block is idle, for an illegal word and for a command whose operands break no
hazard rule. That a start which breaks one faults at the write, as CommandsFaultExactlyOnHazards says, is the model's choice
(notes/assumptions/14); which starts break one rests on where it places the register window (notes/assumptions/25, DESIGN
CHOICE) and on which ranges R331 and R332 bind (notes/assumptions/26, DEDUCED). -/
def Obligations.CommandStart : Prop :=
  ∀ (s : State) (w : Word), s.busy = false → (∀ i, decode w = .ok i → HazardFree i s) →
    ∃ t, hostStep (.regWrite 0x010#14 4 w) s = .next t ∧
      t.busy = true ∧ t.done = false ∧ t.irq = false ∧ t.err = 0#4 ∧ t.errSub = 0#4 ∧ t.lastCmd = w.extractLsb' 0 8 ∧
      t.outLen = 0#32 ∧ t.bits = 0#64 ∧ t.errAddr = 0#32 ∧ t.errData = 0#32 ∧ t.pend = some w ∧
      t.ie = s.ie ∧ t.busyWr = s.busyWr ∧ TablesKept s t ∧ t.mem = s.mem ∧
      t.srcAddr = s.srcAddr ∧ t.srcLen = s.srcLen ∧ t.dstAddr = s.dstAddr ∧ t.dstCap = s.dstCap ∧
      t.platform = s.platform ∧ t.inputs = s.inputs ∧ t.hostData = s.hostData

/-- R151: a write while busy to CMD, an operand register or a counter is lost and sets BUSY_WR; it changes nothing
else. A write to a read-only or reserved offset is ignored, busy or not. CTRL, its reset bit included, and STATUS act as
usual. -/
def Obligations.WriteWhileBusy : Prop :=
  (∀ (s : State) (r : Reg) (v : Word), s.busy = true →
    (r ∈ [.cmd, .srcAddr, .srcLen, .dstAddr, .dstCap] ∨ ∃ x, r = .freq x) →
    hostStep (wr r v) s = .next { s with busyWr := true }) ∧
  (∀ (s : State) (off : BitVec 14) (r : Reg) (v : Word), regOfAccess off 4 = some r →
    (r ∈ [.id, .version, .outLen, .errAddr, .errData, .treeRoot, .nsym, .bitsLo, .bitsHi, .reserved] ∨
      (∃ x, r = .codeLen x) ∨ (∃ x k, r = .codeBits x k) ∨ (∃ j, r = .nodeChild j) ∨ ∃ j, r = .nodeWeight j) →
    hostStep (.regWrite off 4 v) s = .next s) ∧
  (∀ (s : State) (v : Word), v.getLsbD 1 = false →
    hostStep (wr .ctrl v) s = .next { s with ie := v.getLsbD 0 }) ∧
  (∀ (s : State) (v : Word), v.getLsbD 1 = true → hostStep (wr .ctrl v) s = hostStep .hardReset s) ∧
  ∀ (s : State) (v : Word), hostStep (wr .status v) s =
    .next { s with done := s.done && !v.getLsbD 1, busyWr := s.busyWr && !v.getLsbD 2 }

/-- R39 to R42, R156: an operand register takes a value written while idle, all 32 bits, and nothing else changes. -/
def Obligations.OperandRegistersHoldWhatIsWritten : Prop :=
  ∀ (s : State) (r : Reg) (v : Word), s.busy = false → r ∈ [.srcAddr, .srcLen, .dstAddr, .dstCap] →
    ∃ t, hostStep (wr r v) s = .next t ∧ idleValue t r = v ∧
      (∀ r', r' ≠ r → idleValue t r' = idleValue s r') ∧ t.pend = none ∧ t.mem = s.mem ∧ t.platform = s.platform

/-- R174: a host write of a counter. -/
def Obligations.HostWritesCounter : Prop :=
  ∀ (s : State) (x : Byte) (v : Word),
    (offsetOf (.freq x)).toNat = 0x400 + 4 * x.toNat ∧
    (s.busy = false →
      ∃ t, hostStep (wr (.freq x) v) s = .next t ∧ entry t.freq x = v ∧ (∀ y, y ≠ x → entry t.freq y = entry s.freq y) ∧
        t.treeValid = false ∧ (∀ y, idleValue t (.codeLen y) = 0#32) ∧
        t.done = s.done ∧ t.err = s.err ∧ t.errSub = s.errSub ∧ t.mem = s.mem ∧ ControlKept s t) ∧
    (s.busy = true → hostStep (wr (.freq x) v) s = .next { s with busyWr := true })

/-- R157: a read, at any offset and width that is answered, changes nothing of the block or of memory; the bus has the
value, and a busy read of a table takes one draw of the model. Every aligned 32-bit read is answered. ID, VERSION, CMD and
the reserved offsets read their constants in every state (R33, R34, R38, R49); the other registers at 0x014 to 0x02C, BITS
and the counters read, while idle, what the block holds (R39 to R45, R48, R50; CTRL and STATUS are in
StatusAndControlFormats, the tree and the codes in ArenaReadBack and CodeWordsAreLeftJustified). That the value stands in
the field hostData, beside a count of draws, and that alignment is of the offset, are the model's choices
(notes/assumptions/7, 12, 24). -/
def Obligations.ReadsChangeNothing : Prop :=
  (∀ (s t : State) (off : BitVec 14) (bytes : Nat), hostStep (.regRead off bytes) s = .next t →
    { t with hostData := s.hostData, draws := s.draws } = s ∧ (s.busy = false → t.draws = s.draws) ∧
      ∃ r, regOfAccess off bytes = some r ∧ (s.busy = false → t.hostData = idleValue s r)) ∧
  (∀ (s : State) (off : BitVec 14), off.toNat % 4 = 0 → ∃ t, hostStep (.regRead off 4) s = .next t) ∧
  (∀ s : State,
    hostStep (.regRead 0x000#14 4) s = .next { s with hostData := 0x48554646#32 } ∧
    hostStep (.regRead 0x004#14 4) s = .next { s with hostData := 0x00000007#32 } ∧
    hostStep (.regRead 0x010#14 4) s = .next { s with hostData := 0#32 }) ∧
  (∀ (s : State) (off : BitVec 14), off.toNat % 4 = 0 →
    ((0x040 ≤ off.toNat ∧ off.toNat ≤ 0x3FC) ∨ (0xC00 ≤ off.toNat ∧ off.toNat ≤ 0xFFC) ∨ off.toNat = 0x33FC ∨
      0x37FC ≤ off.toNat) → hostStep (.regRead off 4) s = .next { s with hostData := 0#32 }) ∧
  (∀ s : State, s.busy = false →
    hostStep (.regRead 0x014#14 4) s = .next { s with hostData := s.srcAddr } ∧
    hostStep (.regRead 0x018#14 4) s = .next { s with hostData := s.srcLen } ∧
    hostStep (.regRead 0x01C#14 4) s = .next { s with hostData := s.dstAddr } ∧
    hostStep (.regRead 0x020#14 4) s = .next { s with hostData := s.dstCap } ∧
    hostStep (.regRead 0x024#14 4) s = .next { s with hostData := s.outLen } ∧
    hostStep (.regRead 0x028#14 4) s = .next { s with hostData := s.errAddr } ∧
    hostStep (.regRead 0x02C#14 4) s = .next { s with hostData := s.errData } ∧
    ∃ lo hi : Word, hostStep (.regRead 0x038#14 4) s = .next { s with hostData := lo } ∧
      hostStep (.regRead 0x03C#14 4) s = .next { s with hostData := hi } ∧
      s.bits.toNat = lo.toNat + 2 ^ 32 * hi.toNat) ∧
  ∀ (s : State) (x : Byte) (off : BitVec 14), s.busy = false → off.toNat = 0x400 + 4 * x.toNat →
    hostStep (.regRead off 4) s = .next { s with hostData := entry s.freq x }

/-- R115, R35, R36: CTRL and STATUS bit by bit, with the example of R115. -/
def Obligations.StatusAndControlFormats : Prop :=
  (∀ s : State, (idleValue s .ctrl).toNat = s.ie.toNat) ∧
  (∀ s : State, (idleValue s .status).toNat =
    s.busy.toNat + 2 * s.done.toNat + 4 * s.busyWr.toNat + 8 * s.treeValid.toNat + 256 * s.err.toNat +
      4096 * s.errSub.toNat + 65536 * s.lastCmd.toNat) ∧
  ∀ s : State, s.busy = false → s.done = true → s.busyWr = false → s.treeValid = true → s.err = 0#4 → s.errSub = 0#4 →
    s.lastCmd = opcOf .compress → s.status = 0x0006000A#32

/-- R57, R36, R43 to R48: what reads return while a command runs. -/
def Obligations.BusyReads : Prop :=
  ∀ (s : State) (r : Reg), Inv s → s.busy = true →
    ∃ t, hostStep (rd r) s = .next t ∧
      (r ∈ [.outLen, .errAddr, .errData, .bitsLo, .bitsHi, .cmd, .reserved] → t.hostData = 0#32) ∧
      (r ∈ [.id, .version, .ctrl, .srcAddr, .srcLen, .dstAddr, .dstCap] → t.hostData = idleValue s r) ∧
      (r = .status → t.hostData.toNat % 8 = 1 + 4 * s.busyWr.toNat ∧ t.hostData.toNat / 16 % 4096 = 0 ∧
        t.hostData.toNat / 65536 = s.lastCmd.toNat) ∧
      (r ∈ [.treeRoot, .nsym] ∨ (∃ x, r = .freq x) ∨ (∃ x, r = .codeLen x) ∨ (∃ x k, r = .codeBits x k) ∨
          (∃ j, r = .nodeChild j) ∨ (∃ j, r = .nodeWeight j) →
        t.hostData = Config.freeWord s.draws ∧ t.draws = s.draws + 1)

/-- R52, R118, R51: the words of a code, bit by bit, and its length. -/
def Obligations.CodeWordsAreLeftJustified : Prop :=
  (∀ (s : State) (x : Byte) (w : BitVec 3) (t : Nat), t < 32 →
    (offsetOf (.codeBits x w)).toNat = 0x1000 + 0x20 * x.toNat + 4 * w.toNat ∧
    (idleValue s (.codeBits x w)).getLsbD (31 - t) =
      (decide (32 * w.toNat + t < (s.code x).length) && (s.code x).getD (32 * w.toNat + t) false)) ∧
  ∀ (s : State) (x : Byte), (s.code x).length ≤ 255 → (idleValue s (.codeLen x)).toNat = (s.code x).length

/-- R53 to R56, R46, R47: without a tree every table read-back is 0; with one, a used arena entry reads its children and
its weight in the formats of R117 and R56, and an unused entry reads 0. -/
def Obligations.ArenaReadBack : Prop :=
  (∀ j : Fin 255, (offsetOf (.nodeChild j)).toNat = 0x3000 + 4 * j.val ∧
    (offsetOf (.nodeWeight j)).toNat = 0x3400 + 4 * j.val) ∧
  (∀ (s : State) (r : Reg), s.tree = none →
    (r ∈ [.treeRoot, .nsym] ∨ (∃ x, r = .codeLen x) ∨ (∃ x k, r = .codeBits x k) ∨ (∃ j, r = .nodeChild j) ∨
      (∃ j, r = .nodeWeight j)) → idleValue s r = 0#32) ∧
  (∀ (s : State) (t : Tree) (j : Fin 255), s.tree = some t → j.val + 1 < t.nsym.toNat →
    (idleValue s (.nodeChild j)).toNat = t.arena[j].left.toNat + 65536 * t.arena[j].right.toNat ∧
      idleValue s (.nodeWeight j) = t.arena[j].weight) ∧
  (∀ (s : State) (t : Tree) (j : Fin 255), s.tree = some t → t.nsym.toNat ≤ j.val + 1 →
    idleValue s (.nodeChild j) = 0#32 ∧ idleValue s (.nodeWeight j) = 0#32) ∧
  ∀ (s : State) (t : Tree), s.tree = some t →
    (idleValue s .treeRoot).toNat = t.root.toNat ∧ (idleValue s .nsym).toNat = t.nsym.toNat

/-- R297: IRQ is the level CTRL.IE AND STATUS.DONE; setting IE while DONE = 1 raises it at once, and clearing IE masks it
without clearing DONE. -/
def Obligations.InterruptIsLevel : Prop :=
  (∀ s : State, s.irq = true ↔ s.ie = true ∧ s.done = true) ∧
  (∀ s : State, s.done = true → ∃ t, hostStep (wr .ctrl 0x00000001#32) s = .next t ∧ t.irq = true ∧ t.done = true) ∧
  ∀ s : State, ∃ t, hostStep (wr .ctrl 0x00000000#32) s = .next t ∧ t.irq = false ∧ t.done = s.done

/-! ### Frequency counter -/

/-- R171: FREQ_CLEAR completes in every state. That R331 and R332
bind no range the command does not use is the model's reading (notes/assumptions/26, DEDUCED). -/
def Obligations.FreqClearZeroes : Prop :=
  ∀ s : State, ∃ t, exec .freqClear s = .next t ∧ (∀ x, entry t.freq x = 0#32) ∧ t.treeValid = false ∧
    CompletedOk t 0#32 0#64 ∧ t.mem = s.mem ∧ ControlKept s t ∧
    (s.lastCmd = opcOf .freqClear → s.busyWr = false → t.status = 0x00010002#32)

/-- R172: FREQ_COUNT completes with the exact counts, or with the first of its errors and the tables kept. That R331 and R332
bind no range the command does not use is the model's reading (notes/assumptions/26, DEDUCED). -/
def Obligations.FreqCountCounts : Prop :=
  ∀ s : State, HazardFree .freqCount s →
    ∃ t, exec .freqCount s = .next t ∧ t.mem = s.mem ∧ ControlKept s t ∧
      (SourceFits s → SourceReadable s s.srcLen.toNat →
        CompletedOk t 0#32 0#64 ∧ t.treeValid = false ∧
          ∀ x, (entry t.freq x).toNat = (sourceBytes s).count x) ∧
      (¬ SourceFits s → CompletedWith t ⟨.srcWrap, s.srcAddr, s.srcLen⟩ ∧ TablesKept s t) ∧
      ∀ k, SourceFits s → k < s.srcLen.toNat → SourceReadable s k →
        memROk s.platform (s.srcAddr + BitVec.ofNat 32 k) = false →
        CompletedWith t ⟨.ioRead, s.srcAddr + BitVec.ofNat 32 k, 0#32⟩ ∧ TablesKept s t

/-- R173: FREQ_ACCUM adds the counts where no counter overflows; otherwise it reports the first of its errors, naming
the least overflowing symbol, and keeps the tables. That R331 and R332
bind no range the command does not use is the model's reading (notes/assumptions/26, DEDUCED). -/
def Obligations.FreqAccumAdds : Prop :=
  ∀ s : State, HazardFree .freqAccum s →
    ∃ t, exec .freqAccum s = .next t ∧ t.mem = s.mem ∧ ControlKept s t ∧
      (SourceFits s → SourceReadable s s.srcLen.toNat →
        (∀ x, (entry s.freq x).toNat + (sourceBytes s).count x ≤ 2 ^ 32 - 1) →
        CompletedOk t 0#32 0#64 ∧ t.treeValid = false ∧
          ∀ x, (entry t.freq x).toNat = (entry s.freq x).toNat + (sourceBytes s).count x) ∧
      (∀ x, SourceFits s → SourceReadable s s.srcLen.toNat →
        (entry s.freq x).toNat + (sourceBytes s).count x > 2 ^ 32 - 1 →
        (∀ y, y.toNat < x.toNat → (entry s.freq y).toNat + (sourceBytes s).count y ≤ 2 ^ 32 - 1) →
        CompletedWith t ⟨.countOverflow, 0#32, 0#24 ++ x⟩ ∧ TablesKept s t) ∧
      (¬ SourceFits s → CompletedWith t ⟨.srcWrap, s.srcAddr, s.srcLen⟩ ∧ TablesKept s t) ∧
      ∀ k, SourceFits s → k < s.srcLen.toNat → SourceReadable s k →
        memROk s.platform (s.srcAddr + BitVec.ofNat 32 k) = false →
        CompletedWith t ⟨.ioRead, s.srcAddr + BitVec.ofNat 32 k, 0#32⟩ ∧ TablesKept s t

/-- R175: a counted table sums to the number of bytes scanned, a cleared one to 0, and each successful FREQ_ACCUM adds
its byte count to the sum. -/
def Obligations.CountersSumToBytesScanned : Prop :=
  (∀ s t : State, exec .freqCount s = .next t → t.err = 0#4 → freqSum t.freq = s.srcLen.toNat) ∧
  (∀ s t : State, exec .freqClear s = .next t → freqSum t.freq = 0) ∧
  ∀ s t : State, exec .freqAccum s = .next t → t.err = 0#4 → freqSum t.freq = freqSum s.freq + s.srcLen.toNat

/-- R176: a count split at any point and merged, and the recursive count whatever its chunk threshold and depth, are the
sequential count, the failing address included; the merge is commutative and associative. The parallel forms mergeCounts
and parallelCount are the model's own (notes/assumptions/20). -/
def Obligations.ParallelCountIsSequential : Prop :=
  (∀ (s : State) (a : Word) (i j : Nat),
    mergeCounts (countRange s a i) (countRange s (a + BitVec.ofNat 32 i) j) = countRange s a (i + j)) ∧
  (∀ (s : State) (threshold fuel : Nat) (a : Word) (n : Nat),
    parallelCount s threshold fuel a n = countRange s a n) ∧
  (∀ f g : Table Word, addTables f g = addTables g f) ∧
  ∀ f g h : Table Word, addTables (addTables f g) h = addTables f (addTables g h)

/-! ### Tree builder -/

/-- R190: BUILD completes in every state, with the tree of BuildTree, or with the record of a sum past 2^32 - 1 or of an
empty table and no tree; FREQ and memory are kept. That R331 and R332
bind no range the command does not use is the model's reading (notes/assumptions/26, DEDUCED). -/
def Obligations.BuildCompletes : Prop :=
  ∀ s : State, ∃ t, exec .build s = .next t ∧ t.freq = s.freq ∧ t.mem = s.mem ∧ ControlKept s t ∧
    (freqSum s.freq > 2 ^ 32 - 1 → CompletedWith t ⟨.weightOverflow, 0#32, 0#32⟩ ∧ t.treeValid = false) ∧
    ((∀ x, entry s.freq x = 0#32) → CompletedWith t ⟨.emptyInput, 0#32, 0#32⟩ ∧ t.treeValid = false) ∧
    (freqSum s.freq ≤ 2 ^ 32 - 1 → (∃ x, entry s.freq x ≠ 0#32) →
      CompletedOk t 0#32 0#64 ∧ t.treeValid = true ∧ (∃ T, buildTree s.freq = .ok T ∧ t.tree = some T) ∧
        (s.treeValid = true → TreeMatchesFreq s → t.tree = s.tree))

/-- R192, R193, R194, R201: the merge loop takes, at each of its k - 1 steps, the two nodes of least key, the lesser as
the left child, and puts their sum back under the next internal id; one node is left, of weight the sum of FREQ. No
sum passes the sum of FREQ. -/
def Obligations.MergeStepsTakeLeastNodes : Prop :=
  ∀ (f : Table Word) (T : Tree), buildTree f = .ok T → 2 ≤ (present f).length →
    ∃ Q : Nat → List QueueNode,
      (Q 0).Perm (leafNodes f) ∧
      Q ((present f).length - 1) = [⟨freqSum f, BitVec.ofNat 9 (256 + (present f).length - 2)⟩] ∧
      ∀ (j : Fin 255), j.val < (present f).length - 1 →
        ∃ a b rest, (Q j.val).Perm (a :: b :: rest) ∧
          keyBefore a b = true ∧ (∀ c ∈ rest, keyBefore b c = true) ∧
          a.weight + b.weight ≤ freqSum f ∧
          T.arena[j] = ⟨a.id, b.id, BitVec.ofNat 32 (a.weight + b.weight)⟩ ∧
          (Q (j.val + 1)).Perm (⟨a.weight + b.weight, BitVec.ofNat 9 (256 + j.val)⟩ :: rest)

/-- R195, R46, R47: NSYM and TREE_ROOT of a built tree, and the weight of an internal root. -/
def Obligations.RootOfBuiltTree : Prop :=
  ∀ (s : State) (T : Tree), buildTree s.freq = .ok T → s.tree = some T →
    (idleValue s .nsym).toNat = (present s.freq).length ∧
    (∀ x, present s.freq = [x] → (idleValue s .treeRoot).toNat = x.toNat) ∧
    (2 ≤ (present s.freq).length →
      (idleValue s .treeRoot).toNat = 256 + (present s.freq).length - 2 ∧
        (childNode T.arena T.root).weight.toNat = freqSum s.freq)

/-- R196: the tree of an alphabet of one symbol. That R331 and R332
bind no range the command does not use is the model's reading (notes/assumptions/26, DEDUCED). -/
def Obligations.SingleSymbolTree : Prop :=
  ∀ (s : State) (x : Byte), entry s.freq x ≠ 0#32 → (∀ y, y ≠ x → entry s.freq y = 0#32) →
    ∃ t, exec .build s = .next t ∧ t.code x = [false] ∧ (∀ y, y ≠ x → t.code y = []) ∧
      (idleValue t .treeRoot).toNat = x.toNat ∧ idleValue t .nsym = 1#32 ∧
      ∀ j, idleValue t (.nodeChild j) = 0#32 ∧ idleValue t (.nodeWeight j) = 0#32

/-- R197: the code of a present symbol is the branch bits from the root to its leaf, through internal nodes only; an
absent symbol has no code. -/
def Obligations.CodesArePathsFromRoot : Prop :=
  ∀ (f : Table Word) (T : Tree), buildTree f = .ok T → 2 ≤ (present f).length → ∀ x : Byte,
    (entry f x ≠ 0#32 →
      descend T.arena T.root (entry T.code x) = 0#1 ++ x ∧
        ∀ i, i < (entry T.code x).length → 256 ≤ (descend T.arena T.root ((entry T.code x).take i)).toNat) ∧
    (entry f x = 0#32 → entry T.code x = [])

/-- R199: no code of a built table begins another, and every present code has a bit. -/
def Obligations.NoCodeBeginsAnother : Prop :=
  ∀ (f : Table Word) (T : Tree), buildTree f = .ok T →
    (∀ x, entry f x ≠ 0#32 → 1 ≤ (entry T.code x).length) ∧
    ∀ x y, x ≠ y → entry f x ≠ 0#32 → entry f y ≠ 0#32 → ¬ (entry T.code x).IsPrefix (entry T.code y)

/-- R200: code lengths of a built table. -/
def Obligations.CodeLengthBound : Prop :=
  ∀ (f : Table Word) (T : Tree), buildTree f = .ok T → ∀ x, entry f x ≠ 0#32 →
    (2 ≤ (present f).length →
      1 ≤ (entry T.code x).length ∧ (entry T.code x).length ≤ (present f).length - 1 ∧ (present f).length - 1 ≤ 255) ∧
    ((present f).length = 1 → (entry T.code x).length = 1)

/-- R202: the Kraft sum of a built table, scaled by 2^256, and completeness of the code of two or more symbols. -/
def Obligations.KraftSum : Prop :=
  ∀ (f : Table Word) (T : Tree), buildTree f = .ok T →
    (2 ≤ (present f).length →
      ((present f).map fun x => 2 ^ (256 - (entry T.code x).length)).sum = 2 ^ 256 ∧
        ∀ bits : Code, 255 ≤ bits.length →
          ∃ n, n ≤ bits.length ∧ (descend T.arena T.root (bits.take n)).toNat < 256) ∧
    ((present f).length = 1 → ((present f).map fun x => 2 ^ (256 - (entry T.code x).length)).sum = 2 ^ 255)

/-! ### Encoder -/

/-- R220, R221, R226, R88: when ENCODE completes normally, what it writes, what it reports and what it leaves alone. -/
def Obligations.EncodeWritesContainer : Prop :=
  ∀ s : State, HazardFree .encode s → SourceFits s → WindowFits s → SourceReadable s s.srcLen.toNat →
    (∀ x ∈ sourceBytes s, s.code x ≠ []) → 1028 + ceil8 (encodedBits s).length ≤ s.dstCap.toNat →
    WindowWritable s (1028 + ceil8 (encodedBits s).length) →
    ∃ t, exec .encode s = .next t ∧
      CompletedOk t (BitVec.ofNat 32 (1028 + ceil8 (encodedBits s).length)) (BitVec.ofNat 64 (encodedBits s).length) ∧
      (encodedBits s).length < 2 ^ 35 ∧
      bytesAt t.mem s.dstAddr (1028 + ceil8 (encodedBits s).length) = encodedBytes s ∧
      MemoryKeptPast s t (1028 + ceil8 (encodedBits s).length) ∧ TablesKept s t ∧ ControlKept s t

/-- R125, R126, R131, R128: the container byte by byte: big-endian words at their offsets, then the bits most
significant first, zeros past the last. -/
def Obligations.ContainerLayout : Prop :=
  ∀ (n : Word) (f : Table Word) (code : Byte → Code) (src : List Byte),
    (container n f code src).length = 1028 + ceil8 (sourceBits code src).length ∧
    headerWord (container n f code src) 0 = n ∧
    (∀ x : Byte, headerWord (container n f code src) (4 + 4 * x.toNat) = entry f x) ∧
    (∀ i, i < (sourceBits code src).length →
      ((container n f code src).getD (1028 + i / 8) 0#8).getLsbD (7 - i % 8) = (sourceBits code src).getD i false) ∧
    ∀ i, (sourceBits code src).length ≤ i → i < 8 * ceil8 (sourceBits code src).length →
      ((container n f code src).getD (1028 + i / 8) 0#8).getLsbD (7 - i % 8) = false

/-- R221, R223, R290: the errors of ENCODE that its corner cases name, each with its record; the tables are kept and
nothing outside the window changes. -/
def Obligations.EncodeErrors : Prop :=
  ∀ s : State, HazardFree .encode s →
    ∃ t, exec .encode s = .next t ∧ TablesKept s t ∧ ControlKept s t ∧ MemoryKeptOutsideWindow s t ∧
      (¬ SourceFits s → CompletedWith t ⟨.srcWrap, s.srcAddr, s.srcLen⟩) ∧
      (SourceFits s → ¬ WindowFits s → CompletedWith t ⟨.dstWrap, s.dstAddr, s.dstCap⟩) ∧
      (SourceFits s → WindowFits s → s.dstCap.toNat < 1028 → WindowWritable s s.dstCap.toNat →
        CompletedWith t ⟨.ioSinkFull, s.dstAddr + s.dstCap, 0#32⟩) ∧
      (∀ k, SourceFits s → WindowFits s → k < 1028 → k < s.dstCap.toNat → WindowWritable s k →
        memWOk s.platform (s.dstAddr + BitVec.ofNat 32 k) = false →
        CompletedWith t ⟨.ioWrite, s.dstAddr + BitVec.ofNat 32 k, 0#32⟩) ∧
      (SourceFits s → WindowFits s → 1028 ≤ s.dstCap.toNat → WindowWritable s 1028 → 0 < s.srcLen.toNat →
        memROk s.platform s.srcAddr = true → s.treeValid = false →
        CompletedWith t ⟨.unknownSymbol, s.srcAddr, 0#24 ++ readMem s.mem s.srcAddr⟩)

/-- R220, R223, R224, R225, R289, R290: the first error of ENCODE in the order of its accesses, anywhere in header and
payload. Where the source bytes before offset `j` read and have codes: a byte `j` that does not read, or has no code, is
reported once what is written for the bytes before it fits and is writable; and of the bytes written until then the first
past the capacity, or the first that is not writable. -/
def Obligations.EncodeReportsFirstError : Prop :=
  ∀ (s : State) (j : Nat), HazardFree .encode s → SourceFits s → WindowFits s → j ≤ s.srcLen.toNat →
    SourceReadable s j → (∀ x ∈ bytesAt s.mem s.srcAddr j, s.code x ≠ []) →
    ∃ t, exec .encode s = .next t ∧
      (j < s.srcLen.toNat → writtenAfter s j ≤ s.dstCap.toNat → WindowWritable s (writtenAfter s j) →
        (memROk s.platform (s.srcAddr + BitVec.ofNat 32 j) = false →
          CompletedWith t ⟨.ioRead, s.srcAddr + BitVec.ofNat 32 j, 0#32⟩) ∧
        (memROk s.platform (s.srcAddr + BitVec.ofNat 32 j) = true →
          s.code (readMem s.mem (s.srcAddr + BitVec.ofNat 32 j)) = [] →
          CompletedWith t ⟨.unknownSymbol, s.srcAddr + BitVec.ofNat 32 j,
            0#24 ++ readMem s.mem (s.srcAddr + BitVec.ofNat 32 j)⟩)) ∧
      (s.dstCap.toNat < writtenAfter s j → WindowWritable s s.dstCap.toNat →
        CompletedWith t ⟨.ioSinkFull, s.dstAddr + s.dstCap, 0#32⟩) ∧
      ∀ k, k < writtenAfter s j → k < s.dstCap.toNat → WindowWritable s k →
        memWOk s.platform (s.dstAddr + BitVec.ofNat 32 k) = false →
        CompletedWith t ⟨.ioWrite, s.dstAddr + BitVec.ofNat 32 k, 0#32⟩

/-- R227, R11: whatever the chunking, the stitched chunks are the sequential payload. -/
def Obligations.ParallelPayloadIsSequential : Prop :=
  ∀ (code : Byte → Code) (chunks : List (List Byte)),
    stitchChunks code 0 [] chunks = packBits (sourceBits code chunks.flatten)

/-- R228: when COMPRESS of a source that is not empty completes normally: the counts, the tree built from them and the
container under that tree. -/
def Obligations.CompressWritesContainer : Prop :=
  ∀ (s : State) (T : Tree), HazardFree .compress s → SourceFits s → WindowFits s → SourceReadable s s.srcLen.toNat →
    0 < s.srcLen.toNat → buildTree (countBytes (sourceBytes s)) = .ok T →
    1028 + ceil8 (sourceBits (entry T.code) (sourceBytes s)).length ≤ s.dstCap.toNat →
    WindowWritable s (1028 + ceil8 (sourceBits (entry T.code) (sourceBytes s)).length) →
    ∃ t, exec .compress s = .next t ∧
      CompletedOk t (BitVec.ofNat 32 (1028 + ceil8 (sourceBits (entry T.code) (sourceBytes s)).length))
        (BitVec.ofNat 64 (sourceBits (entry T.code) (sourceBytes s)).length) ∧
      bytesAt t.mem s.dstAddr (1028 + ceil8 (sourceBits (entry T.code) (sourceBytes s)).length) =
        container s.srcLen (countBytes (sourceBytes s)) (entry T.code) (sourceBytes s) ∧
      MemoryKeptPast s t (1028 + ceil8 (sourceBits (entry T.code) (sourceBytes s)).length) ∧
      t.freq = countBytes (sourceBytes s) ∧ t.tree = some T ∧ ControlKept s t

/-- R229: in COMPRESS the build cannot fail, and a completed COMPRESS never reports EmptyInputError, UnknownSymbolError or
a weight overflow; a read error can only come from the count, which leaves the tables as they were. -/
def Obligations.CompressAlwaysHasCodes : Prop :=
  (∀ s : State, SourceFits s → 0 < s.srcLen.toNat → ∃ T, buildTree (countBytes (sourceBytes s)) = .ok T) ∧
  ∀ s t : State, exec .compress s = .next t →
    t.err ≠ 2#4 ∧ t.err ≠ 3#4 ∧ (t.err, t.errSub) ≠ (6#4, 4#4) ∧
      ((t.err, t.errSub) = (1#4, 1#4) → TablesKept s t ∧ ¬ SourceReadable s s.srcLen.toNat)

/-- R228, R220, R290, R159: the errors of COMPRESS, each with its record and with what it leaves. A range error and the
first source byte that does not read leave the tables as they were. Where the source reads the tables are the ones this
command built, whatever follows, and the only errors are the first container byte past the capacity and the first that is
not writable. Nothing outside the window changes. -/
def Obligations.CompressFailureSurvivors : Prop :=
  ∀ s : State, HazardFree .compress s →
    ∃ t, exec .compress s = .next t ∧ MemoryKeptOutsideWindow s t ∧ ControlKept s t ∧
    (t.err ≠ 0#4 → t.outLen = 0#32 ∧ t.bits = 0#64) ∧
    (¬ SourceFits s → CompletedWith t ⟨.srcWrap, s.srcAddr, s.srcLen⟩ ∧ TablesKept s t) ∧
    (SourceFits s → ¬ WindowFits s → CompletedWith t ⟨.dstWrap, s.dstAddr, s.dstCap⟩ ∧ TablesKept s t) ∧
    (∀ k, SourceFits s → WindowFits s → k < s.srcLen.toNat → SourceReadable s k →
      memROk s.platform (s.srcAddr + BitVec.ofNat 32 k) = false →
      CompletedWith t ⟨.ioRead, s.srcAddr + BitVec.ofNat 32 k, 0#32⟩ ∧ TablesKept s t) ∧
    (SourceFits s → WindowFits s → SourceReadable s s.srcLen.toNat →
      t.freq = countBytes (sourceBytes s) ∧
        (t.err ≠ 0#4 → (t.err, t.errSub) = (1#4, 2#4) ∨ (t.err, t.errSub) = (1#4, 3#4)) ∧
        (s.srcLen = 0#32 → t.tree = none) ∧
        (s.srcLen ≠ 0#32 → ∃ T, buildTree t.freq = .ok T ∧ t.tree = some T) ∧
        ∀ n, CompressedLength s n →
          (s.dstCap.toNat < n → WindowWritable s s.dstCap.toNat →
            CompletedWith t ⟨.ioSinkFull, s.dstAddr + s.dstCap, 0#32⟩) ∧
          ∀ k, k < n → k < s.dstCap.toNat → WindowWritable s k →
            memWOk s.platform (s.dstAddr + BitVec.ofNat 32 k) = false →
            CompletedWith t ⟨.ioWrite, s.dstAddr + BitVec.ofNat 32 k, 0#32⟩)

/-- R230, R228, R221: an empty source gives a container of just the header, under ENCODE with the current counters, under
COMPRESS with all counters 0 and no tree. -/
def Obligations.EmptySourceGivesHeaderOnly : Prop :=
  ∀ s : State, s.srcLen = 0#32 → WindowFits s → 1028 ≤ s.dstCap.toNat → WindowWritable s 1028 →
    (HazardFree .encode s →
      ∃ t, exec .encode s = .next t ∧ CompletedOk t 1028#32 0#64 ∧
        bytesAt t.mem s.dstAddr 1028 = headerBytes 0#32 s.freq ∧ MemoryKeptPast s t 1028 ∧ TablesKept s t) ∧
    (HazardFree .compress s →
      ∃ t, exec .compress s = .next t ∧ CompletedOk t 1028#32 0#64 ∧
        bytesAt t.mem s.dstAddr 1028 = List.replicate 1028 0#8 ∧ MemoryKeptPast s t 1028 ∧
        (∀ x, entry t.freq x = 0#32) ∧ t.treeValid = false)

/-- R232: COMPRESS of n copies of one byte value. -/
def Obligations.CompressOneRepeatedByte : Prop :=
  ∀ (s : State) (v : Byte), HazardFree .compress s → SourceFits s → WindowFits s → SourceReadable s s.srcLen.toNat →
    0 < s.srcLen.toNat → sourceBytes s = List.replicate s.srcLen.toNat v →
    1028 + ceil8 s.srcLen.toNat ≤ s.dstCap.toNat → WindowWritable s (1028 + ceil8 s.srcLen.toNat) →
    ∃ t, exec .compress s = .next t ∧ entry t.freq v = s.srcLen ∧ idleValue t .nsym = 1#32 ∧ t.code v = [false] ∧
      t.bits.toNat = s.srcLen.toNat ∧ t.outLen.toNat = 1028 + ceil8 s.srcLen.toNat ∧
      bytesAt t.mem (s.dstAddr + 1028#32) (ceil8 s.srcLen.toNat) = List.replicate (ceil8 s.srcLen.toNat) 0#8

/-! ### Decoder -/

/-- R250, R256, R257, R258, R261, R262: a container whose header names the table `f` and whose payload bits are the codes
of `data` decodes to `data`, whatever its filler bits. -/
def Obligations.DecodeReadsSymbolsBack : Prop :=
  ∀ (s : State) (f : Table Word) (T : Tree) (data payload : List Byte),
    HazardFree .decode s → SourceFits s → WindowFits s → SourceReadable s s.srcLen.toNat →
    sourceBytes s = headerBytes (BitVec.ofNat 32 data.length) f ++ payload →
    data ≠ [] → data.length ≤ s.dstCap.toNat → WindowWritable s data.length →
    buildTree f = .ok T → (∀ x ∈ data, entry T.code x ≠ []) →
    payload.length = ceil8 (sourceBits (entry T.code) data).length →
    (∀ i, i < (sourceBits (entry T.code) data).length →
      streamBit (payload.getD (i / 8) 0#8) (i % 8) = (sourceBits (entry T.code) data).getD i false) →
    ∃ t, exec .decode s = .next t ∧
      CompletedOk t (BitVec.ofNat 32 data.length) (BitVec.ofNat 64 (sourceBits (entry T.code) data).length) ∧
      bytesAt t.mem s.dstAddr data.length = data ∧ MemoryKeptPast s t data.length ∧
      t.freq = f ∧ t.tree = some T ∧ ControlKept s t

/-- R260: the same container with surplus payload bytes is not valid: the first of them is reported. -/
def Obligations.DecodeRejectsSurplusBytes : Prop :=
  ∀ (s : State) (f : Table Word) (T : Tree) (data payload : List Byte),
    HazardFree .decode s → SourceFits s → WindowFits s → SourceReadable s s.srcLen.toNat →
    sourceBytes s = headerBytes (BitVec.ofNat 32 data.length) f ++ payload →
    data ≠ [] → data.length ≤ s.dstCap.toNat → WindowWritable s data.length →
    buildTree f = .ok T → (∀ x ∈ data, entry T.code x ≠ []) →
    ceil8 (sourceBits (entry T.code) data).length < payload.length →
    (∀ i, i < (sourceBits (entry T.code) data).length →
      streamBit (payload.getD (i / 8) 0#8) (i % 8) = (sourceBits (entry T.code) data).getD i false) →
    ∃ t, exec .decode s = .next t ∧
      CompletedWith t ⟨.trailingBytes,
        s.srcAddr + BitVec.ofNat 32 (1028 + ceil8 (sourceBits (entry T.code) data).length),
        BitVec.ofNat 32 data.length⟩ ∧
      t.freq = f ∧ t.tree = some T ∧ MemoryKeptOutsideWindow s t ∧ ControlKept s t

/-- R250, R251, R252, R290: range errors, a truncated header and a header byte that does not read; the tables and the
memory outside the window are kept. -/
def Obligations.DecodeStopsBeforeHeaderIsRead : Prop :=
  ∀ s : State, HazardFree .decode s →
    ∃ t, exec .decode s = .next t ∧ ControlKept s t ∧ MemoryKeptOutsideWindow s t ∧
      (¬ SourceFits s → CompletedWith t ⟨.srcWrap, s.srcAddr, s.srcLen⟩ ∧ TablesKept s t) ∧
      (SourceFits s → ¬ WindowFits s → CompletedWith t ⟨.dstWrap, s.dstAddr, s.dstCap⟩ ∧ TablesKept s t) ∧
      (SourceFits s → WindowFits s → s.srcLen.toNat < 1028 →
        CompletedWith t ⟨.headerTruncated, s.srcAddr, s.srcLen⟩ ∧ TablesKept s t) ∧
      ∀ k, SourceFits s → WindowFits s → 1028 ≤ s.srcLen.toNat → k < 1028 → SourceReadable s k →
        memROk s.platform (s.srcAddr + BitVec.ofNat 32 k) = false →
        CompletedWith t ⟨.ioRead, s.srcAddr + BitVec.ofNat 32 k, 0#32⟩ ∧ TablesKept s t

/-- R252, R253, R254, R255: once the header is read FREQ is its table, whatever follows; the empty container, the checks
of the descriptor and the capacity check. -/
def Obligations.DecodeChecksDescriptor : Prop :=
  ∀ (s : State) (f : Table Word) (n : Word) (payload : List Byte),
    HazardFree .decode s → SourceFits s → WindowFits s → SourceReadable s 1028 →
    sourceBytes s = headerBytes n f ++ payload →
    ∃ t, exec .decode s = .next t ∧ ControlKept s t ∧ MemoryKeptOutsideWindow s t ∧ t.freq = f ∧
      (n = 0#32 → payload = [] → CompletedOk t 0#32 0#64 ∧ t.treeValid = false ∧ t.mem = s.mem) ∧
      (n = 0#32 → payload ≠ [] → CompletedWith t ⟨.trailingBytes, s.srcAddr + 1028#32, 0#32⟩ ∧ t.treeValid = false) ∧
      (n ≠ 0#32 → freqSum f > 2 ^ 32 - 1 →
        CompletedWith t ⟨.corruptWeightOverflow, s.srcAddr, 0#32⟩ ∧ t.treeValid = false) ∧
      (n ≠ 0#32 → (∀ x, entry f x = 0#32) → CompletedWith t ⟨.emptyTable, s.srcAddr, 0#32⟩ ∧ t.treeValid = false) ∧
      ∀ T, n ≠ 0#32 → buildTree f = .ok T →
        t.tree = some T ∧
          (s.dstCap.toNat < n.toNat → CompletedWith t ⟨.ioSinkFull, s.dstAddr + s.dstCap, 0#32⟩)

/-- R258: under a single-symbol tree a 1 bit is reported as an invalid descent, with the address of its byte and the
number of symbols decoded before it. -/
def Obligations.DecodeSingleSymbolRejectsOneBit : Prop :=
  ∀ (s : State) (f : Table Word) (x : Byte) (n : Word) (payload : List Byte) (m : Nat),
    HazardFree .decode s → SourceFits s → WindowFits s → SourceReadable s s.srcLen.toNat →
    sourceBytes s = headerBytes n f ++ payload → present f = [x] → n.toNat ≤ s.dstCap.toNat →
    WindowWritable s m → m < n.toNat → m < 8 * payload.length →
    (∀ i, i < m → streamBit (payload.getD (i / 8) 0#8) (i % 8) = false) →
    streamBit (payload.getD (m / 8) 0#8) (m % 8) = true →
    ∃ t, exec .decode s = .next t ∧
      CompletedWith t ⟨.invalidDescent, s.srcAddr + BitVec.ofNat 32 (1028 + m / 8), BitVec.ofNat 32 m⟩ ∧
      t.freq = f ∧ t.code x = [false] ∧ MemoryKeptOutsideWindow s t ∧ ControlKept s t

/-- R250, R257, R258, R259, R290: the errors of the walk after the codes of `data`, fewer than symbol_count, each with its
record. Where the next symbol is `x`: the byte written for `x` is not writable; payload byte `q`, whose first bit is one of
the code of `x`, does not read; the payload ends before or inside the code of `x`. In all three FREQ and the tree are the
header's, and nothing outside the window changes. -/
def Obligations.DecodeWalkErrors : Prop :=
  ∀ (s : State) (f : Table Word) (T : Tree) (n : Word) (payload data : List Byte) (x : Byte),
    HazardFree .decode s → SourceFits s → WindowFits s → SourceReadable s 1028 →
    sourceBytes s = headerBytes n f ++ payload → buildTree f = .ok T → n.toNat ≤ s.dstCap.toNat →
    data.length < n.toNat → (∀ y ∈ data ++ [x], entry T.code y ≠ []) → WindowWritable s data.length →
    ∃ t, exec .decode s = .next t ∧ t.freq = f ∧ t.tree = some T ∧ ControlKept s t ∧ MemoryKeptOutsideWindow s t ∧
      ((sourceBits (entry T.code) (data ++ [x])).length ≤ 8 * payload.length →
        SourceReadable s (1028 + ceil8 (sourceBits (entry T.code) (data ++ [x])).length) →
        PayloadBegins payload (sourceBits (entry T.code) (data ++ [x])) (sourceBits (entry T.code) (data ++ [x])).length →
        memWOk s.platform (s.dstAddr + BitVec.ofNat 32 data.length) = false →
        CompletedWith t ⟨.ioWrite, s.dstAddr + BitVec.ofNat 32 data.length, 0#32⟩) ∧
      (∀ q, q < payload.length → (sourceBits (entry T.code) data).length ≤ 8 * q →
        8 * q < (sourceBits (entry T.code) (data ++ [x])).length → SourceReadable s (1028 + q) →
        PayloadBegins payload (sourceBits (entry T.code) (data ++ [x])) (8 * q) →
        memROk s.platform (s.srcAddr + BitVec.ofNat 32 (1028 + q)) = false →
        CompletedWith t ⟨.ioRead, s.srcAddr + BitVec.ofNat 32 (1028 + q), 0#32⟩) ∧
      ((sourceBits (entry T.code) data).length ≤ 8 * payload.length →
        8 * payload.length < (sourceBits (entry T.code) (data ++ [x])).length → SourceReadable s s.srcLen.toNat →
        PayloadBegins payload (sourceBits (entry T.code) (data ++ [x])) (8 * payload.length) →
        CompletedWith t ⟨.payloadExhausted, s.srcAddr + s.srcLen, BitVec.ofNat 32 data.length⟩)

/-- R265: a container of a source that is not empty, cut by its last byte, fails with PAYLOAD_EXHAUSTED, and a container
of just the header, cut likewise, with HEADER_TRUNCATED. -/
def Obligations.TruncationIsDetected : Prop :=
  (∀ (s : State) (f : Table Word) (T : Tree) (data : List Byte),
    HazardFree .decode s → SourceFits s → WindowFits s → SourceReadable s s.srcLen.toNat →
    data ≠ [] → data.length < 2 ^ 32 → data.length ≤ s.dstCap.toNat → WindowWritable s data.length →
    buildTree f = .ok T → (∀ x ∈ data, entry T.code x ≠ []) →
    sourceBytes s = (container (BitVec.ofNat 32 data.length) f (entry T.code) data).dropLast →
    ∃ t, exec .decode s = .next t ∧ t.err = 4#4 ∧ t.errSub = 4#4 ∧ t.errAddr = s.srcAddr + s.srcLen ∧
      t.outLen = 0#32 ∧ t.errData.toNat < data.length) ∧
  ∀ (s : State) (f : Table Word) (code : Byte → Code),
    HazardFree .decode s → SourceFits s → WindowFits s → sourceBytes s = (container 0#32 f code []).dropLast →
    ∃ t, exec .decode s = .next t ∧ CompletedWith t ⟨.headerTruncated, s.srcAddr, s.srcLen⟩

/-- R264: DECODE of the bytes a successful COMPRESS, or a successful ENCODE under a built tree, wrote gives the source
back, in any state that holds those bytes and in any writable window with room. -/
def Obligations.RoundTrip : Prop :=
  ∀ (i : Instr) (s t u : State), (i = .compress ∨ i = .encode) → TreeMatchesFreq s →
    exec i s = .next t → t.err = 0#4 →
    u.srcLen = t.outLen → sourceBytes u = bytesAt t.mem s.dstAddr t.outLen.toNat →
    HazardFree .decode u → SourceFits u → WindowFits u → SourceReadable u u.srcLen.toNat →
    s.srcLen.toNat ≤ u.dstCap.toNat → WindowWritable u s.srcLen.toNat →
    ∃ v, exec .decode u = .next v ∧ v.err = 0#4 ∧ v.outLen = s.srcLen ∧ v.bits = t.bits ∧
      bytesAt v.mem u.dstAddr s.srcLen.toNat = sourceBytes s

/-! ### Errors and whole-machine rules -/

/-- R288, R119, R120: the errors each command can raise besides IllegalCommand. -/
def Obligations.ErrorsEachCommandCanRaise : Prop :=
  ∀ (i : Instr) (s t : State), exec i s = .next t → (t.err, t.errSub) = (0#4, 0#4) ∨ (t.err, t.errSub) ∈ errorsOf i

/-- R152, R280, R285, R58: a command ends in completion, with DONE, no latched word and the operand registers, CTRL and
the launch parameters as they were; after an error OUT_LEN and BITS are 0, after success the record is. -/
def Obligations.CommandEndsInCompletion : Prop :=
  ∀ (i : Instr) (s t : State), exec i s = .next t →
    t.busy = false ∧ t.done = true ∧ t.irq = s.ie ∧ ControlKept s t ∧
      (t.err ≠ 0#4 → t.outLen = 0#32 ∧ t.bits = 0#64) ∧
      (t.err = 0#4 → t.errSub = 0#4 ∧ t.errAddr = 0#32 ∧ t.errData = 0#32)

/-- R86, R177: no command writes memory outside its destination window or where MEM_W_OK fails; FREQ_CLEAR, FREQ_COUNT,
FREQ_ACCUM and BUILD write none; after success nothing at or past DST_ADDR + OUT_LEN has changed; and after any error of
ENCODE, COMPRESS or DECODE each writable byte of the window is a draw (R88, R159, R294). That the draw is a free value
for each address, a new one for each failure, is the model's form of it (notes/assumptions/13). That HEADER_TRUNCATED is
among these errors, although R251 says 'nothing changed', is the model's reading (notes/assumptions/11, DEDUCED). -/
def Obligations.CommandsWriteOnlyTheirWindow : Prop :=
  ∀ (i : Instr) (s t : State), exec i s = .next t →
    MemoryKeptOutsideWindow s t ∧ (i ∈ [.freqClear, .freqCount, .freqAccum, .build] → t.mem = s.mem) ∧
      (t.err = 0#4 → MemoryKeptPast s t t.outLen.toNat) ∧
      (t.err ≠ 0#4 → i ∈ [.encode, .compress, .decode] →
        ∃ d, s.draws ≤ d ∧ d < t.draws ∧ ∀ a, inWindow s a = true → memWOk s.platform a = true →
          readMem t.mem a = Config.freeByte d a)

/-- R153, R86: what a command does depends on no byte of memory outside its source range: on another memory with the same
source bytes it ends alike, and writes the same bytes where it writes. -/
def Obligations.CommandsDependOnlyOnTheirSource : Prop :=
  ∀ (i : Instr) (s t : State) (m : Memory),
    (∀ a, inSource s a = true → readMem m a = readMem s.mem a) → exec i s = .next t →
    ∃ t', exec i (s.withMem m) = .next t' ∧ t'.withMem t.mem = t ∧
      ∀ a, readMem t'.mem a = readMem t.mem a ∨ (readMem t'.mem a = readMem m a ∧ readMem t.mem a = readMem s.mem a)

/-- R50, R53: FREQ changes only by FREQ_CLEAR, FREQ_COUNT, FREQ_ACCUM, COMPRESS, DECODE, a host write of a counter, or a
reset. -/
def Obligations.OnlyTheseStepsChangeCounters : Prop :=
  ∀ s t : State, step s = .next t → t.freq ≠ s.freq →
    (∃ i, Due s (encode i) ∧ i ∈ [.freqClear, .freqCount, .freqAccum, .compress, .decode]) ∨
    ((∀ w, ¬ Due s w) ∧ ∃ op rest, s.inputs = op :: rest ∧
      (op = .hardReset ∨ (∃ off v, op = .regWrite off 4 v ∧ regOfAccess off 4 = some .ctrl ∧ v.getLsbD 1 = true) ∨
        (s.busy = false ∧ ∃ off v x, op = .regWrite off 4 v ∧ regOfAccess off 4 = some (.freq x))))

/-- R292, R37: an error record stays until a command completes or starts or the block is reset; no other step, and so no
acknowledgement, changes it. -/
def Obligations.ErrorRecordPersists : Prop :=
  ∀ s t : State, step s = .next t → (∀ w, ¬ Due s w) →
    (∀ off v, regOfAccess off 4 = some .cmd → s.busy = false → s.inputs.head? ≠ some (.regWrite off 4 v)) →
    (∀ off v, regOfAccess off 4 = some .ctrl → v.getLsbD 1 = true → s.inputs.head? ≠ some (.regWrite off 4 v)) →
    s.inputs.head? ≠ some .hardReset →
    t.err = s.err ∧ t.errSub = s.errSub ∧ t.errAddr = s.errAddr ∧ t.errData = s.errData ∧ t.outLen = s.outLen ∧
      t.bits = s.bits

/-! ### Reset -/

/-- R63, R320, R322: after a hardware or soft reset every register reads its reset value, no command is pending, IRQ is
low, the counters are a fresh draw of the model, and a soft reset does exactly what a hardware reset does. A reset, while
idle or while a command runs that breaks no hazard rule, always completes (R323). That the queue stays is the model's
choice (notes/assumptions/22), and so are the empty memory and the empty queue of State.reset (notes/assumptions/1, 5, 7). -/
def Obligations.ResetState : Prop :=
  (∀ (s t : State), hostStep .hardReset s = .next t →
    idleValue t .id = 0x48554646#32 ∧ idleValue t .version = 0x00000007#32 ∧
    (∀ r, r ≠ .id → r ≠ .version → (∀ x, r ≠ .freq x) → idleValue t r = 0#32) ∧
    t.busy = false ∧ t.pend = none ∧ t.irq = false ∧
    (∃ d, s.draws ≤ d ∧ d < t.draws ∧ ∀ x, entry t.freq x = Config.freeFreq d x) ∧
    t.platform = s.platform ∧ t.inputs = s.inputs) ∧
  (∀ (s : State) (v : Word), v.getLsbD 1 = true → hostStep (wr .ctrl v) s = hostStep .hardReset s) ∧
  (∀ s : State, (s.busy = false ∨ RunningIsHazardFree s) → ∃ t, hostStep .hardReset s = .next t) ∧
  State.reset.busy = false ∧ State.reset.mem = [] ∧ State.reset.inputs = [] ∧
    ∀ r, r ≠ .id → r ≠ .version → (∀ x, r ≠ .freq x) → idleValue State.reset r = 0#32

/-- R321, R323: a reset leaves memory alone, but for the writable bytes of the window of an ENCODE, COMPRESS or DECODE it
abandons. -/
def Obligations.ResetTouchesOnlyAbandonedWindow : Prop :=
  ∀ s t : State, hostStep .hardReset s = .next t →
    (∀ a, readMem t.mem a ≠ readMem s.mem a →
      inWindow s a = true ∧ memWOk s.platform a = true ∧
        ∃ i, runningCommand s = some i ∧ i ∈ [.encode, .compress, .decode]) ∧
    ((runningCommand s = none ∨ ∃ i, runningCommand s = some i ∧ usesWindow i = false) → t.mem = s.mem)

/-! ### Hazards and liveness -/

/-- R330, R331, R332, R339: a command faults exactly when its ranges share a byte, cover the register window or lie in
memory that is not plain; in every other case it completes, whatever its operands. A write to CMD while idle faults for
the same commands. R339 gives such a run no meaning; that the model checks at the write and in the ENGINE step, before the
range checks and over ranges of integers, that memory that is not plain is a list of regions, and that the bus master meets
the register window at HUFF_BASE, are its choices (notes/assumptions/14, 9, 25). That R331 and R332 bind only a range the
command uses is its reading (notes/assumptions/26, DEDUCED). -/
def Obligations.CommandsFaultExactlyOnHazards : Prop :=
  ∀ (i : Instr) (s : State),
    ((∃ h, exec i s = .fault (.hazardViolation h)) ↔
      (usesWindow i = true ∧ ∃ n, s.srcAddr.toNat ≤ n ∧ n < s.srcAddr.toNat + s.srcLen.toNat ∧
        s.dstAddr.toNat ≤ n ∧ n < s.dstAddr.toNat + s.dstCap.toNat) ∨
      (∃ n, ((usesSource i = true ∧ s.srcAddr.toNat ≤ n ∧ n < s.srcAddr.toNat + s.srcLen.toNat) ∨
          (usesWindow i = true ∧ s.dstAddr.toNat ≤ n ∧ n < s.dstAddr.toNat + s.dstCap.toNat)) ∧
        ((s.platform.huffBase.toNat ≤ n ∧ n < s.platform.huffBase.toNat + 0x4000) ∨
          ∃ r ∈ s.platform.regions, r.kind = .sideEffects ∧ r.base ≤ n ∧ n < r.base + r.size))) ∧
    ((∀ h, exec i s ≠ .fault (.hazardViolation h)) → ∃ t, exec i s = .next t) ∧
    (s.busy = false → ((∃ h, hostStep (.regWrite 0x010#14 4 (encode i)) s = .fault (.hazardViolation h)) ↔
      ∃ h, exec i s = .fault (.hazardViolation h)))

/-- R328, R329, R307, R339: the accesses from outside that fault, and what the others do: another agent's write to a
source range, its read or write of a destination window, while the command runs; a byte access at an address of the
register window; an access to the window that is not an aligned 32-bit access. Which accesses a running command forbids is
the model's reading (notes/assumptions/15). Its choices are: that every other write or read of memory lands, unsafe where a
platform answers it with an error (notes/assumptions/10); that 'aligned' is of the offset in the window, unsafe where
HUFF_BASE is no multiple of 4 (notes/assumptions/24); and that another agent meets the window at HUFF_BASE among the
addresses of memory (notes/assumptions/25). -/
def Obligations.HostAccessHazards : Prop :=
  (∀ (s : State) (a : Word) (v : Byte), inRegisterWindow s.platform a = false →
    ((∃ i, runningCommand s = some i ∧
        ((usesSource i = true ∧ inSource s a = true) ∨ (usesWindow i = true ∧ inWindow s a = true))) →
      ∃ h, hostStep (.memWrite a v) s = .fault (.hazardViolation h)) ∧
    ((∀ i, runningCommand s = some i →
        ¬ (usesSource i = true ∧ inSource s a = true) ∧ ¬ (usesWindow i = true ∧ inWindow s a = true)) →
      ∃ t, hostStep (.memWrite a v) s = .next t ∧ t.withMem s.mem = s ∧
        ∀ b, readMem t.mem b = if b = a then v else readMem s.mem b)) ∧
  (∀ (s : State) (a : Word), inRegisterWindow s.platform a = false →
    ((∃ i, runningCommand s = some i ∧ usesWindow i = true ∧ inWindow s a = true) →
      hostStep (.memRead a) s = .fault (.hazardViolation .destinationTouched)) ∧
    ((∀ i, runningCommand s = some i → ¬ (usesWindow i = true ∧ inWindow s a = true)) →
      hostStep (.memRead a) s = .next (s.answer (0#24 ++ readMem s.mem a)))) ∧
  (∀ (s : State) (a : Word) (v : Byte), inRegisterWindow s.platform a = true →
    hostStep (.memRead a) s = .fault (.hazardViolation .badHostAccess) ∧
      hostStep (.memWrite a v) s = .fault (.hazardViolation .badHostAccess)) ∧
  ∀ (s : State) (off : BitVec 14) (bytes : Nat) (v : Word), (bytes ≠ 4 ∨ off.toNat % 4 ≠ 0) →
    hostStep (.regRead off bytes) s = .fault (.hazardViolation .badHostAccess) ∧
      hostStep (.regWrite off bytes v) s = .fault (.hazardViolation .badHostAccess)

/-- R337: a started command has ended after at most one step more than there are accesses queued, by completion or by a
reset, unless a hazard rule was broken on the way (the queue and the delay are notes/assumptions/1 and 4). -/
def Obligations.StartedCommandEnds : Prop :=
  ∀ s : State, s.busy = true →
    ∃ k, k ≤ s.inputs.length + 1 ∧
      ((∃ t, Host.Core.run core k s = .next t ∧ t.busy = false) ∨
        ∃ h, Host.Core.run core k s = .fault (.hazardViolation h))

/-! ### The invariant -/

/-- The invariant holds after reset. -/
def Obligations.ResetMeetsInvariant : Prop := Inv State.reset

/-- R53, R36, R43 to R45, R48, R62, R119, R120, R298: every step keeps the canonical form of memory, a tree only where it
is the tree of the current FREQ, an empty record while busy, LAST_CMD, only listed errors with their results 0, and no
running command that breaks a hazard rule (R339; where the model checks, where it places the register window and which
ranges are bound: notes/assumptions/14, 25, 26). -/
def Obligations.StepKeepsInvariant : Prop :=
  ∀ s t : State, Inv s → step s = .next t → Inv t
end

