-- ==== Sys2Proof/Laws/State.lean ====
section
/-! SUPPORT. One lemma for each field of State and each named update: what the field holds afterwards. All are true
by rfl and tagged simp, so that no later proof unfolds a record update. -/

namespace Sys2Proof.Machine

/-! ### State.withFreq -/

@[simp] theorem State.withFreq_ie (s : State) (f : Table Word) : (s.withFreq f).ie = s.ie := rfl
@[simp] theorem State.withFreq_done (s : State) (f : Table Word) : (s.withFreq f).done = s.done := rfl
@[simp] theorem State.withFreq_busyWr (s : State) (f : Table Word) : (s.withFreq f).busyWr = s.busyWr := rfl
@[simp] theorem State.withFreq_err (s : State) (f : Table Word) : (s.withFreq f).err = s.err := rfl
@[simp] theorem State.withFreq_errSub (s : State) (f : Table Word) : (s.withFreq f).errSub = s.errSub := rfl
@[simp] theorem State.withFreq_lastCmd (s : State) (f : Table Word) : (s.withFreq f).lastCmd = s.lastCmd := rfl
@[simp] theorem State.withFreq_srcAddr (s : State) (f : Table Word) : (s.withFreq f).srcAddr = s.srcAddr := rfl
@[simp] theorem State.withFreq_srcLen (s : State) (f : Table Word) : (s.withFreq f).srcLen = s.srcLen := rfl
@[simp] theorem State.withFreq_dstAddr (s : State) (f : Table Word) : (s.withFreq f).dstAddr = s.dstAddr := rfl
@[simp] theorem State.withFreq_dstCap (s : State) (f : Table Word) : (s.withFreq f).dstCap = s.dstCap := rfl
@[simp] theorem State.withFreq_outLen (s : State) (f : Table Word) : (s.withFreq f).outLen = s.outLen := rfl
@[simp] theorem State.withFreq_errAddr (s : State) (f : Table Word) : (s.withFreq f).errAddr = s.errAddr := rfl
@[simp] theorem State.withFreq_errData (s : State) (f : Table Word) : (s.withFreq f).errData = s.errData := rfl
@[simp] theorem State.withFreq_bits (s : State) (f : Table Word) : (s.withFreq f).bits = s.bits := rfl
@[simp] theorem State.withFreq_freq (s : State) (f : Table Word) : (s.withFreq f).freq = f := rfl
@[simp] theorem State.withFreq_tree (s : State) (f : Table Word) : (s.withFreq f).tree = none := rfl
@[simp] theorem State.withFreq_pend (s : State) (f : Table Word) : (s.withFreq f).pend = s.pend := rfl
@[simp] theorem State.withFreq_mem (s : State) (f : Table Word) : (s.withFreq f).mem = s.mem := rfl
@[simp] theorem State.withFreq_platform (s : State) (f : Table Word) : (s.withFreq f).platform = s.platform := rfl
@[simp] theorem State.withFreq_inputs (s : State) (f : Table Word) : (s.withFreq f).inputs = s.inputs := rfl
@[simp] theorem State.withFreq_engineDelay (s : State) (f : Table Word) : (s.withFreq f).engineDelay =
    s.engineDelay := rfl
@[simp] theorem State.withFreq_hostData (s : State) (f : Table Word) : (s.withFreq f).hostData = s.hostData := rfl
@[simp] theorem State.withFreq_draws (s : State) (f : Table Word) : (s.withFreq f).draws = s.draws := rfl

/-! ### State.withTree -/

@[simp] theorem State.withTree_ie (s : State) (t : Tree) : (s.withTree t).ie = s.ie := rfl
@[simp] theorem State.withTree_done (s : State) (t : Tree) : (s.withTree t).done = s.done := rfl
@[simp] theorem State.withTree_busyWr (s : State) (t : Tree) : (s.withTree t).busyWr = s.busyWr := rfl
@[simp] theorem State.withTree_err (s : State) (t : Tree) : (s.withTree t).err = s.err := rfl
@[simp] theorem State.withTree_errSub (s : State) (t : Tree) : (s.withTree t).errSub = s.errSub := rfl
@[simp] theorem State.withTree_lastCmd (s : State) (t : Tree) : (s.withTree t).lastCmd = s.lastCmd := rfl
@[simp] theorem State.withTree_srcAddr (s : State) (t : Tree) : (s.withTree t).srcAddr = s.srcAddr := rfl
@[simp] theorem State.withTree_srcLen (s : State) (t : Tree) : (s.withTree t).srcLen = s.srcLen := rfl
@[simp] theorem State.withTree_dstAddr (s : State) (t : Tree) : (s.withTree t).dstAddr = s.dstAddr := rfl
@[simp] theorem State.withTree_dstCap (s : State) (t : Tree) : (s.withTree t).dstCap = s.dstCap := rfl
@[simp] theorem State.withTree_outLen (s : State) (t : Tree) : (s.withTree t).outLen = s.outLen := rfl
@[simp] theorem State.withTree_errAddr (s : State) (t : Tree) : (s.withTree t).errAddr = s.errAddr := rfl
@[simp] theorem State.withTree_errData (s : State) (t : Tree) : (s.withTree t).errData = s.errData := rfl
@[simp] theorem State.withTree_bits (s : State) (t : Tree) : (s.withTree t).bits = s.bits := rfl
@[simp] theorem State.withTree_freq (s : State) (t : Tree) : (s.withTree t).freq = s.freq := rfl
@[simp] theorem State.withTree_tree (s : State) (t : Tree) : (s.withTree t).tree = some t := rfl
@[simp] theorem State.withTree_pend (s : State) (t : Tree) : (s.withTree t).pend = s.pend := rfl
@[simp] theorem State.withTree_mem (s : State) (t : Tree) : (s.withTree t).mem = s.mem := rfl
@[simp] theorem State.withTree_platform (s : State) (t : Tree) : (s.withTree t).platform = s.platform := rfl
@[simp] theorem State.withTree_inputs (s : State) (t : Tree) : (s.withTree t).inputs = s.inputs := rfl
@[simp] theorem State.withTree_engineDelay (s : State) (t : Tree) : (s.withTree t).engineDelay = s.engineDelay := rfl
@[simp] theorem State.withTree_hostData (s : State) (t : Tree) : (s.withTree t).hostData = s.hostData := rfl
@[simp] theorem State.withTree_draws (s : State) (t : Tree) : (s.withTree t).draws = s.draws := rfl

/-! ### State.withoutTree -/

@[simp] theorem State.withoutTree_ie (s : State) : (s.withoutTree).ie = s.ie := rfl
@[simp] theorem State.withoutTree_done (s : State) : (s.withoutTree).done = s.done := rfl
@[simp] theorem State.withoutTree_busyWr (s : State) : (s.withoutTree).busyWr = s.busyWr := rfl
@[simp] theorem State.withoutTree_err (s : State) : (s.withoutTree).err = s.err := rfl
@[simp] theorem State.withoutTree_errSub (s : State) : (s.withoutTree).errSub = s.errSub := rfl
@[simp] theorem State.withoutTree_lastCmd (s : State) : (s.withoutTree).lastCmd = s.lastCmd := rfl
@[simp] theorem State.withoutTree_srcAddr (s : State) : (s.withoutTree).srcAddr = s.srcAddr := rfl
@[simp] theorem State.withoutTree_srcLen (s : State) : (s.withoutTree).srcLen = s.srcLen := rfl
@[simp] theorem State.withoutTree_dstAddr (s : State) : (s.withoutTree).dstAddr = s.dstAddr := rfl
@[simp] theorem State.withoutTree_dstCap (s : State) : (s.withoutTree).dstCap = s.dstCap := rfl
@[simp] theorem State.withoutTree_outLen (s : State) : (s.withoutTree).outLen = s.outLen := rfl
@[simp] theorem State.withoutTree_errAddr (s : State) : (s.withoutTree).errAddr = s.errAddr := rfl
@[simp] theorem State.withoutTree_errData (s : State) : (s.withoutTree).errData = s.errData := rfl
@[simp] theorem State.withoutTree_bits (s : State) : (s.withoutTree).bits = s.bits := rfl
@[simp] theorem State.withoutTree_freq (s : State) : (s.withoutTree).freq = s.freq := rfl
@[simp] theorem State.withoutTree_tree (s : State) : (s.withoutTree).tree = none := rfl
@[simp] theorem State.withoutTree_pend (s : State) : (s.withoutTree).pend = s.pend := rfl
@[simp] theorem State.withoutTree_mem (s : State) : (s.withoutTree).mem = s.mem := rfl
@[simp] theorem State.withoutTree_platform (s : State) : (s.withoutTree).platform = s.platform := rfl
@[simp] theorem State.withoutTree_inputs (s : State) : (s.withoutTree).inputs = s.inputs := rfl
@[simp] theorem State.withoutTree_engineDelay (s : State) : (s.withoutTree).engineDelay = s.engineDelay := rfl
@[simp] theorem State.withoutTree_hostData (s : State) : (s.withoutTree).hostData = s.hostData := rfl
@[simp] theorem State.withoutTree_draws (s : State) : (s.withoutTree).draws = s.draws := rfl

/-! ### State.withMem -/

@[simp] theorem State.withMem_ie (s : State) (m : Memory) : (s.withMem m).ie = s.ie := rfl
@[simp] theorem State.withMem_done (s : State) (m : Memory) : (s.withMem m).done = s.done := rfl
@[simp] theorem State.withMem_busyWr (s : State) (m : Memory) : (s.withMem m).busyWr = s.busyWr := rfl
@[simp] theorem State.withMem_err (s : State) (m : Memory) : (s.withMem m).err = s.err := rfl
@[simp] theorem State.withMem_errSub (s : State) (m : Memory) : (s.withMem m).errSub = s.errSub := rfl
@[simp] theorem State.withMem_lastCmd (s : State) (m : Memory) : (s.withMem m).lastCmd = s.lastCmd := rfl
@[simp] theorem State.withMem_srcAddr (s : State) (m : Memory) : (s.withMem m).srcAddr = s.srcAddr := rfl
@[simp] theorem State.withMem_srcLen (s : State) (m : Memory) : (s.withMem m).srcLen = s.srcLen := rfl
@[simp] theorem State.withMem_dstAddr (s : State) (m : Memory) : (s.withMem m).dstAddr = s.dstAddr := rfl
@[simp] theorem State.withMem_dstCap (s : State) (m : Memory) : (s.withMem m).dstCap = s.dstCap := rfl
@[simp] theorem State.withMem_outLen (s : State) (m : Memory) : (s.withMem m).outLen = s.outLen := rfl
@[simp] theorem State.withMem_errAddr (s : State) (m : Memory) : (s.withMem m).errAddr = s.errAddr := rfl
@[simp] theorem State.withMem_errData (s : State) (m : Memory) : (s.withMem m).errData = s.errData := rfl
@[simp] theorem State.withMem_bits (s : State) (m : Memory) : (s.withMem m).bits = s.bits := rfl
@[simp] theorem State.withMem_freq (s : State) (m : Memory) : (s.withMem m).freq = s.freq := rfl
@[simp] theorem State.withMem_tree (s : State) (m : Memory) : (s.withMem m).tree = s.tree := rfl
@[simp] theorem State.withMem_pend (s : State) (m : Memory) : (s.withMem m).pend = s.pend := rfl
@[simp] theorem State.withMem_mem (s : State) (m : Memory) : (s.withMem m).mem = m := rfl
@[simp] theorem State.withMem_platform (s : State) (m : Memory) : (s.withMem m).platform = s.platform := rfl
@[simp] theorem State.withMem_inputs (s : State) (m : Memory) : (s.withMem m).inputs = s.inputs := rfl
@[simp] theorem State.withMem_engineDelay (s : State) (m : Memory) : (s.withMem m).engineDelay = s.engineDelay := rfl
@[simp] theorem State.withMem_hostData (s : State) (m : Memory) : (s.withMem m).hostData = s.hostData := rfl
@[simp] theorem State.withMem_draws (s : State) (m : Memory) : (s.withMem m).draws = s.draws := rfl

/-! ### State.startWith -/

@[simp] theorem State.startWith_ie (s : State) (w : Word) (d : Nat) : (s.startWith w d).ie = s.ie := rfl
@[simp] theorem State.startWith_done (s : State) (w : Word) (d : Nat) : (s.startWith w d).done = false := rfl
@[simp] theorem State.startWith_busyWr (s : State) (w : Word) (d : Nat) : (s.startWith w d).busyWr = s.busyWr := rfl
@[simp] theorem State.startWith_err (s : State) (w : Word) (d : Nat) : (s.startWith w d).err = 0#4 := rfl
@[simp] theorem State.startWith_errSub (s : State) (w : Word) (d : Nat) : (s.startWith w d).errSub = 0#4 := rfl
@[simp] theorem State.startWith_lastCmd (s : State) (w : Word) (d : Nat) : (s.startWith w d).lastCmd = opcField w := rfl
@[simp] theorem State.startWith_srcAddr (s : State) (w : Word) (d : Nat) : (s.startWith w d).srcAddr = s.srcAddr := rfl
@[simp] theorem State.startWith_srcLen (s : State) (w : Word) (d : Nat) : (s.startWith w d).srcLen = s.srcLen := rfl
@[simp] theorem State.startWith_dstAddr (s : State) (w : Word) (d : Nat) : (s.startWith w d).dstAddr = s.dstAddr := rfl
@[simp] theorem State.startWith_dstCap (s : State) (w : Word) (d : Nat) : (s.startWith w d).dstCap = s.dstCap := rfl
@[simp] theorem State.startWith_outLen (s : State) (w : Word) (d : Nat) : (s.startWith w d).outLen = 0#32 := rfl
@[simp] theorem State.startWith_errAddr (s : State) (w : Word) (d : Nat) : (s.startWith w d).errAddr = 0#32 := rfl
@[simp] theorem State.startWith_errData (s : State) (w : Word) (d : Nat) : (s.startWith w d).errData = 0#32 := rfl
@[simp] theorem State.startWith_bits (s : State) (w : Word) (d : Nat) : (s.startWith w d).bits = 0#64 := rfl
@[simp] theorem State.startWith_freq (s : State) (w : Word) (d : Nat) : (s.startWith w d).freq = s.freq := rfl
@[simp] theorem State.startWith_tree (s : State) (w : Word) (d : Nat) : (s.startWith w d).tree = s.tree := rfl
@[simp] theorem State.startWith_pend (s : State) (w : Word) (d : Nat) : (s.startWith w d).pend = some w := rfl
@[simp] theorem State.startWith_mem (s : State) (w : Word) (d : Nat) : (s.startWith w d).mem = s.mem := rfl
@[simp] theorem State.startWith_platform (s : State) (w : Word) (d : Nat) : (s.startWith w d).platform = s.platform := rfl
@[simp] theorem State.startWith_inputs (s : State) (w : Word) (d : Nat) : (s.startWith w d).inputs = s.inputs := rfl
@[simp] theorem State.startWith_engineDelay (s : State) (w : Word) (d : Nat) : (s.startWith w d).engineDelay = d := rfl
@[simp] theorem State.startWith_hostData (s : State) (w : Word) (d : Nat) : (s.startWith w d).hostData = s.hostData := rfl
@[simp] theorem State.startWith_draws (s : State) (w : Word) (d : Nat) : (s.startWith w d).draws = s.draws := rfl

/-! ### State.start -/

@[simp] theorem State.start_ie (s : State) (w : Word) : (s.start w).ie = s.ie := rfl
@[simp] theorem State.start_done (s : State) (w : Word) : (s.start w).done = false := rfl
@[simp] theorem State.start_busyWr (s : State) (w : Word) : (s.start w).busyWr = s.busyWr := rfl
@[simp] theorem State.start_err (s : State) (w : Word) : (s.start w).err = 0#4 := rfl
@[simp] theorem State.start_errSub (s : State) (w : Word) : (s.start w).errSub = 0#4 := rfl
@[simp] theorem State.start_lastCmd (s : State) (w : Word) : (s.start w).lastCmd = opcField w := rfl
@[simp] theorem State.start_srcAddr (s : State) (w : Word) : (s.start w).srcAddr = s.srcAddr := rfl
@[simp] theorem State.start_srcLen (s : State) (w : Word) : (s.start w).srcLen = s.srcLen := rfl
@[simp] theorem State.start_dstAddr (s : State) (w : Word) : (s.start w).dstAddr = s.dstAddr := rfl
@[simp] theorem State.start_dstCap (s : State) (w : Word) : (s.start w).dstCap = s.dstCap := rfl
@[simp] theorem State.start_outLen (s : State) (w : Word) : (s.start w).outLen = 0#32 := rfl
@[simp] theorem State.start_errAddr (s : State) (w : Word) : (s.start w).errAddr = 0#32 := rfl
@[simp] theorem State.start_errData (s : State) (w : Word) : (s.start w).errData = 0#32 := rfl
@[simp] theorem State.start_bits (s : State) (w : Word) : (s.start w).bits = 0#64 := rfl
@[simp] theorem State.start_freq (s : State) (w : Word) : (s.start w).freq = s.freq := rfl
@[simp] theorem State.start_tree (s : State) (w : Word) : (s.start w).tree = s.tree := rfl
@[simp] theorem State.start_pend (s : State) (w : Word) : (s.start w).pend = some w := rfl
@[simp] theorem State.start_mem (s : State) (w : Word) : (s.start w).mem = s.mem := rfl
@[simp] theorem State.start_platform (s : State) (w : Word) : (s.start w).platform = s.platform := rfl
@[simp] theorem State.start_inputs (s : State) (w : Word) : (s.start w).inputs = s.inputs := rfl
@[simp] theorem State.start_engineDelay (s : State) (w : Word) : (s.start w).engineDelay = Config.freeDelay s.draws := rfl
@[simp] theorem State.start_hostData (s : State) (w : Word) : (s.start w).hostData = s.hostData := rfl
@[simp] theorem State.start_draws (s : State) (w : Word) : (s.start w).draws = s.draws + 1 := rfl

/-! ### State.succeed -/

@[simp] theorem State.succeed_ie (s : State) (o : Word) (b : BitVec 64) : (s.succeed o b).ie = s.ie := rfl
@[simp] theorem State.succeed_done (s : State) (o : Word) (b : BitVec 64) : (s.succeed o b).done = true := rfl
@[simp] theorem State.succeed_busyWr (s : State) (o : Word) (b : BitVec 64) : (s.succeed o b).busyWr = s.busyWr := rfl
@[simp] theorem State.succeed_err (s : State) (o : Word) (b : BitVec 64) : (s.succeed o b).err = 0#4 := rfl
@[simp] theorem State.succeed_errSub (s : State) (o : Word) (b : BitVec 64) : (s.succeed o b).errSub = 0#4 := rfl
@[simp] theorem State.succeed_lastCmd (s : State) (o : Word) (b : BitVec 64) : (s.succeed o b).lastCmd = s.lastCmd := rfl
@[simp] theorem State.succeed_srcAddr (s : State) (o : Word) (b : BitVec 64) : (s.succeed o b).srcAddr = s.srcAddr := rfl
@[simp] theorem State.succeed_srcLen (s : State) (o : Word) (b : BitVec 64) : (s.succeed o b).srcLen = s.srcLen := rfl
@[simp] theorem State.succeed_dstAddr (s : State) (o : Word) (b : BitVec 64) : (s.succeed o b).dstAddr = s.dstAddr := rfl
@[simp] theorem State.succeed_dstCap (s : State) (o : Word) (b : BitVec 64) : (s.succeed o b).dstCap = s.dstCap := rfl
@[simp] theorem State.succeed_outLen (s : State) (o : Word) (b : BitVec 64) : (s.succeed o b).outLen = o := rfl
@[simp] theorem State.succeed_errAddr (s : State) (o : Word) (b : BitVec 64) : (s.succeed o b).errAddr = 0#32 := rfl
@[simp] theorem State.succeed_errData (s : State) (o : Word) (b : BitVec 64) : (s.succeed o b).errData = 0#32 := rfl
@[simp] theorem State.succeed_bits (s : State) (o : Word) (b : BitVec 64) : (s.succeed o b).bits = b := rfl
@[simp] theorem State.succeed_freq (s : State) (o : Word) (b : BitVec 64) : (s.succeed o b).freq = s.freq := rfl
@[simp] theorem State.succeed_tree (s : State) (o : Word) (b : BitVec 64) : (s.succeed o b).tree = s.tree := rfl
@[simp] theorem State.succeed_pend (s : State) (o : Word) (b : BitVec 64) : (s.succeed o b).pend = none := rfl
@[simp] theorem State.succeed_mem (s : State) (o : Word) (b : BitVec 64) : (s.succeed o b).mem = s.mem := rfl
@[simp] theorem State.succeed_platform (s : State) (o : Word) (b : BitVec 64) : (s.succeed o b).platform =
    s.platform := rfl
@[simp] theorem State.succeed_inputs (s : State) (o : Word) (b : BitVec 64) : (s.succeed o b).inputs = s.inputs := rfl
@[simp] theorem State.succeed_engineDelay (s : State) (o : Word) (b : BitVec 64) : (s.succeed o b).engineDelay = 0 := rfl
@[simp] theorem State.succeed_hostData (s : State) (o : Word) (b : BitVec 64) : (s.succeed o b).hostData =
    s.hostData := rfl
@[simp] theorem State.succeed_draws (s : State) (o : Word) (b : BitVec 64) : (s.succeed o b).draws = s.draws := rfl

/-! ### State.fail -/

@[simp] theorem State.fail_ie (s : State) (e : CmdError) : (s.fail e).ie = s.ie := rfl
@[simp] theorem State.fail_done (s : State) (e : CmdError) : (s.fail e).done = true := rfl
@[simp] theorem State.fail_busyWr (s : State) (e : CmdError) : (s.fail e).busyWr = s.busyWr := rfl
@[simp] theorem State.fail_err (s : State) (e : CmdError) : (s.fail e).err = errNumber e.cause := rfl
@[simp] theorem State.fail_errSub (s : State) (e : CmdError) : (s.fail e).errSub = errSubNumber e.cause := rfl
@[simp] theorem State.fail_lastCmd (s : State) (e : CmdError) : (s.fail e).lastCmd = s.lastCmd := rfl
@[simp] theorem State.fail_srcAddr (s : State) (e : CmdError) : (s.fail e).srcAddr = s.srcAddr := rfl
@[simp] theorem State.fail_srcLen (s : State) (e : CmdError) : (s.fail e).srcLen = s.srcLen := rfl
@[simp] theorem State.fail_dstAddr (s : State) (e : CmdError) : (s.fail e).dstAddr = s.dstAddr := rfl
@[simp] theorem State.fail_dstCap (s : State) (e : CmdError) : (s.fail e).dstCap = s.dstCap := rfl
@[simp] theorem State.fail_outLen (s : State) (e : CmdError) : (s.fail e).outLen = 0#32 := rfl
@[simp] theorem State.fail_errAddr (s : State) (e : CmdError) : (s.fail e).errAddr = e.addr := rfl
@[simp] theorem State.fail_errData (s : State) (e : CmdError) : (s.fail e).errData = e.data := rfl
@[simp] theorem State.fail_bits (s : State) (e : CmdError) : (s.fail e).bits = 0#64 := rfl
@[simp] theorem State.fail_freq (s : State) (e : CmdError) : (s.fail e).freq = s.freq := rfl
@[simp] theorem State.fail_tree (s : State) (e : CmdError) : (s.fail e).tree = s.tree := rfl
@[simp] theorem State.fail_pend (s : State) (e : CmdError) : (s.fail e).pend = none := rfl
@[simp] theorem State.fail_mem (s : State) (e : CmdError) : (s.fail e).mem = s.mem := rfl
@[simp] theorem State.fail_platform (s : State) (e : CmdError) : (s.fail e).platform = s.platform := rfl
@[simp] theorem State.fail_inputs (s : State) (e : CmdError) : (s.fail e).inputs = s.inputs := rfl
@[simp] theorem State.fail_engineDelay (s : State) (e : CmdError) : (s.fail e).engineDelay = 0 := rfl
@[simp] theorem State.fail_hostData (s : State) (e : CmdError) : (s.fail e).hostData = s.hostData := rfl
@[simp] theorem State.fail_draws (s : State) (e : CmdError) : (s.fail e).draws = s.draws := rfl

/-! ### State.acknowledge -/

@[simp] theorem State.acknowledge_ie (s : State) (v : Word) : (s.acknowledge v).ie = s.ie := rfl
@[simp] theorem State.acknowledge_done (s : State) (v : Word) : (s.acknowledge v).done = (s.done && !v.getLsbD 1) := rfl
@[simp] theorem State.acknowledge_busyWr (s : State) (v : Word) : (s.acknowledge v).busyWr =
    (s.busyWr && !v.getLsbD 2) := rfl
@[simp] theorem State.acknowledge_err (s : State) (v : Word) : (s.acknowledge v).err = s.err := rfl
@[simp] theorem State.acknowledge_errSub (s : State) (v : Word) : (s.acknowledge v).errSub = s.errSub := rfl
@[simp] theorem State.acknowledge_lastCmd (s : State) (v : Word) : (s.acknowledge v).lastCmd = s.lastCmd := rfl
@[simp] theorem State.acknowledge_srcAddr (s : State) (v : Word) : (s.acknowledge v).srcAddr = s.srcAddr := rfl
@[simp] theorem State.acknowledge_srcLen (s : State) (v : Word) : (s.acknowledge v).srcLen = s.srcLen := rfl
@[simp] theorem State.acknowledge_dstAddr (s : State) (v : Word) : (s.acknowledge v).dstAddr = s.dstAddr := rfl
@[simp] theorem State.acknowledge_dstCap (s : State) (v : Word) : (s.acknowledge v).dstCap = s.dstCap := rfl
@[simp] theorem State.acknowledge_outLen (s : State) (v : Word) : (s.acknowledge v).outLen = s.outLen := rfl
@[simp] theorem State.acknowledge_errAddr (s : State) (v : Word) : (s.acknowledge v).errAddr = s.errAddr := rfl
@[simp] theorem State.acknowledge_errData (s : State) (v : Word) : (s.acknowledge v).errData = s.errData := rfl
@[simp] theorem State.acknowledge_bits (s : State) (v : Word) : (s.acknowledge v).bits = s.bits := rfl
@[simp] theorem State.acknowledge_freq (s : State) (v : Word) : (s.acknowledge v).freq = s.freq := rfl
@[simp] theorem State.acknowledge_tree (s : State) (v : Word) : (s.acknowledge v).tree = s.tree := rfl
@[simp] theorem State.acknowledge_pend (s : State) (v : Word) : (s.acknowledge v).pend = s.pend := rfl
@[simp] theorem State.acknowledge_mem (s : State) (v : Word) : (s.acknowledge v).mem = s.mem := rfl
@[simp] theorem State.acknowledge_platform (s : State) (v : Word) : (s.acknowledge v).platform = s.platform := rfl
@[simp] theorem State.acknowledge_inputs (s : State) (v : Word) : (s.acknowledge v).inputs = s.inputs := rfl
@[simp] theorem State.acknowledge_engineDelay (s : State) (v : Word) : (s.acknowledge v).engineDelay =
    s.engineDelay := rfl
@[simp] theorem State.acknowledge_hostData (s : State) (v : Word) : (s.acknowledge v).hostData = s.hostData := rfl
@[simp] theorem State.acknowledge_draws (s : State) (v : Word) : (s.acknowledge v).draws = s.draws := rfl

/-! ### State.spoilWindow -/

@[simp] theorem State.spoilWindow_ie (s : State) : (s.spoilWindow).ie = s.ie := rfl
@[simp] theorem State.spoilWindow_done (s : State) : (s.spoilWindow).done = s.done := rfl
@[simp] theorem State.spoilWindow_busyWr (s : State) : (s.spoilWindow).busyWr = s.busyWr := rfl
@[simp] theorem State.spoilWindow_err (s : State) : (s.spoilWindow).err = s.err := rfl
@[simp] theorem State.spoilWindow_errSub (s : State) : (s.spoilWindow).errSub = s.errSub := rfl
@[simp] theorem State.spoilWindow_lastCmd (s : State) : (s.spoilWindow).lastCmd = s.lastCmd := rfl
@[simp] theorem State.spoilWindow_srcAddr (s : State) : (s.spoilWindow).srcAddr = s.srcAddr := rfl
@[simp] theorem State.spoilWindow_srcLen (s : State) : (s.spoilWindow).srcLen = s.srcLen := rfl
@[simp] theorem State.spoilWindow_dstAddr (s : State) : (s.spoilWindow).dstAddr = s.dstAddr := rfl
@[simp] theorem State.spoilWindow_dstCap (s : State) : (s.spoilWindow).dstCap = s.dstCap := rfl
@[simp] theorem State.spoilWindow_outLen (s : State) : (s.spoilWindow).outLen = s.outLen := rfl
@[simp] theorem State.spoilWindow_errAddr (s : State) : (s.spoilWindow).errAddr = s.errAddr := rfl
@[simp] theorem State.spoilWindow_errData (s : State) : (s.spoilWindow).errData = s.errData := rfl
@[simp] theorem State.spoilWindow_bits (s : State) : (s.spoilWindow).bits = s.bits := rfl
@[simp] theorem State.spoilWindow_freq (s : State) : (s.spoilWindow).freq = s.freq := rfl
@[simp] theorem State.spoilWindow_tree (s : State) : (s.spoilWindow).tree = s.tree := rfl
@[simp] theorem State.spoilWindow_pend (s : State) : (s.spoilWindow).pend = s.pend := rfl
@[simp] theorem State.spoilWindow_mem (s : State) : (s.spoilWindow).mem =
    drawBytes s.platform s.draws s.mem s.dstAddr.toNat s.dstCap.toNat := rfl
@[simp] theorem State.spoilWindow_platform (s : State) : (s.spoilWindow).platform = s.platform := rfl
@[simp] theorem State.spoilWindow_inputs (s : State) : (s.spoilWindow).inputs = s.inputs := rfl
@[simp] theorem State.spoilWindow_engineDelay (s : State) : (s.spoilWindow).engineDelay = s.engineDelay := rfl
@[simp] theorem State.spoilWindow_hostData (s : State) : (s.spoilWindow).hostData = s.hostData := rfl
@[simp] theorem State.spoilWindow_draws (s : State) : (s.spoilWindow).draws = s.draws + 1 := rfl

/-! ### State.resetBlock -/

@[simp] theorem State.resetBlock_ie (s : State) : (s.resetBlock).ie = false := rfl
@[simp] theorem State.resetBlock_done (s : State) : (s.resetBlock).done = false := rfl
@[simp] theorem State.resetBlock_busyWr (s : State) : (s.resetBlock).busyWr = false := rfl
@[simp] theorem State.resetBlock_err (s : State) : (s.resetBlock).err = 0#4 := rfl
@[simp] theorem State.resetBlock_errSub (s : State) : (s.resetBlock).errSub = 0#4 := rfl
@[simp] theorem State.resetBlock_lastCmd (s : State) : (s.resetBlock).lastCmd = 0#8 := rfl
@[simp] theorem State.resetBlock_srcAddr (s : State) : (s.resetBlock).srcAddr = 0#32 := rfl
@[simp] theorem State.resetBlock_srcLen (s : State) : (s.resetBlock).srcLen = 0#32 := rfl
@[simp] theorem State.resetBlock_dstAddr (s : State) : (s.resetBlock).dstAddr = 0#32 := rfl
@[simp] theorem State.resetBlock_dstCap (s : State) : (s.resetBlock).dstCap = 0#32 := rfl
@[simp] theorem State.resetBlock_outLen (s : State) : (s.resetBlock).outLen = 0#32 := rfl
@[simp] theorem State.resetBlock_errAddr (s : State) : (s.resetBlock).errAddr = 0#32 := rfl
@[simp] theorem State.resetBlock_errData (s : State) : (s.resetBlock).errData = 0#32 := rfl
@[simp] theorem State.resetBlock_bits (s : State) : (s.resetBlock).bits = 0#64 := rfl
@[simp] theorem State.resetBlock_freq (s : State) : (s.resetBlock).freq = tabulate (Config.freeFreq s.draws) := rfl
@[simp] theorem State.resetBlock_tree (s : State) : (s.resetBlock).tree = none := rfl
@[simp] theorem State.resetBlock_pend (s : State) : (s.resetBlock).pend = none := rfl
@[simp] theorem State.resetBlock_mem (s : State) : (s.resetBlock).mem = s.mem := rfl
@[simp] theorem State.resetBlock_platform (s : State) : (s.resetBlock).platform = s.platform := rfl
@[simp] theorem State.resetBlock_inputs (s : State) : (s.resetBlock).inputs = s.inputs := rfl
@[simp] theorem State.resetBlock_engineDelay (s : State) : (s.resetBlock).engineDelay = 0 := rfl
@[simp] theorem State.resetBlock_hostData (s : State) : (s.resetBlock).hostData = s.hostData := rfl
@[simp] theorem State.resetBlock_draws (s : State) : (s.resetBlock).draws = s.draws + 1 := rfl

/-! ### State.takeInput -/

@[simp] theorem State.takeInput_ie (s : State) (l : List HostOp) : (s.takeInput l).ie = s.ie := rfl
@[simp] theorem State.takeInput_done (s : State) (l : List HostOp) : (s.takeInput l).done = s.done := rfl
@[simp] theorem State.takeInput_busyWr (s : State) (l : List HostOp) : (s.takeInput l).busyWr = s.busyWr := rfl
@[simp] theorem State.takeInput_err (s : State) (l : List HostOp) : (s.takeInput l).err = s.err := rfl
@[simp] theorem State.takeInput_errSub (s : State) (l : List HostOp) : (s.takeInput l).errSub = s.errSub := rfl
@[simp] theorem State.takeInput_lastCmd (s : State) (l : List HostOp) : (s.takeInput l).lastCmd = s.lastCmd := rfl
@[simp] theorem State.takeInput_srcAddr (s : State) (l : List HostOp) : (s.takeInput l).srcAddr = s.srcAddr := rfl
@[simp] theorem State.takeInput_srcLen (s : State) (l : List HostOp) : (s.takeInput l).srcLen = s.srcLen := rfl
@[simp] theorem State.takeInput_dstAddr (s : State) (l : List HostOp) : (s.takeInput l).dstAddr = s.dstAddr := rfl
@[simp] theorem State.takeInput_dstCap (s : State) (l : List HostOp) : (s.takeInput l).dstCap = s.dstCap := rfl
@[simp] theorem State.takeInput_outLen (s : State) (l : List HostOp) : (s.takeInput l).outLen = s.outLen := rfl
@[simp] theorem State.takeInput_errAddr (s : State) (l : List HostOp) : (s.takeInput l).errAddr = s.errAddr := rfl
@[simp] theorem State.takeInput_errData (s : State) (l : List HostOp) : (s.takeInput l).errData = s.errData := rfl
@[simp] theorem State.takeInput_bits (s : State) (l : List HostOp) : (s.takeInput l).bits = s.bits := rfl
@[simp] theorem State.takeInput_freq (s : State) (l : List HostOp) : (s.takeInput l).freq = s.freq := rfl
@[simp] theorem State.takeInput_tree (s : State) (l : List HostOp) : (s.takeInput l).tree = s.tree := rfl
@[simp] theorem State.takeInput_pend (s : State) (l : List HostOp) : (s.takeInput l).pend = s.pend := rfl
@[simp] theorem State.takeInput_mem (s : State) (l : List HostOp) : (s.takeInput l).mem = s.mem := rfl
@[simp] theorem State.takeInput_platform (s : State) (l : List HostOp) : (s.takeInput l).platform = s.platform := rfl
@[simp] theorem State.takeInput_inputs (s : State) (l : List HostOp) : (s.takeInput l).inputs = l := rfl
@[simp] theorem State.takeInput_engineDelay (s : State) (l : List HostOp) : (s.takeInput l).engineDelay =
    s.engineDelay - 1 := rfl
@[simp] theorem State.takeInput_hostData (s : State) (l : List HostOp) : (s.takeInput l).hostData = s.hostData := rfl
@[simp] theorem State.takeInput_draws (s : State) (l : List HostOp) : (s.takeInput l).draws = s.draws := rfl

/-! ### State.answer -/

@[simp] theorem State.answer_ie (s : State) (v : Word) : (s.answer v).ie = s.ie := rfl
@[simp] theorem State.answer_done (s : State) (v : Word) : (s.answer v).done = s.done := rfl
@[simp] theorem State.answer_busyWr (s : State) (v : Word) : (s.answer v).busyWr = s.busyWr := rfl
@[simp] theorem State.answer_err (s : State) (v : Word) : (s.answer v).err = s.err := rfl
@[simp] theorem State.answer_errSub (s : State) (v : Word) : (s.answer v).errSub = s.errSub := rfl
@[simp] theorem State.answer_lastCmd (s : State) (v : Word) : (s.answer v).lastCmd = s.lastCmd := rfl
@[simp] theorem State.answer_srcAddr (s : State) (v : Word) : (s.answer v).srcAddr = s.srcAddr := rfl
@[simp] theorem State.answer_srcLen (s : State) (v : Word) : (s.answer v).srcLen = s.srcLen := rfl
@[simp] theorem State.answer_dstAddr (s : State) (v : Word) : (s.answer v).dstAddr = s.dstAddr := rfl
@[simp] theorem State.answer_dstCap (s : State) (v : Word) : (s.answer v).dstCap = s.dstCap := rfl
@[simp] theorem State.answer_outLen (s : State) (v : Word) : (s.answer v).outLen = s.outLen := rfl
@[simp] theorem State.answer_errAddr (s : State) (v : Word) : (s.answer v).errAddr = s.errAddr := rfl
@[simp] theorem State.answer_errData (s : State) (v : Word) : (s.answer v).errData = s.errData := rfl
@[simp] theorem State.answer_bits (s : State) (v : Word) : (s.answer v).bits = s.bits := rfl
@[simp] theorem State.answer_freq (s : State) (v : Word) : (s.answer v).freq = s.freq := rfl
@[simp] theorem State.answer_tree (s : State) (v : Word) : (s.answer v).tree = s.tree := rfl
@[simp] theorem State.answer_pend (s : State) (v : Word) : (s.answer v).pend = s.pend := rfl
@[simp] theorem State.answer_mem (s : State) (v : Word) : (s.answer v).mem = s.mem := rfl
@[simp] theorem State.answer_platform (s : State) (v : Word) : (s.answer v).platform = s.platform := rfl
@[simp] theorem State.answer_inputs (s : State) (v : Word) : (s.answer v).inputs = s.inputs := rfl
@[simp] theorem State.answer_engineDelay (s : State) (v : Word) : (s.answer v).engineDelay = s.engineDelay := rfl
@[simp] theorem State.answer_hostData (s : State) (v : Word) : (s.answer v).hostData = v := rfl
@[simp] theorem State.answer_draws (s : State) (v : Word) : (s.answer v).draws = s.draws := rfl

/-! ### State.drawn -/

@[simp] theorem State.drawn_ie (s : State) : (s.drawn).ie = s.ie := rfl
@[simp] theorem State.drawn_done (s : State) : (s.drawn).done = s.done := rfl
@[simp] theorem State.drawn_busyWr (s : State) : (s.drawn).busyWr = s.busyWr := rfl
@[simp] theorem State.drawn_err (s : State) : (s.drawn).err = s.err := rfl
@[simp] theorem State.drawn_errSub (s : State) : (s.drawn).errSub = s.errSub := rfl
@[simp] theorem State.drawn_lastCmd (s : State) : (s.drawn).lastCmd = s.lastCmd := rfl
@[simp] theorem State.drawn_srcAddr (s : State) : (s.drawn).srcAddr = s.srcAddr := rfl
@[simp] theorem State.drawn_srcLen (s : State) : (s.drawn).srcLen = s.srcLen := rfl
@[simp] theorem State.drawn_dstAddr (s : State) : (s.drawn).dstAddr = s.dstAddr := rfl
@[simp] theorem State.drawn_dstCap (s : State) : (s.drawn).dstCap = s.dstCap := rfl
@[simp] theorem State.drawn_outLen (s : State) : (s.drawn).outLen = s.outLen := rfl
@[simp] theorem State.drawn_errAddr (s : State) : (s.drawn).errAddr = s.errAddr := rfl
@[simp] theorem State.drawn_errData (s : State) : (s.drawn).errData = s.errData := rfl
@[simp] theorem State.drawn_bits (s : State) : (s.drawn).bits = s.bits := rfl
@[simp] theorem State.drawn_freq (s : State) : (s.drawn).freq = s.freq := rfl
@[simp] theorem State.drawn_tree (s : State) : (s.drawn).tree = s.tree := rfl
@[simp] theorem State.drawn_pend (s : State) : (s.drawn).pend = s.pend := rfl
@[simp] theorem State.drawn_mem (s : State) : (s.drawn).mem = s.mem := rfl
@[simp] theorem State.drawn_platform (s : State) : (s.drawn).platform = s.platform := rfl
@[simp] theorem State.drawn_inputs (s : State) : (s.drawn).inputs = s.inputs := rfl
@[simp] theorem State.drawn_engineDelay (s : State) : (s.drawn).engineDelay = s.engineDelay := rfl
@[simp] theorem State.drawn_hostData (s : State) : (s.drawn).hostData = s.hostData := rfl
@[simp] theorem State.drawn_draws (s : State) : (s.drawn).draws = s.draws + 1 := rfl

/-! ### State.lostWrite -/

@[simp] theorem State.lostWrite_ie (s : State) : (s.lostWrite).ie = s.ie := rfl
@[simp] theorem State.lostWrite_done (s : State) : (s.lostWrite).done = s.done := rfl
@[simp] theorem State.lostWrite_busyWr (s : State) : (s.lostWrite).busyWr = true := rfl
@[simp] theorem State.lostWrite_err (s : State) : (s.lostWrite).err = s.err := rfl
@[simp] theorem State.lostWrite_errSub (s : State) : (s.lostWrite).errSub = s.errSub := rfl
@[simp] theorem State.lostWrite_lastCmd (s : State) : (s.lostWrite).lastCmd = s.lastCmd := rfl
@[simp] theorem State.lostWrite_srcAddr (s : State) : (s.lostWrite).srcAddr = s.srcAddr := rfl
@[simp] theorem State.lostWrite_srcLen (s : State) : (s.lostWrite).srcLen = s.srcLen := rfl
@[simp] theorem State.lostWrite_dstAddr (s : State) : (s.lostWrite).dstAddr = s.dstAddr := rfl
@[simp] theorem State.lostWrite_dstCap (s : State) : (s.lostWrite).dstCap = s.dstCap := rfl
@[simp] theorem State.lostWrite_outLen (s : State) : (s.lostWrite).outLen = s.outLen := rfl
@[simp] theorem State.lostWrite_errAddr (s : State) : (s.lostWrite).errAddr = s.errAddr := rfl
@[simp] theorem State.lostWrite_errData (s : State) : (s.lostWrite).errData = s.errData := rfl
@[simp] theorem State.lostWrite_bits (s : State) : (s.lostWrite).bits = s.bits := rfl
@[simp] theorem State.lostWrite_freq (s : State) : (s.lostWrite).freq = s.freq := rfl
@[simp] theorem State.lostWrite_tree (s : State) : (s.lostWrite).tree = s.tree := rfl
@[simp] theorem State.lostWrite_pend (s : State) : (s.lostWrite).pend = s.pend := rfl
@[simp] theorem State.lostWrite_mem (s : State) : (s.lostWrite).mem = s.mem := rfl
@[simp] theorem State.lostWrite_platform (s : State) : (s.lostWrite).platform = s.platform := rfl
@[simp] theorem State.lostWrite_inputs (s : State) : (s.lostWrite).inputs = s.inputs := rfl
@[simp] theorem State.lostWrite_engineDelay (s : State) : (s.lostWrite).engineDelay = s.engineDelay := rfl
@[simp] theorem State.lostWrite_hostData (s : State) : (s.lostWrite).hostData = s.hostData := rfl
@[simp] theorem State.lostWrite_draws (s : State) : (s.lostWrite).draws = s.draws := rfl

/-! ### State.setIe -/

@[simp] theorem State.setIe_ie (s : State) (b : Bool) : (s.setIe b).ie = b := rfl
@[simp] theorem State.setIe_done (s : State) (b : Bool) : (s.setIe b).done = s.done := rfl
@[simp] theorem State.setIe_busyWr (s : State) (b : Bool) : (s.setIe b).busyWr = s.busyWr := rfl
@[simp] theorem State.setIe_err (s : State) (b : Bool) : (s.setIe b).err = s.err := rfl
@[simp] theorem State.setIe_errSub (s : State) (b : Bool) : (s.setIe b).errSub = s.errSub := rfl
@[simp] theorem State.setIe_lastCmd (s : State) (b : Bool) : (s.setIe b).lastCmd = s.lastCmd := rfl
@[simp] theorem State.setIe_srcAddr (s : State) (b : Bool) : (s.setIe b).srcAddr = s.srcAddr := rfl
@[simp] theorem State.setIe_srcLen (s : State) (b : Bool) : (s.setIe b).srcLen = s.srcLen := rfl
@[simp] theorem State.setIe_dstAddr (s : State) (b : Bool) : (s.setIe b).dstAddr = s.dstAddr := rfl
@[simp] theorem State.setIe_dstCap (s : State) (b : Bool) : (s.setIe b).dstCap = s.dstCap := rfl
@[simp] theorem State.setIe_outLen (s : State) (b : Bool) : (s.setIe b).outLen = s.outLen := rfl
@[simp] theorem State.setIe_errAddr (s : State) (b : Bool) : (s.setIe b).errAddr = s.errAddr := rfl
@[simp] theorem State.setIe_errData (s : State) (b : Bool) : (s.setIe b).errData = s.errData := rfl
@[simp] theorem State.setIe_bits (s : State) (b : Bool) : (s.setIe b).bits = s.bits := rfl
@[simp] theorem State.setIe_freq (s : State) (b : Bool) : (s.setIe b).freq = s.freq := rfl
@[simp] theorem State.setIe_tree (s : State) (b : Bool) : (s.setIe b).tree = s.tree := rfl
@[simp] theorem State.setIe_pend (s : State) (b : Bool) : (s.setIe b).pend = s.pend := rfl
@[simp] theorem State.setIe_mem (s : State) (b : Bool) : (s.setIe b).mem = s.mem := rfl
@[simp] theorem State.setIe_platform (s : State) (b : Bool) : (s.setIe b).platform = s.platform := rfl
@[simp] theorem State.setIe_inputs (s : State) (b : Bool) : (s.setIe b).inputs = s.inputs := rfl
@[simp] theorem State.setIe_engineDelay (s : State) (b : Bool) : (s.setIe b).engineDelay = s.engineDelay := rfl
@[simp] theorem State.setIe_hostData (s : State) (b : Bool) : (s.setIe b).hostData = s.hostData := rfl
@[simp] theorem State.setIe_draws (s : State) (b : Bool) : (s.setIe b).draws = s.draws := rfl

/-! ### The views -/

@[simp] theorem State.withFreq_busy (s : State) (f : Table Word) : (s.withFreq f).busy = s.busy := rfl
@[simp] theorem State.withFreq_treeValid (s : State) (f : Table Word) : (s.withFreq f).treeValid = false := rfl
@[simp] theorem State.withFreq_code (s : State) (f : Table Word) : (s.withFreq f).code = fun _ => [] := rfl
@[simp] theorem State.withTree_busy (s : State) (t : Tree) : (s.withTree t).busy = s.busy := rfl
@[simp] theorem State.withTree_treeValid (s : State) (t : Tree) : (s.withTree t).treeValid = true := rfl
@[simp] theorem State.withTree_code (s : State) (t : Tree) : (s.withTree t).code = entry t.code := rfl
@[simp] theorem State.withoutTree_busy (s : State) : (s.withoutTree).busy = s.busy := rfl
@[simp] theorem State.withoutTree_treeValid (s : State) : (s.withoutTree).treeValid = false := rfl
@[simp] theorem State.withoutTree_code (s : State) : (s.withoutTree).code = fun _ => [] := rfl
@[simp] theorem State.withMem_busy (s : State) (m : Memory) : (s.withMem m).busy = s.busy := rfl
@[simp] theorem State.withMem_treeValid (s : State) (m : Memory) : (s.withMem m).treeValid = s.treeValid := rfl
@[simp] theorem State.withMem_code (s : State) (m : Memory) : (s.withMem m).code = s.code := rfl
@[simp] theorem State.startWith_busy (s : State) (w : Word) (d : Nat) : (s.startWith w d).busy = true := rfl
@[simp] theorem State.startWith_treeValid (s : State) (w : Word) (d : Nat) : (s.startWith w d).treeValid =
    s.treeValid := rfl
@[simp] theorem State.startWith_code (s : State) (w : Word) (d : Nat) : (s.startWith w d).code = s.code := rfl
@[simp] theorem State.start_busy (s : State) (w : Word) : (s.start w).busy = true := rfl
@[simp] theorem State.start_treeValid (s : State) (w : Word) : (s.start w).treeValid = s.treeValid := rfl
@[simp] theorem State.start_code (s : State) (w : Word) : (s.start w).code = s.code := rfl
@[simp] theorem State.succeed_busy (s : State) (o : Word) (b : BitVec 64) : (s.succeed o b).busy = false := rfl
@[simp] theorem State.succeed_treeValid (s : State) (o : Word) (b : BitVec 64) : (s.succeed o b).treeValid =
    s.treeValid := rfl
@[simp] theorem State.succeed_code (s : State) (o : Word) (b : BitVec 64) : (s.succeed o b).code = s.code := rfl
@[simp] theorem State.fail_busy (s : State) (e : CmdError) : (s.fail e).busy = false := rfl
@[simp] theorem State.fail_treeValid (s : State) (e : CmdError) : (s.fail e).treeValid = s.treeValid := rfl
@[simp] theorem State.fail_code (s : State) (e : CmdError) : (s.fail e).code = s.code := rfl
@[simp] theorem State.acknowledge_busy (s : State) (v : Word) : (s.acknowledge v).busy = s.busy := rfl
@[simp] theorem State.acknowledge_treeValid (s : State) (v : Word) : (s.acknowledge v).treeValid = s.treeValid := rfl
@[simp] theorem State.acknowledge_code (s : State) (v : Word) : (s.acknowledge v).code = s.code := rfl
@[simp] theorem State.spoilWindow_busy (s : State) : (s.spoilWindow).busy = s.busy := rfl
@[simp] theorem State.spoilWindow_treeValid (s : State) : (s.spoilWindow).treeValid = s.treeValid := rfl
@[simp] theorem State.spoilWindow_code (s : State) : (s.spoilWindow).code = s.code := rfl
@[simp] theorem State.resetBlock_busy (s : State) : (s.resetBlock).busy = false := rfl
@[simp] theorem State.resetBlock_treeValid (s : State) : (s.resetBlock).treeValid = false := rfl
@[simp] theorem State.resetBlock_code (s : State) : (s.resetBlock).code = fun _ => [] := rfl
@[simp] theorem State.takeInput_busy (s : State) (l : List HostOp) : (s.takeInput l).busy = s.busy := rfl
@[simp] theorem State.takeInput_treeValid (s : State) (l : List HostOp) : (s.takeInput l).treeValid = s.treeValid := rfl
@[simp] theorem State.takeInput_code (s : State) (l : List HostOp) : (s.takeInput l).code = s.code := rfl
@[simp] theorem State.answer_busy (s : State) (v : Word) : (s.answer v).busy = s.busy := rfl
@[simp] theorem State.answer_treeValid (s : State) (v : Word) : (s.answer v).treeValid = s.treeValid := rfl
@[simp] theorem State.answer_code (s : State) (v : Word) : (s.answer v).code = s.code := rfl
@[simp] theorem State.drawn_busy (s : State) : (s.drawn).busy = s.busy := rfl
@[simp] theorem State.drawn_treeValid (s : State) : (s.drawn).treeValid = s.treeValid := rfl
@[simp] theorem State.drawn_code (s : State) : (s.drawn).code = s.code := rfl
@[simp] theorem State.lostWrite_busy (s : State) : (s.lostWrite).busy = s.busy := rfl
@[simp] theorem State.lostWrite_treeValid (s : State) : (s.lostWrite).treeValid = s.treeValid := rfl
@[simp] theorem State.lostWrite_code (s : State) : (s.lostWrite).code = s.code := rfl
@[simp] theorem State.setIe_busy (s : State) (b : Bool) : (s.setIe b).busy = s.busy := rfl
@[simp] theorem State.setIe_treeValid (s : State) (b : Bool) : (s.setIe b).treeValid = s.treeValid := rfl
@[simp] theorem State.setIe_code (s : State) (b : Bool) : (s.setIe b).code = s.code := rfl

/-! ### State.setOperand -/

/-- An operand write leaves every field alone but the register it names. -/
theorem State.setOperand_frame (s : State) (r : Reg) (v : Word) :
    ∃ a n d c, s.setOperand r v = { s with srcAddr := a, srcLen := n, dstAddr := d, dstCap := c } := by
  cases r <;> exact ⟨_, _, _, _, rfl⟩

end Sys2Proof.Machine
end

