-- ==== Sys2Proof/Laws/Bits.lean ====
section
/-! SUPPORT. Tables, big-endian words, and the bit accumulator against the packed bit string. -/

namespace Sys2Proof.Machine

/-! ### Tables -/

@[simp] theorem entry_tabulate {α : Type} (f : Byte → α) (x : Byte) : entry (tabulate f) x = f x := by
  unfold entry tabulate
  rw [Vector.getElem_ofFn, BitVec.ofNat_toNat, BitVec.setWidth_eq]

theorem entry_setEntry {α : Type} (t : Table α) (x y : Byte) (v : α) :
    entry (setEntry t x v) y = if y = x then v else entry t y := by
  unfold entry setEntry
  rw [Vector.getElem_set]
  by_cases h : y = x
  · simp [h]
  · have : x.toNat ≠ y.toNat := fun e => h (BitVec.eq_of_toNat_eq e.symm)
    simp [h, this]

theorem table_ext {α : Type} {t u : Table α} (h : ∀ x, entry t x = entry u x) : t = u := by
  ext i hi
  have := h (BitVec.ofNat 8 i)
  simpa [entry, Nat.mod_eq_of_lt hi] using this

theorem mem_symbols (x : Byte) : x ∈ symbols := by
  refine List.mem_map.2 ⟨x.toNat, List.mem_range.2 x.isLt, by simp⟩

theorem nodup_symbols : symbols.Nodup := by
  refine List.Nodup.map_on (fun i hi j hj h => ?_) List.nodup_range
  have := congrArg BitVec.toNat h
  simpa [Nat.mod_eq_of_lt (List.mem_range.1 hi), Nat.mod_eq_of_lt (List.mem_range.1 hj)] using this

@[simp] theorem length_symbols : symbols.length = 256 := by simp [symbols]

theorem getElem_symbols (i : Nat) (h : i < symbols.length) : symbols[i] = BitVec.ofNat 8 i := by simp [symbols]

/-! ### Fields and bit strings as numbers -/

/-- A concatenation as a number: the upper part weighs `2 ^ m` (R13). -/
theorem toNat_append_add {n m : Nat} (a : BitVec n) (b : BitVec m) : (a ++ b).toNat = a.toNat * 2 ^ m + b.toNat := by
  rw [BitVec.toNat_append, ← Nat.shiftLeft_add_eq_or_of_lt b.isLt, Nat.shiftLeft_eq]

theorem ofBool_toNat (b : Bool) : (BitVec.ofBool b).toNat = b.toNat := by cases b <;> rfl

theorem bitsValue_append (l : Code) (b : Bool) : bitsValue (l ++ [b]) = 2 * bitsValue l + b.toNat := by
  simp [bitsValue]

theorem bitsValue_lt (l : Code) : bitsValue l < 2 ^ l.length := by
  induction l using List.reverseRecOn with
  | nil => simp [bitsValue]
  | append_singleton l b ih =>
    rw [bitsValue_append, List.length_append, List.length_singleton, pow_succ]
    have := Bool.toNat_lt b
    omega

/-- Bit index `t` of a string is bit `length - 1 - t` of its value (R14). -/
theorem bitsValue_testBit (l : Code) (t : Nat) (h : t < l.length) :
    (bitsValue l).testBit (l.length - 1 - t) = l.getD t false := by
  induction l using List.reverseRecOn generalizing t with
  | nil => simp at h
  | append_singleton l b ih =>
    rw [bitsValue_append, List.length_append, List.length_singleton]
    rw [List.length_append, List.length_singleton] at h
    by_cases ht : t = l.length
    · subst ht
      simp [Nat.testBit_zero]
      cases b <;> simp
    · have h1 : l.length + 1 - 1 - t = (l.length - 1 - t) + 1 := by omega
      have h2 : (2 * bitsValue l + b.toNat) / 2 = bitsValue l := by have := Bool.toNat_lt b; omega
      rw [h1, Nat.testBit_succ, h2, ih t (by omega), List.getD_append _ _ _ _ (by omega)]

/-! ### Big-endian words -/

@[simp] theorem length_bytesBE32 (v : Word) : (bytesBE32 v).length = 4 := rfl

/-- Reading a word back from the four bytes a writer wrote (R126). -/
theorem be32_bytesBE32 (v : Word) :
    be32 (v.extractLsb' 24 8) (v.extractLsb' 16 8) (v.extractLsb' 8 8) (v.extractLsb' 0 8) = v := by
  unfold be32
  ext i hi
  simp only [BitVec.getElem_append, BitVec.getElem_extractLsb']
  split
  · simp [hi]
  · split
    · rw [← BitVec.getLsbD_eq_getElem]; congr 1; omega
    · split
      · rw [← BitVec.getLsbD_eq_getElem]; congr 1; omega
      · rw [← BitVec.getLsbD_eq_getElem]; congr 1; omega

end Sys2Proof.Machine
end

