-- ==== Sys2Proof/Laws/Memory.lean ====
section
/-! SUPPORT. System memory: a read after a write, the canonical form, and what the draws of a failed command touch. -/

namespace Sys2Proof.Machine

theorem readMem_filter_ne (m : Memory) (a b : Word) (h : b ≠ a) :
    readMem (m.filter fun c => c.1 ≠ a.toNat) b = readMem m b := by
  induction m with
  | nil => rfl
  | cons c rest ih =>
    have hba : a.toNat ≠ b.toNat := fun e => h (BitVec.eq_of_toNat_eq e.symm)
    by_cases hc : c.1 = a.toNat
    · have : c.1 ≠ b.toNat := by omega
      rw [List.filter_cons_of_neg (by simpa using hc), ih]
      simp [readMem, this]
    · rw [List.filter_cons_of_pos (by simpa using hc)]
      simp only [readMem, ih]

theorem readMem_filter_eq (m : Memory) (a : Word) : readMem (m.filter fun c => c.1 ≠ a.toNat) a = 0#8 := by
  induction m with
  | nil => rfl
  | cons c rest ih =>
    by_cases hc : c.1 = a.toNat
    · rwa [List.filter_cons_of_neg (by simpa using hc)]
    · rw [List.filter_cons_of_pos (by simpa using hc)]
      simp only [readMem, hc, if_false, ih]

theorem readMem_insertCell (m : Memory) (a b : Word) (v : Byte) (h : ∀ c ∈ m, c.1 ≠ a.toNat) :
    readMem (insertCell (a.toNat, v) m) b = if b = a then v else readMem m b := by
  induction m with
  | nil =>
    by_cases hb : b = a
    · simp [insertCell, readMem, hb]
    · have : a.toNat ≠ b.toNat := fun e => hb (BitVec.eq_of_toNat_eq e.symm)
      simp [insertCell, readMem, hb, this]
  | cons c rest ih =>
    have hrest := ih fun d hd => h d (List.mem_cons_of_mem _ hd)
    have hc : c.1 ≠ a.toNat := h c List.mem_cons_self
    by_cases hb : b = a
    · subst hb
      by_cases hlt : b.toNat < c.1
      · simp [insertCell, hlt, readMem]
      · simpa [insertCell, hlt, readMem, hc] using hrest
    · have hne : a.toNat ≠ b.toNat := fun e => hb (BitVec.eq_of_toNat_eq e.symm)
      by_cases hlt : a.toNat < c.1
      · simp [insertCell, hlt, readMem, hb, hne]
      · simp only [hb, if_false] at hrest
        simp [insertCell, hlt, readMem, hb, hrest]

/-- A read after a write: the written byte at its address, every other byte as before. It needs no canonical form. -/
theorem readMem_writeMem (m : Memory) (a b : Word) (v : Byte) :
    readMem (writeMem m a v) b = if b = a then v else readMem m b := by
  unfold writeMem
  split
  · next hv =>
    by_cases hb : b = a
    · rw [if_pos hb, hb, hv]; exact readMem_filter_eq m a
    · rw [if_neg hb, readMem_filter_ne m a b hb]
  · rw [readMem_insertCell _ a b v (by simp)]
    by_cases hb : b = a
    · simp [hb]
    · rw [if_neg hb, if_neg hb, readMem_filter_ne m a b hb]

@[simp] theorem readMem_writeMem_same (m : Memory) (a : Word) (v : Byte) : readMem (writeMem m a v) a = v := by
  simp [readMem_writeMem]

theorem readMem_writeMem_ne (m : Memory) {a b : Word} (v : Byte) (h : b ≠ a) :
    readMem (writeMem m a v) b = readMem m b := by simp [readMem_writeMem, h]

theorem mem_insertCell {c d : Host.Cell} {m : Memory} : d ∈ insertCell c m ↔ d = c ∨ d ∈ m := by
  induction m with
  | nil => simp [insertCell]
  | cons e rest ih =>
    unfold insertCell
    split
    · simp
    · simp only [List.mem_cons, ih]; tauto

theorem pairwise_insertCell {c : Host.Cell} {m : Memory} (h : m.Pairwise fun x y => x.1 < y.1)
    (hc : ∀ d ∈ m, d.1 ≠ c.1) : (insertCell c m).Pairwise fun x y => x.1 < y.1 := by
  induction m with
  | nil => simp [insertCell]
  | cons e rest ih =>
    have he : e.1 ≠ c.1 := hc e List.mem_cons_self
    rw [List.pairwise_cons] at h
    unfold insertCell
    split
    · next hlt =>
      refine List.pairwise_cons.2 ⟨fun d hd => ?_, List.pairwise_cons.2 h⟩
      rcases List.mem_cons.1 hd with rfl | hd
      · exact hlt
      · exact lt_trans hlt (h.1 d hd)
    · next hlt =>
      refine List.pairwise_cons.2 ⟨fun d hd => ?_, ih h.2 fun d hd => hc d (List.mem_cons_of_mem _ hd)⟩
      rcases mem_insertCell.1 hd with rfl | hd
      · omega
      · exact h.1 d hd

/-- A write keeps the canonical form. -/
theorem wf_writeMem {m : Memory} (h : Memory.wf m) (a : Word) (v : Byte) : Memory.wf (writeMem m a v) := by
  have hf : Memory.wf (m.filter fun c => c.1 ≠ a.toNat) :=
    ⟨h.1.filter _, fun c hc => h.2 c (List.mem_filter.1 hc).1⟩
  unfold writeMem
  split
  · exact hf
  · next hv =>
    refine ⟨pairwise_insertCell hf.1 (by simp), fun c hc => ?_⟩
    rcases mem_insertCell.1 hc with rfl | hc
    · exact ⟨a.isLt, hv⟩
    · exact hf.2 c hc

theorem wf_nil : Memory.wf [] := ⟨List.Pairwise.nil, by simp⟩

/-- The memory of the state after reset has the canonical form. -/
theorem wf_reset : Memory.wf State.reset.mem := wf_nil

/-! ### Ranges of bytes -/

@[simp] theorem length_bytesAt (m : Memory) (a : Word) (n : Nat) : (bytesAt m a n).length = n := by
  induction n generalizing a with
  | zero => rfl
  | succ n ih => simp [bytesAt, ih]

/-- Byte `k` of a range is the byte at address `a + k`. -/
theorem getElem_bytesAt (m : Memory) (a : Word) (n k : Nat) (h : k < (bytesAt m a n).length) :
    (bytesAt m a n)[k] = readMem m (a + BitVec.ofNat 32 k) := by
  induction n generalizing a k with
  | zero => simp [bytesAt] at h
  | succ n ih =>
    cases k with
    | zero => simp [bytesAt]
    | succ k =>
      have hk : k < (bytesAt m (a + 1#32) n).length := by simpa using h
      have hs : BitVec.ofNat 32 (k + 1) = 1#32 + BitVec.ofNat 32 k := by
        rw [Nat.add_comm, BitVec.ofNat_add]
      simp only [bytesAt, List.getElem_cons_succ, ih _ _ hk, hs, BitVec.add_assoc]

theorem bytesAt_append (m : Memory) (a : Word) (i j : Nat) :
    bytesAt m a (i + j) = bytesAt m a i ++ bytesAt m (a + BitVec.ofNat 32 i) j := by
  induction i generalizing a with
  | zero => simp [bytesAt]
  | succ i ih =>
    have hs : a + 1#32 + BitVec.ofNat 32 i = a + BitVec.ofNat 32 (i + 1) := by
      rw [Nat.add_comm i 1, BitVec.ofNat_add, BitVec.add_assoc]
    rw [Nat.succ_add, bytesAt, ih, bytesAt, hs, List.cons_append]

/-- Two memories that read alike over a range hold the same bytes there. -/
theorem bytesAt_congr {m m' : Memory} {a : Word} {n : Nat}
    (h : ∀ k, k < n → readMem m (a + BitVec.ofNat 32 k) = readMem m' (a + BitVec.ofNat 32 k)) :
    bytesAt m a n = bytesAt m' a n := by
  refine List.ext_getElem (by simp) fun k h1 h2 => ?_
  rw [getElem_bytesAt, getElem_bytesAt]
  exact h k (by simpa using h1)

/-! ### Draws in the window -/

/-- What the draws of a failed command leave: a draw at each writable address of the range, every other byte as before. -/
theorem readMem_drawBytes (p : Platform) (draw : Nat) (m : Memory) (a n : Nat) (b : Word) :
    readMem (drawBytes p draw m a n) b =
      if a ≤ b.toNat ∧ b.toNat < a + n ∧ memWOk p b = true then Config.freeByte draw b else readMem m b := by
  induction n generalizing m a with
  | zero => simp [drawBytes]; omega
  | succ n ih =>
    rw [drawBytes, ih]
    by_cases hb : b.toNat = a
    · have hab : BitVec.ofNat 32 a = b := by rw [← hb]; simp
      have hlt : a < 2 ^ 32 := hb ▸ b.isLt
      have h1 : ¬ (a + 1 ≤ b.toNat) := by omega
      simp only [h1, false_and, if_false, hlt, true_and, hab]
      by_cases hw : memWOk p b = true
      · simp [hw, hb]
      · simp [hw]
    · have hne : a < 2 ^ 32 → b ≠ BitVec.ofNat 32 a := by
        intro hlt e
        rw [e, BitVec.toNat_ofNat, Nat.mod_eq_of_lt hlt] at hb
        exact hb rfl
      have hrd : readMem (if a < 2 ^ 32 ∧ memWOk p (BitVec.ofNat 32 a) = true then
          writeMem m (BitVec.ofNat 32 a) (Config.freeByte draw (BitVec.ofNat 32 a)) else m) b = readMem m b := by
        split
        · next h => exact readMem_writeMem_ne m _ (hne h.1)
        · rfl
      rw [hrd]
      have : (a + 1 ≤ b.toNat ∧ b.toNat < a + 1 + n ∧ memWOk p b = true) ↔
          (a ≤ b.toNat ∧ b.toNat < a + (n + 1) ∧ memWOk p b = true) := by
        constructor <;> rintro ⟨h1, h2, h3⟩ <;> exact ⟨by omega, by omega, h3⟩
      simp only [this]

theorem wf_drawBytes (p : Platform) (draw : Nat) {m : Memory} (a n : Nat) (h : Memory.wf m) :
    Memory.wf (drawBytes p draw m a n) := by
  induction n generalizing m a with
  | zero => exact h
  | succ n ih =>
    rw [drawBytes]
    refine ih _ ?_
    split
    · exact wf_writeMem h _ _
    · exact h

/-- Everything a failed or abandoned command does to memory (R88, R159). -/
theorem readMem_spoilWindow (s : State) (b : Word) :
    readMem s.spoilWindow.mem b =
      if inWindow s b = true ∧ memWOk s.platform b = true then Config.freeByte s.draws b else readMem s.mem b := by
  rw [State.spoilWindow_mem, readMem_drawBytes]
  simp [inWindow, and_assoc]

theorem wf_spoilWindow {s : State} (h : Memory.wf s.mem) : Memory.wf s.spoilWindow.mem :=
  wf_drawBytes _ _ _ _ h

end Sys2Proof.Machine
end

