-- ==== Sys2Proof/Laws/Pack.lean ====
section
/-! SUPPORT. The bit accumulator of the encoder (R224, R225) against the packed bitstream of R131, and the splicing
of chunk buffers (R227). -/

namespace Sys2Proof.Machine

theorem ceil8_add_eight (n : Nat) : ceil8 (n + 8) = ceil8 n + 1 := by unfold ceil8; omega

@[simp] theorem length_packBits (bits : Code) : (packBits bits).length = ceil8 bits.length := by simp [packBits]

@[simp] theorem packBits_nil : packBits [] = [] := rfl

/-- Eight bits at the front of a bitstream are its first payload byte. -/
theorem packBits_eight (b0 b1 b2 b3 b4 b5 b6 b7 : Bool) (rest : Code) :
    packBits (b0 :: b1 :: b2 :: b3 :: b4 :: b5 :: b6 :: b7 :: rest) =
      byteOfBits [b0, b1, b2, b3, b4, b5, b6, b7] :: packBits rest := by
  unfold packBits
  have hlen : (b0 :: b1 :: b2 :: b3 :: b4 :: b5 :: b6 :: b7 :: rest).length = rest.length + 8 := by simp
  rw [hlen, ceil8_add_eight, List.range_succ_eq_map (n := ceil8 rest.length), List.map_cons, List.map_map]
  refine congrArg₂ _ ?_ (List.map_congr_left fun q _ => ?_)
  · rfl
  · simp only [Function.comp]
    refine congrArg _ (List.map_congr_left fun t _ => ?_)
    have : 8 * (q + 1) + t = (8 * q + t) + 8 := by omega
    rw [Nat.succ_eq_add_one, this]
    rfl

/-- Fewer than eight bits make the final byte of R225. -/
theorem packBits_short (bits : Code) (h : bits.length < 8) :
    packBits bits = if bits = [] then [] else [finalByte bits] := by
  match bits, h with
  | [], _ => rfl
  | [a0], _ => clear h; revert a0; decide
  | [a0, a1], _ => clear h; revert a0 a1; decide
  | [a0, a1, a2], _ => clear h; revert a0 a1 a2; decide
  | [a0, a1, a2, a3], _ => clear h; revert a0 a1 a2 a3; decide
  | [a0, a1, a2, a3, a4], _ => clear h; revert a0 a1 a2 a3 a4; decide
  | [a0, a1, a2, a3, a4, a5], _ => clear h; revert a0 a1 a2 a3 a4 a5; decide
  | [a0, a1, a2, a3, a4, a5, a6], _ => clear h; revert a0 a1 a2 a3 a4 a5 a6; decide
  | _ :: _ :: _ :: _ :: _ :: _ :: _ :: _ :: _, h => simp at h; omega

/-- Induction on a bit string by its whole bytes: the shape of the accumulator. -/
theorem eightInduction {P : Code → Prop} (short : ∀ bits : Code, bits.length < 8 → P bits)
    (eight : ∀ b0 b1 b2 b3 b4 b5 b6 b7 rest, P rest → P (b0 :: b1 :: b2 :: b3 :: b4 :: b5 :: b6 :: b7 :: rest))
    (bits : Code) : P bits := by
  induction hn : bits.length using Nat.strong_induction_on generalizing bits with
  | _ n ih =>
    match bits, hn with
    | b0 :: b1 :: b2 :: b3 :: b4 :: b5 :: b6 :: b7 :: rest, hn =>
      exact eight _ _ _ _ _ _ _ _ _ (ih rest.length (by simp at hn; omega) rest rfl)
    | [], _ => exact short _ (by simp)
    | [_], _ => exact short _ (by simp)
    | [_, _], _ => exact short _ (by simp)
    | [_, _, _], _ => exact short _ (by simp)
    | [_, _, _, _], _ => exact short _ (by simp)
    | [_, _, _, _, _], _ => exact short _ (by simp)
    | [_, _, _, _, _, _], _ => exact short _ (by simp)
    | [_, _, _, _, _, _, _], _ => exact short _ (by simp)

theorem fullBytes_short (bits : Code) (h : bits.length < 8) : fullBytes bits = [] ∧ leftover bits = bits := by
  match bits, h with
  | [], _ => exact ⟨rfl, rfl⟩
  | [_], _ => exact ⟨rfl, rfl⟩
  | [_, _], _ => exact ⟨rfl, rfl⟩
  | [_, _, _], _ => exact ⟨rfl, rfl⟩
  | [_, _, _, _], _ => exact ⟨rfl, rfl⟩
  | [_, _, _, _, _], _ => exact ⟨rfl, rfl⟩
  | [_, _, _, _, _, _], _ => exact ⟨rfl, rfl⟩
  | [_, _, _, _, _, _, _], _ => exact ⟨rfl, rfl⟩
  | _ :: _ :: _ :: _ :: _ :: _ :: _ :: _ :: _, h => simp at h; omega

theorem length_leftover_lt (bits : Code) : (leftover bits).length < 8 := by
  induction bits using eightInduction with
  | short bits h => rwa [(fullBytes_short bits h).2]
  | eight b0 b1 b2 b3 b4 b5 b6 b7 rest ih => exact ih

theorem length_fullBytes (bits : Code) : 8 * (fullBytes bits).length + (leftover bits).length = bits.length := by
  induction bits using eightInduction with
  | short bits h => simp [fullBytes_short bits h]
  | eight b0 b1 b2 b3 b4 b5 b6 b7 rest ih =>
    simp only [fullBytes, leftover, List.length_cons]; omega

/-- The accumulator split: the bytes that left and the final byte are the packed bitstream. -/
theorem packBits_eq (bits : Code) :
    packBits bits = fullBytes bits ++ (if leftover bits = [] then [] else [finalByte (leftover bits)]) := by
  induction bits using eightInduction with
  | short bits h => rw [packBits_short bits h, (fullBytes_short bits h).1, (fullBytes_short bits h).2]; rfl
  | eight b0 b1 b2 b3 b4 b5 b6 b7 rest ih => rw [packBits_eight, ih]; rfl

/-- Bits that arrive later join what the accumulator kept (R224). -/
theorem fullBytes_append (bits more : Code) :
    fullBytes (bits ++ more) = fullBytes bits ++ fullBytes (leftover bits ++ more) ∧
      leftover (bits ++ more) = leftover (leftover bits ++ more) := by
  induction bits using eightInduction with
  | short bits h => simp [fullBytes_short bits h]
  | eight b0 b1 b2 b3 b4 b5 b6 b7 rest ih =>
    simp only [List.cons_append, fullBytes, leftover]
    exact ⟨by rw [ih.1], ih.2⟩

theorem byteOfBits_or (p bits : Code) (h : p.length + bits.length ≤ 8) :
    byteOfBits (p ++ List.replicate (8 - p.length) false) |||
        byteOfBits (List.replicate p.length false ++ (bits ++ List.replicate (8 - p.length - bits.length) false)) =
      byteOfBits (p ++ (bits ++ List.replicate (8 - p.length - bits.length) false)) := by
  have key : ∀ (n : Nat) (p q : Code), p.length + q.length = n → n = 8 →
      byteOfBits (p ++ List.replicate q.length false) ||| byteOfBits (List.replicate p.length false ++ q) =
        byteOfBits (p ++ q) := by
    intro n p q hn h8
    subst h8
    obtain ⟨r, hr⟩ : ∃ r : List Bool, r = p ++ q := ⟨_, rfl⟩
    have hp : p = r.take p.length := by simp [hr]
    have hq : q = r.drop p.length := by simp [hr]
    have hrl : r.length = 8 := by simp [hr, hn]
    have hpl : p.length ≤ 8 := by omega
    generalize hk : p.length = k at *
    have hql : q.length = 8 - k := by omega
    rw [hql, hp, hq]
    clear hn hr hp hq hql hk p q
    match r, hrl with
    | [a0, a1, a2, a3, a4, a5, a6, a7], _ =>
      have : k = 0 ∨ k = 1 ∨ k = 2 ∨ k = 3 ∨ k = 4 ∨ k = 5 ∨ k = 6 ∨ k = 7 ∨ k = 8 := by omega
      rcases this with rfl | rfl | rfl | rfl | rfl | rfl | rfl | rfl | rfl <;>
        revert a0 a1 a2 a3 a4 a5 a6 a7 <;> decide +kernel
  have := key 8 p (bits ++ List.replicate (8 - p.length - bits.length) false) (by simp; omega) rfl
  rw [← this]
  congr 4
  simp; omega

theorem packBits_append_eight (l rest : Code) (h : l.length = 8) :
    packBits (l ++ rest) = byteOfBits l :: packBits rest := by
  match l, h with
  | [b0, b1, b2, b3, b4, b5, b6, b7], _ => exact packBits_eight b0 b1 b2 b3 b4 b5 b6 b7 rest

/-- Splicing at a phase that is not 0 touches the last byte only. -/
theorem splice_cons (b : Byte) (out : List Byte) (p : Nat) (buffer : List Byte) (h : p ≠ 0 → out ≠ []) :
    splice (b :: out) p buffer = b :: splice out p buffer := by
  unfold splice
  split
  · rfl
  · next hp =>
    obtain ⟨c, rest, rfl⟩ := List.exists_cons_of_ne_nil (h hp)
    cases buffer with
    | nil => rfl
    | cons d rest' => simp

/-- Stitching one more chunk buffer gives the packed bitstream of all the bits (R227 step 5). -/
theorem splice_packBits (bits more : Code) :
    splice (packBits bits) (bits.length % 8) (packBits (List.replicate (bits.length % 8) false ++ more)) =
      packBits (bits ++ more) := by
  induction bits using eightInduction with
  | eight b0 b1 b2 b3 b4 b5 b6 b7 rest ih =>
    have hl : (b0 :: b1 :: b2 :: b3 :: b4 :: b5 :: b6 :: b7 :: rest).length % 8 = rest.length % 8 := by
      simp only [List.length_cons]; omega
    rw [hl, packBits_eight, splice_cons, ih]
    · simp only [List.cons_append, packBits_eight]
    · intro hp hnil
      have := congrArg List.length hnil
      simp [ceil8] at this
      omega
  | short bits h =>
    rw [Nat.mod_eq_of_lt h]
    by_cases h0 : bits = []
    · simp [h0, splice]
    have hp : bits.length ≠ 0 := by simpa using h0
    rw [packBits_short bits h, if_neg h0]
    by_cases hm : bits.length + more.length < 8
    · have e1 : packBits (List.replicate bits.length false ++ more) =
          [finalByte (List.replicate bits.length false ++ more)] := by
        rw [packBits_short _ (by simp; omega), if_neg (by simp [h0])]
      have e2 : packBits (bits ++ more) = [finalByte (bits ++ more)] := by
        rw [packBits_short _ (by simp; omega), if_neg (by simp [h0])]
      rw [e1, e2]
      have := byteOfBits_or bits more (by omega)
      simp only [splice, hp, if_false, List.dropLast_singleton, List.nil_append, List.getLastD_cons, List.getLastD_nil]
      simp only [finalByte, List.length_append, List.length_replicate, List.append_assoc, Nat.sub_add_eq]
      rw [this]
    · have e1 : packBits (List.replicate bits.length false ++ more) =
          byteOfBits (List.replicate bits.length false ++ more.take (8 - bits.length)) ::
            packBits (more.drop (8 - bits.length)) := by
        rw [← packBits_append_eight _ _ (by simp; omega), List.append_assoc, List.take_append_drop]
      have e2 : packBits (bits ++ more) =
          byteOfBits (bits ++ more.take (8 - bits.length)) :: packBits (more.drop (8 - bits.length)) := by
        rw [← packBits_append_eight _ _ (by simp; omega), List.append_assoc, List.take_append_drop]
      rw [e1, e2]
      have := byteOfBits_or bits (more.take (8 - bits.length)) (by simp; omega)
      have hz : 8 - bits.length - (more.take (8 - bits.length)).length = 0 := by simp; omega
      rw [hz] at this
      simp only [List.replicate_zero, List.append_nil] at this
      simp only [splice, hp, if_false, List.dropLast_singleton, List.nil_append, List.getLastD_cons, List.getLastD_nil,
        finalByte]
      rw [this]

theorem length_sourceBits (code : Byte → Code) (src : List Byte) :
    (sourceBits code src).length = chunkBits code src := by
  simp [sourceBits, chunkBits, List.length_flatMap]

theorem sourceBits_append (code : Byte → Code) (xs ys : List Byte) :
    sourceBits code (xs ++ ys) = sourceBits code xs ++ sourceBits code ys := by simp [sourceBits]

/-- Bits that leave as whole bytes, then the rest of the stream (R224). -/
theorem packBits_append (bits more : Code) :
    packBits (bits ++ more) = fullBytes bits ++ packBits (leftover bits ++ more) := by
  rw [packBits_eq, packBits_eq (leftover bits ++ more), (fullBytes_append bits more).1, (fullBytes_append bits more).2,
    List.append_assoc]

end Sys2Proof.Machine
end

