-- ==== Sys2Proof/Laws/Encode.lean ====
section
/-! SUPPORT. The encode stage (R220): what the sink holds after each write, what a successful payload loop wrote,
when it succeeds, and which errors it can raise. -/

namespace Sys2Proof.Machine

/-! ### Reading -/

theorem memRead_ok {s : State} {a : Word} {b : Byte} (h : memRead s a = .ok b) :
    memROk s.platform a = true ∧ b = readMem s.mem a := by
  unfold memRead at h
  split at h
  · next hr => exact ⟨hr, by cases h; rfl⟩
  · cases h

theorem memRead_error {s : State} {a : Word} {e : CmdError} (h : memRead s a = .error e) :
    memROk s.platform a = false ∧ e = ⟨.ioRead, a, 0#32⟩ := by
  unfold memRead at h
  split at h
  · cases h
  · next hr => exact ⟨by simpa using hr, by cases h; rfl⟩

theorem memRead_of_ok {s : State} {a : Word} (h : memROk s.platform a = true) :
    memRead s a = .ok (readMem s.mem a) := by simp [memRead, h]

theorem add_ofNat_succ (a : Word) (k : Nat) : a + BitVec.ofNat 32 (k + 1) = a + 1#32 + BitVec.ofNat 32 k := by
  rw [Nat.add_comm, BitVec.ofNat_add, BitVec.add_assoc]

/-- A range that reads answers its bytes. -/
theorem readBytes_of_ok {s : State} {a : Word} {n : Nat}
    (h : ∀ k, k < n → memROk s.platform (a + BitVec.ofNat 32 k) = true) :
    readBytes s a n = .ok (bytesAt s.mem a n) := by
  induction n generalizing a with
  | zero => rfl
  | succ n ih =>
    have h0 : memROk s.platform a = true := by simpa using h 0 (by omega)
    have := ih (a := a + 1#32) fun k hk => by rw [← add_ofNat_succ]; exact h (k + 1) (by omega)
    simp [readBytes, memRead_of_ok h0, this, bytesAt]

/-- What a read of a range answers: all its bytes, or the record of its lowest address that fails (R170). -/
theorem readBytes_cases (s : State) (a : Word) (n : Nat) :
    ((∀ k, k < n → memROk s.platform (a + BitVec.ofNat 32 k) = true) ∧ readBytes s a n = .ok (bytesAt s.mem a n)) ∨
      ∃ k, k < n ∧ (∀ j, j < k → memROk s.platform (a + BitVec.ofNat 32 j) = true) ∧
        memROk s.platform (a + BitVec.ofNat 32 k) = false ∧
        readBytes s a n = .error ⟨.ioRead, a + BitVec.ofNat 32 k, 0#32⟩ := by
  induction n generalizing a with
  | zero => exact .inl ⟨fun k hk => absurd hk (by omega), rfl⟩
  | succ n ih =>
    by_cases h0 : memROk s.platform a = true
    · rcases ih (a + 1#32) with ⟨hall, hr⟩ | ⟨k, hk, hlow, hf, hr⟩
      · refine .inl ⟨fun k hk => ?_, by simp [readBytes, memRead_of_ok h0, hr, bytesAt]⟩
        cases k with
        | zero => simpa using h0
        | succ k => rw [add_ofNat_succ]; exact hall k (by omega)
      · refine .inr ⟨k + 1, by omega, fun j hj => ?_, by rw [add_ofNat_succ]; exact hf, ?_⟩
        · cases j with
          | zero => simpa using h0
          | succ j => rw [add_ofNat_succ]; exact hlow j (by omega)
        · rw [add_ofNat_succ]; simp only [readBytes, memRead_of_ok h0, hr]
    · refine .inr ⟨0, by omega, fun j hj => absurd hj (by omega), by simpa using h0, ?_⟩
      simp [readBytes, memRead, h0]

/-! ### The sink -/

/-- The sink has written exactly `l`, from the window's first byte on. -/
structure SinkHolds (s : State) (l : List Byte) (k : Sink) : Prop where
  offset   : k.offset = l.length
  fits     : l.length ≤ s.dstCap.toNat
  writable : ∀ i, i < l.length → memWOk s.platform (s.dstAddr + BitVec.ofNat 32 i) = true
  inside   : ∀ i (h : i < l.length), readMem k.mem (s.dstAddr + BitVec.ofNat 32 i) = l[i]
  outside  : ∀ a, (∀ i, i < l.length → a ≠ s.dstAddr + BitVec.ofNat 32 i) → readMem k.mem a = readMem s.mem a
  wf       : Memory.wf s.mem → Memory.wf k.mem

theorem sinkHolds_nil (s : State) : SinkHolds s [] ⟨0, s.mem⟩ where
  offset := rfl
  fits := by simp
  writable i h := absurd h (by simp)
  inside i h := absurd h (by simp)
  outside _ _ := rfl
  wf h := h

theorem window_addr_ne (d : Word) {i j : Nat} (hi : i < 2 ^ 32) (hj : j < 2 ^ 32) (h : i ≠ j) :
    d + BitVec.ofNat 32 i ≠ d + BitVec.ofNat 32 j := by
  intro e
  have := congrArg BitVec.toNat ((BitVec.add_right_inj d).1 e)
  simp only [BitVec.toNat_ofNat, Nat.mod_eq_of_lt hi, Nat.mod_eq_of_lt hj] at this
  exact h this

/-- Everything Emit(v) can do (R220). -/
theorem emit_cases (s : State) (k : Sink) (v : Byte) :
    (s.dstCap.toNat ≤ k.offset ∧ emit s k v = .error ⟨.ioSinkFull, s.dstAddr + s.dstCap, 0#32⟩) ∨
    (k.offset < s.dstCap.toNat ∧ memWOk s.platform (s.dstAddr + BitVec.ofNat 32 k.offset) = false ∧
      emit s k v = .error ⟨.ioWrite, s.dstAddr + BitVec.ofNat 32 k.offset, 0#32⟩) ∨
    (k.offset < s.dstCap.toNat ∧ memWOk s.platform (s.dstAddr + BitVec.ofNat 32 k.offset) = true ∧
      emit s k v = .ok ⟨k.offset + 1, writeMem k.mem (s.dstAddr + BitVec.ofNat 32 k.offset) v⟩) := by
  unfold emit memWrite
  by_cases hc : s.dstCap.toNat ≤ k.offset
  · exact .inl ⟨hc, by simp [hc]⟩
  · by_cases hw : memWOk s.platform (s.dstAddr + BitVec.ofNat 32 k.offset) = true
    · exact .inr (.inr ⟨by omega, hw, by simp [hc, hw]⟩)
    · exact .inr (.inl ⟨by omega, by simpa using hw, by simp [hc, hw]⟩)

/-- One more byte in the sink. -/
theorem sinkHolds_emit {s : State} {l : List Byte} {k k' : Sink} {v : Byte} (hs : SinkHolds s l k)
    (h : emit s k v = .ok k') : SinkHolds s (l ++ [v]) k' := by
  have hcap := s.dstCap.isLt
  rcases emit_cases s k v with ⟨-, he⟩ | ⟨-, -, he⟩ | ⟨hc, hw, he⟩
  · rw [h] at he; cases he
  · rw [h] at he; cases he
  rw [h] at he
  cases he
  rw [hs.offset] at hc hw ⊢
  refine ⟨by simp, by simp; omega, fun i hi => ?_, fun i hi => ?_, fun a ha => ?_, fun hwf => wf_writeMem (hs.wf hwf) _ _⟩
  · by_cases hil : i < l.length
    · exact hs.writable i hil
    · have : i = l.length := by simp at hi; omega
      rwa [this]
  · by_cases hil : i < l.length
    · rw [readMem_writeMem_ne _ _ (window_addr_ne _ (by omega) (by omega) (by omega)), hs.inside i hil,
        List.getElem_append_left hil]
    · have : i = l.length := by simp at hi; omega
      subst this
      simp
  · rw [readMem_writeMem_ne _ _ (ha l.length (by simp))]
    exact hs.outside a fun i hi => ha i (by simp; omega)

theorem sinkHolds_emitAll {s : State} {l bs : List Byte} {k k' : Sink} (hs : SinkHolds s l k)
    (h : emitAll s k bs = .ok k') : SinkHolds s (l ++ bs) k' := by
  induction bs generalizing l k with
  | nil => cases h; simpa using hs
  | cons v rest ih =>
    rw [emitAll] at h
    split at h
    · cases h
    · next k1 he =>
      have := ih (sinkHolds_emit hs he) h
      simpa using this

/-- A byte that fits and is writable is emitted. -/
theorem emit_of_fits {s : State} {l : List Byte} {k : Sink} (hs : SinkHolds s l k) (v : Byte)
    (hc : l.length < s.dstCap.toNat) (hw : memWOk s.platform (s.dstAddr + BitVec.ofNat 32 l.length) = true) :
    ∃ k', emit s k v = .ok k' := by
  rcases emit_cases s k v with ⟨hc', -⟩ | ⟨-, hw', -⟩ | ⟨-, -, he⟩
  · rw [hs.offset] at hc'; omega
  · rw [hs.offset, hw] at hw'; cases hw'
  · exact ⟨_, he⟩

theorem emitAll_of_fits {s : State} {l bs : List Byte} {k : Sink} (hs : SinkHolds s l k)
    (hc : l.length + bs.length ≤ s.dstCap.toNat)
    (hw : ∀ i, i < l.length + bs.length → memWOk s.platform (s.dstAddr + BitVec.ofNat 32 i) = true) :
    ∃ k', emitAll s k bs = .ok k' := by
  induction bs generalizing l k with
  | nil => exact ⟨k, rfl⟩
  | cons v rest ih =>
    simp only [List.length_cons] at hc hw
    obtain ⟨k1, h1⟩ := emit_of_fits hs v (by omega) (hw _ (by omega))
    obtain ⟨k2, h2⟩ := ih (sinkHolds_emit hs h1) (by simp; omega) fun i hi => hw i (by simp at hi; omega)
    exact ⟨k2, by rw [emitAll, h1]; exact h2⟩

/-- The error of a write into the window: SINK_FULL at the window's end, or WRITE at a byte of it that is not writable. -/
def SinkError (s : State) (e : CmdError) : Prop :=
  e = ⟨.ioSinkFull, s.dstAddr + s.dstCap, 0#32⟩ ∨
    ∃ i, i < s.dstCap.toNat ∧ memWOk s.platform (s.dstAddr + BitVec.ofNat 32 i) = false ∧
      e = ⟨.ioWrite, s.dstAddr + BitVec.ofNat 32 i, 0#32⟩

theorem emit_error {s : State} {k : Sink} {v : Byte} {e : CmdError} (h : emit s k v = .error e) : SinkError s e := by
  rcases emit_cases s k v with ⟨-, he⟩ | ⟨hc, hw, he⟩ | ⟨-, -, he⟩
  · rw [h] at he; cases he; exact .inl rfl
  · rw [h] at he; cases he; exact .inr ⟨_, hc, hw, rfl⟩
  · rw [h] at he; cases he

theorem emitAll_error {s : State} {k : Sink} {bs : List Byte} {e : CmdError} (h : emitAll s k bs = .error e) :
    SinkError s e := by
  induction bs generalizing k with
  | nil => cases h
  | cons v rest ih =>
    rw [emitAll] at h
    split at h
    · next he => cases h; exact emit_error he
    · exact ih h

/-! ### The payload loop -/

/-- What a successful payload loop wrote: the packed bitstream of the accumulator and the codes of the source bytes. -/
theorem payloadLoop_ok {s : State} {n : Nat} {a : Word} {acc : Code} {b b' : Nat} {l : List Byte} {k k' : Sink}
    (hs : SinkHolds s l k) (hacc : acc.length < 8) (h : payloadLoop s n a acc b k = .ok (k', b')) :
    SinkHolds s (l ++ packBits (acc ++ sourceBits s.code (bytesAt s.mem a n))) k' ∧
      b' = b + (sourceBits s.code (bytesAt s.mem a n)).length ∧
      (∀ i, i < n → memROk s.platform (a + BitVec.ofNat 32 i) = true) ∧
      ∀ x ∈ bytesAt s.mem a n, s.code x ≠ [] := by
  induction n generalizing a acc b l k with
  | zero =>
    simp only [bytesAt, sourceBits, List.flatMap_nil, List.append_nil, List.length_nil, Nat.add_zero]
    rw [payloadLoop] at h
    rw [packBits_short acc hacc]
    split at h
    · next h0 => cases h; simp [h0, hs]
    · next h0 =>
      split at h
      · cases h
      · next he => cases h; simpa [h0] using sinkHolds_emit hs he
  | succ n ih =>
    rw [payloadLoop] at h
    split at h
    · cases h
    · next x hx =>
      obtain ⟨hr, rfl⟩ := memRead_ok hx
      split at h
      · cases h
      · next hcode =>
        split at h
        · cases h
        · next k1 he =>
          obtain ⟨h1, h2, h3, h4⟩ := ih (sinkHolds_emitAll hs he) (length_leftover_lt _) h
          have hb : sourceBits s.code (bytesAt s.mem a (n + 1)) =
              s.code (readMem s.mem a) ++ sourceBits s.code (bytesAt s.mem (a + 1#32) n) := by
            simp [bytesAt, sourceBits]
          refine ⟨?_, ?_, fun i hi => ?_, fun x hx => ?_⟩
          · rw [hb, ← List.append_assoc, packBits_append, ← List.append_assoc]; exact h1
          · rw [h2, hb, List.length_append]; omega
          · cases i with
            | zero => simpa using hr
            | succ i => rw [add_ofNat_succ]; exact h3 i (by omega)
          · rcases List.mem_cons.1 hx with rfl | hx
            · exact hcode
            · exact h4 x hx

/-- When the payload loop succeeds: readable source bytes that have codes, and room and writable bytes for the payload. -/
theorem payloadLoop_of_fits {s : State} {n : Nat} {a : Word} {acc : Code} {b : Nat} {l : List Byte} {k : Sink}
    (hs : SinkHolds s l k) (hacc : acc.length < 8)
    (hr : ∀ i, i < n → memROk s.platform (a + BitVec.ofNat 32 i) = true)
    (hcode : ∀ x ∈ bytesAt s.mem a n, s.code x ≠ [])
    (hc : l.length + (packBits (acc ++ sourceBits s.code (bytesAt s.mem a n))).length ≤ s.dstCap.toNat)
    (hw : ∀ i, i < l.length + (packBits (acc ++ sourceBits s.code (bytesAt s.mem a n))).length →
      memWOk s.platform (s.dstAddr + BitVec.ofNat 32 i) = true) :
    ∃ r, payloadLoop s n a acc b k = .ok r := by
  induction n generalizing a acc b l k with
  | zero =>
    simp only [bytesAt, sourceBits, List.flatMap_nil, List.append_nil] at hc hw
    rw [payloadLoop]
    by_cases h0 : acc = []
    · exact ⟨(k, b), by rw [if_pos h0]⟩
    · rw [packBits_short acc hacc, if_neg h0] at hc hw
      obtain ⟨k', he⟩ := emit_of_fits hs (finalByte acc) (by simpa using hc) (hw _ (by simp))
      exact ⟨(k', b), by rw [if_neg h0, he]⟩
  | succ n ih =>
    have hb : sourceBits s.code (bytesAt s.mem a (n + 1)) =
        s.code (readMem s.mem a) ++ sourceBits s.code (bytesAt s.mem (a + 1#32) n) := by
      simp [bytesAt, sourceBits]
    rw [hb, ← List.append_assoc, packBits_append, List.length_append] at hc hw
    have hcx : s.code (readMem s.mem a) ≠ [] := hcode _ (by simp [bytesAt])
    obtain ⟨k1, h1⟩ := emitAll_of_fits (bs := fullBytes (acc ++ s.code (readMem s.mem a))) hs (by omega)
      fun i hi => hw i (by omega)
    have hr0 : memROk s.platform a = true := by simpa using hr 0 (by omega)
    obtain ⟨r, h2⟩ := ih (a := a + 1#32) (acc := leftover (acc ++ s.code (readMem s.mem a)))
      (b := b + (s.code (readMem s.mem a)).length) (sinkHolds_emitAll hs h1) (length_leftover_lt _)
      (fun i hi => by rw [← add_ofNat_succ]; exact hr (i + 1) (by omega))
      (fun x hx => hcode x (by simp [bytesAt, hx]))
      (by simp only [List.length_append] at hc ⊢; omega)
      (fun i hi => hw i (by simp only [List.length_append] at hi ⊢; omega))
    exact ⟨r, by rw [payloadLoop, memRead_of_ok hr0]; simp only [hcx, if_false, h1, h2]⟩

/-- Every error of the payload loop: a sink error, a source byte that does not read, or one that has no code. -/
theorem payloadLoop_error {s : State} {n : Nat} {a : Word} {acc : Code} {b : Nat} {k : Sink} {e : CmdError}
    (h : payloadLoop s n a acc b k = .error e) :
    SinkError s e ∨
      ∃ i, i < n ∧
        ((memROk s.platform (a + BitVec.ofNat 32 i) = false ∧ e = ⟨.ioRead, a + BitVec.ofNat 32 i, 0#32⟩) ∨
          (memROk s.platform (a + BitVec.ofNat 32 i) = true ∧ s.code (readMem s.mem (a + BitVec.ofNat 32 i)) = [] ∧
            e = ⟨.unknownSymbol, a + BitVec.ofNat 32 i, 0#24 ++ readMem s.mem (a + BitVec.ofNat 32 i)⟩)) := by
  induction n generalizing a acc b k with
  | zero =>
    rw [payloadLoop] at h
    split at h
    · cases h
    · split at h
      · next he => cases h; exact .inl (emit_error he)
      · cases h
  | succ n ih =>
    rw [payloadLoop] at h
    split at h
    · next he =>
      cases h
      obtain ⟨hr, rfl⟩ := memRead_error he
      exact .inr ⟨0, by omega, .inl (by simpa using hr)⟩
    · next x hx =>
      obtain ⟨hr, rfl⟩ := memRead_ok hx
      split at h
      · next hcode => cases h; exact .inr ⟨0, by omega, .inr (by simpa [hcode] using hr)⟩
      · split at h
        · next he => cases h; exact .inl (emitAll_error he)
        · rcases ih h with h | ⟨i, hi, h⟩
          · exact .inl h
          · exact .inr ⟨i + 1, by omega, by rw [add_ofNat_succ]; exact h⟩

/-! ### The encode stage -/

@[simp] theorem length_headerBytes (c : Word) (f : Table Word) : (headerBytes c f).length = 1028 := by
  have h : (symbols.flatMap fun x => bytesBE32 (entry f x)).length = symbols.length * 4 := by
    rw [List.length_flatMap]
    simp only [length_bytesBE32, List.map_const', List.sum_replicate, smul_eq_mul]
  rw [headerBytes, List.length_append, h, length_symbols, length_bytesBE32]

/-- A successful encode stage wrote the header and then the payload. -/
theorem encodeStage_split {s : State} {r : Sink × Nat} (h : encodeStage s = .ok r) :
    ∃ k0, emitAll s ⟨0, s.mem⟩ (headerBytes s.srcLen s.freq) = .ok k0 ∧
      payloadLoop s s.srcLen.toNat s.srcAddr [] 0 k0 = .ok r := by
  unfold encodeStage at h
  split at h
  · cases h
  · next k0 he => exact ⟨k0, he, h⟩

theorem encodeStage_join {s : State} {r : Sink × Nat} {k0 : Sink}
    (he : emitAll s ⟨0, s.mem⟩ (headerBytes s.srcLen s.freq) = .ok k0)
    (h : payloadLoop s s.srcLen.toNat s.srcAddr [] 0 k0 = .ok r) : encodeStage s = .ok r := by
  unfold encodeStage; rw [he]; exact h

theorem payload_after_header {s : State} {hdr : List Byte} {k0 k : Sink} {b : Nat}
    (he : emitAll s ⟨0, s.mem⟩ hdr = .ok k0) (h : payloadLoop s s.srcLen.toNat s.srcAddr [] 0 k0 = .ok (k, b)) :
    SinkHolds s (hdr ++ packBits (sourceBits s.code (bytesAt s.mem s.srcAddr s.srcLen.toNat))) k ∧
      b = (sourceBits s.code (bytesAt s.mem s.srcAddr s.srcLen.toNat)).length ∧
      (∀ i, i < s.srcLen.toNat → memROk s.platform (s.srcAddr + BitVec.ofNat 32 i) = true) ∧
      ∀ x ∈ bytesAt s.mem s.srcAddr s.srcLen.toNat, s.code x ≠ [] := by
  obtain ⟨h1, h2, h3⟩ := payloadLoop_ok (sinkHolds_emitAll (sinkHolds_nil s) he) (by simp) h
  exact ⟨h1, by simpa using h2, h3⟩

/-- What a successful encode stage wrote: the container of R125, its length and its payload bit count. -/
theorem encodeStage_ok {s : State} {k : Sink} {b : Nat} (h : encodeStage s = .ok (k, b)) :
    SinkHolds s (container s.srcLen s.freq s.code (bytesAt s.mem s.srcAddr s.srcLen.toNat)) k ∧
      b = (sourceBits s.code (bytesAt s.mem s.srcAddr s.srcLen.toNat)).length ∧
      (∀ i, i < s.srcLen.toNat → memROk s.platform (s.srcAddr + BitVec.ofNat 32 i) = true) ∧
      ∀ x ∈ bytesAt s.mem s.srcAddr s.srcLen.toNat, s.code x ≠ [] := by
  obtain ⟨k0, he, h⟩ := encodeStage_split h
  exact payload_after_header he h

theorem payload_after_header_of_fits {s : State} {hdr : List Byte}
    (hr : ∀ i, i < s.srcLen.toNat → memROk s.platform (s.srcAddr + BitVec.ofNat 32 i) = true)
    (hcode : ∀ x ∈ bytesAt s.mem s.srcAddr s.srcLen.toNat, s.code x ≠ [])
    (hc : hdr.length + (packBits (sourceBits s.code (bytesAt s.mem s.srcAddr s.srcLen.toNat))).length ≤ s.dstCap.toNat)
    (hw : ∀ i, i < hdr.length + (packBits (sourceBits s.code (bytesAt s.mem s.srcAddr s.srcLen.toNat))).length →
      memWOk s.platform (s.dstAddr + BitVec.ofNat 32 i) = true) :
    ∃ k0 r, emitAll s ⟨0, s.mem⟩ hdr = .ok k0 ∧ payloadLoop s s.srcLen.toNat s.srcAddr [] 0 k0 = .ok r := by
  obtain ⟨k0, he⟩ := emitAll_of_fits (bs := hdr) (sinkHolds_nil s)
    (by simp only [List.length_nil]; omega) fun i hi => hw i (by simp only [List.length_nil] at hi; omega)
  obtain ⟨r, h1⟩ := payloadLoop_of_fits (acc := []) (b := 0) (sinkHolds_emitAll (sinkHolds_nil s) he) (by simp) hr hcode
    hc hw
  exact ⟨k0, r, he, h1⟩

/-- When the encode stage succeeds. -/
theorem encodeStage_of_fits {s : State}
    (hr : ∀ i, i < s.srcLen.toNat → memROk s.platform (s.srcAddr + BitVec.ofNat 32 i) = true)
    (hcode : ∀ x ∈ bytesAt s.mem s.srcAddr s.srcLen.toNat, s.code x ≠ [])
    (hc : (container s.srcLen s.freq s.code (bytesAt s.mem s.srcAddr s.srcLen.toNat)).length ≤ s.dstCap.toNat)
    (hw : ∀ i, i < (container s.srcLen s.freq s.code (bytesAt s.mem s.srcAddr s.srcLen.toNat)).length →
      memWOk s.platform (s.dstAddr + BitVec.ofNat 32 i) = true) :
    ∃ r, encodeStage s = .ok r := by
  rw [container, List.length_append] at hc hw
  obtain ⟨k0, r, he, h⟩ := payload_after_header_of_fits hr hcode hc hw
  exact ⟨r, encodeStage_join he h⟩

/-- Every error of the encode stage. -/
theorem encodeStage_error {s : State} {e : CmdError} (h : encodeStage s = .error e) :
    SinkError s e ∨
      ∃ i, i < s.srcLen.toNat ∧
        ((memROk s.platform (s.srcAddr + BitVec.ofNat 32 i) = false ∧
            e = ⟨.ioRead, s.srcAddr + BitVec.ofNat 32 i, 0#32⟩) ∨
          (memROk s.platform (s.srcAddr + BitVec.ofNat 32 i) = true ∧
            s.code (readMem s.mem (s.srcAddr + BitVec.ofNat 32 i)) = [] ∧
            e = ⟨.unknownSymbol, s.srcAddr + BitVec.ofNat 32 i,
              0#24 ++ readMem s.mem (s.srcAddr + BitVec.ofNat 32 i)⟩)) := by
  unfold encodeStage at h
  split at h
  · next he => cases h; exact .inl (emitAll_error he)
  · exact payloadLoop_error h

end Sys2Proof.Machine
end

