-- ==== Sys2Proof/Laws/Tree.lean ====
section
/-! SUPPORT. The tree builder (R191 to R204): the arena a merge loop makes unfolds to a strict binary tree whose leaves
are the symbols with a non-zero count, and its code table holds that tree's paths. -/

namespace Sys2Proof.Machine

/-- A strict binary tree over symbols (R17). -/
inductive HTree where
  | leaf (x : Byte)
  | node (l r : HTree)
  deriving DecidableEq, Repr

/-- The symbols at the leaves, left to right. -/
def leavesOf : HTree → List Byte
  | .leaf x => [x]
  | .node l r => leavesOf l ++ leavesOf r

/-- The longest path from the root. -/
def depthOf : HTree → Nat
  | .leaf _ => 0
  | .node l r => max (depthOf l) (depthOf r) + 1

/-- Each leaf with its path from the root, after the bits `c` (R197). -/
def pathsOf : HTree → Code → List (Byte × Code)
  | .leaf x, c => [(x, c)]
  | .node l r, c => pathsOf l (c ++ [false]) ++ pathsOf r (c ++ [true])

/-- The arena from node `n` down unfolds to the tree. -/
def Unfolds (arena : Vector ArenaNode 255) : NodeId → HTree → Prop
  | n, .leaf x => n.toNat < 256 ∧ n.setWidth 8 = x
  | n, .node l r =>
    256 ≤ n.toNat ∧ Unfolds arena (childNode arena n).left l ∧ Unfolds arena (childNode arena n).right r

/-! ### Trees -/

theorem leavesOf_ne_nil (t : HTree) : leavesOf t ≠ [] := by
  induction t with
  | leaf x => simp [leavesOf]
  | node l r ihl ihr => simp [leavesOf, ihl]

theorem depthOf_lt (t : HTree) : depthOf t < (leavesOf t).length := by
  induction t with
  | leaf x => simp [depthOf, leavesOf]
  | node l r ihl ihr => simp only [depthOf, leavesOf, List.length_append]; omega

theorem pathsOf_fst (t : HTree) (c : Code) : (pathsOf t c).map Prod.fst = leavesOf t := by
  induction t generalizing c with
  | leaf x => rfl
  | node l r ihl ihr => simp [pathsOf, leavesOf, ihl, ihr]

/-- Every recorded path starts with the bits given and goes on by at most the depth. -/
theorem pathsOf_extends {t : HTree} {c : Code} {p : Byte × Code} (h : p ∈ pathsOf t c) :
    ∃ d, p.2 = c ++ d ∧ d.length ≤ depthOf t ∧ (d = [] → ∃ x, t = .leaf x) := by
  induction t generalizing c with
  | leaf x =>
    simp only [pathsOf, List.mem_singleton] at h
    exact ⟨[], by simp [h], by simp, fun _ => ⟨x, rfl⟩⟩
  | node l r ihl ihr =>
    rw [pathsOf, List.mem_append] at h
    rcases h with h | h
    · obtain ⟨d, hd, hl, -⟩ := ihl h
      exact ⟨false :: d, by simp [hd], by simp only [List.length_cons, depthOf]; omega, by simp⟩
    · obtain ⟨d, hd, hl, -⟩ := ihr h
      exact ⟨true :: d, by simp [hd], by simp only [List.length_cons, depthOf]; omega, by simp⟩

/-- The traversal records the paths of the tree it walks, given enough fuel (R197). -/
theorem traverse_eq {arena : Vector ArenaNode 255} {n : NodeId} {t : HTree} (h : Unfolds arena n t) {fuel : Nat}
    (hf : depthOf t < fuel) (c : Code) : traverse arena fuel n c = pathsOf t c := by
  induction t generalizing n fuel c with
  | leaf x =>
    obtain ⟨fuel, rfl⟩ := Nat.exists_eq_add_of_lt hf
    simp only [Unfolds] at h
    simp [traverse, h.1, h.2, pathsOf]
  | node l r ihl ihr =>
    simp only [depthOf] at hf
    obtain ⟨f, rfl⟩ : ∃ f, fuel = f + 1 := ⟨fuel - 1, by omega⟩
    simp only [Unfolds] at h
    have hn : ¬ n.toNat < 256 := by omega
    simp only [traverse, hn, if_false, pathsOf]
    rw [ihl h.2.1 (by omega), ihr h.2.2 (by omega)]

theorem codeIn_of_mem {found : List (Byte × Code)} (hn : (found.map Prod.fst).Nodup) {x : Byte} {c : Code}
    (h : (x, c) ∈ found) : codeIn found x = c := by
  induction found with
  | nil => simp at h
  | cons p rest ih =>
    obtain ⟨y, d⟩ := p
    simp only [List.map_cons, List.nodup_cons] at hn
    rcases List.mem_cons.1 h with h | h
    · cases h; simp [codeIn]
    · have hne : y ≠ x := fun e => hn.1 (e ▸ List.mem_map.2 ⟨_, h, rfl⟩)
      simp [codeIn, hne, ih hn.2 h]

theorem codeIn_of_not_mem {found : List (Byte × Code)} {x : Byte} (h : x ∉ found.map Prod.fst) :
    codeIn found x = [] := by
  induction found with
  | nil => rfl
  | cons p rest ih =>
    obtain ⟨y, d⟩ := p
    simp only [List.map_cons, List.mem_cons, not_or] at h
    simp [codeIn, Ne.symm h.1, ih h.2]

/-! ### The queue -/

theorem insertNode_perm (a : QueueNode) (q : List QueueNode) : (insertNode a q).Perm (a :: q) := by
  induction q with
  | nil => exact List.Perm.refl _
  | cons b rest ih =>
    unfold insertNode
    split
    · exact List.Perm.refl _
    · exact (ih.cons b).trans (List.Perm.swap a b rest)

theorem foldr_insertNode_perm (l : List QueueNode) : (l.foldr insertNode []).Perm l := by
  induction l with
  | nil => exact List.Perm.refl _
  | cons a l ih => exact (insertNode_perm a _).trans (ih.cons a)

@[simp] theorem length_insertNode (a : QueueNode) (q : List QueueNode) :
    (insertNode a q).length = q.length + 1 := by simpa using (insertNode_perm a q).length_eq

theorem initialQueue_perm (f : Table Word) : (initialQueue f).Perm (leafNodes f) := foldr_insertNode_perm _

/-- A merge loop of `steps` steps over `steps + 1` nodes creates `steps` arena entries (R193). -/
theorem length_mergeLoop {steps j : Nat} {q : List QueueNode} (h : q.length = steps + 1) :
    (mergeLoop steps j q).length = steps := by
  induction steps generalizing j q with
  | zero => simp [mergeLoop]
  | succ n ih =>
    match q, h with
    | a :: b :: rest, h =>
      simp only [mergeLoop, List.length_cons]
      rw [ih (by simpa using h)]

/-- The node id of the queue's last node after `steps` steps from step `j` on. -/
def lastId (steps j : Nat) (q : List QueueNode) : NodeId :=
  if steps = 0 then (q.head?.map QueueNode.id).getD 0#9 else BitVec.ofNat 9 (255 + j + steps)

/-- What the merge loop makes: if every queue node unfolds to a tree, and the arena holds the entries the loop
creates, then the last node unfolds to one tree over all their leaves (R193). -/
theorem mergeLoop_unfolds {arena : Vector ArenaNode 255} {steps j : Nat} {q : List QueueNode}
    {tree : QueueNode → HTree} (hlen : q.length = steps + 1) (hj : j + steps ≤ 255)
    (hq : ∀ a ∈ q, Unfolds arena a.id (tree a)) (hid : ∀ a ∈ q, a.id.toNat < 256 + j)
    (hnd : (q.map QueueNode.id).Nodup)
    (harena : ∀ i (h : i < (mergeLoop steps j q).length),
      childNode arena (BitVec.ofNat 9 (256 + j + i)) = (mergeLoop steps j q)[i]) :
    ∃ t, Unfolds arena (lastId steps j q) t ∧ (leavesOf t).Perm (q.flatMap fun a => leavesOf (tree a)) := by
  induction steps generalizing j q tree with
  | zero =>
    match q, hlen with
    | [a], _ => exact ⟨tree a, by simpa [lastId] using hq a (by simp), by simp⟩
  | succ n ih =>
    match q, hlen with
    | a :: b :: rest, hlen =>
      let c : QueueNode := ⟨a.weight + b.weight, BitVec.ofNat 9 (256 + j)⟩
      have hc : c.id.toNat = 256 + j := by
        show (BitVec.ofNat 9 (256 + j)).toNat = _
        rw [BitVec.toNat_ofNat]; omega
      have hnode : childNode arena c.id = ⟨a.id, b.id, BitVec.ofNat 32 (a.weight + b.weight)⟩ := by
        have := harena 0 (by simp [mergeLoop])
        simpa [mergeLoop] using this
      have hcne : ∀ d ∈ a :: b :: rest, d.id ≠ c.id := fun d hd e => by
        have := hid d hd
        rw [e, hc] at this
        omega
      have hperm := insertNode_perm c rest
      obtain ⟨t, ht, hp⟩ := ih (j := j + 1) (q := insertNode c rest)
        (tree := fun d => if d = c then .node (tree a) (tree b) else tree d) (by simpa using hlen) (by omega)
        (fun d hd => by
          rcases List.mem_cons.1 (hperm.mem_iff.1 hd) with rfl | hd
          · rw [if_pos rfl]
            refine ⟨by omega, ?_, ?_⟩
            · rw [hnode]; exact hq a (by simp)
            · rw [hnode]; exact hq b (by simp)
          · have : d ≠ c := fun e => hcne d (by simp [hd]) (by rw [e])
            rw [if_neg this]
            exact hq d (by simp [hd]))
        (fun d hd => by
          rcases List.mem_cons.1 (hperm.mem_iff.1 hd) with rfl | hd
          · omega
          · have := hid d (by simp [hd]); omega)
        (by
          refine (hperm.map QueueNode.id).nodup_iff.2 ?_
          simp only [List.map_cons, List.nodup_cons] at hnd ⊢
          refine ⟨fun hm => ?_, hnd.2.2⟩
          obtain ⟨d, hd, e⟩ := List.mem_map.1 hm
          exact hcne d (by simp [hd]) e)
        (fun i hi => by
          have := harena (i + 1) (by simpa [mergeLoop] using hi)
          have e : 256 + (j + 1) + i = 256 + j + (i + 1) := by omega
          rw [e, this]
          simp [mergeLoop, c])
      refine ⟨t, ?_, hp.trans ?_⟩
      · have e1 : lastId n (j + 1) (insertNode c rest) = lastId (n + 1) j (a :: b :: rest) := by
          by_cases hn : n = 0
          · subst hn
            have : rest = [] := by simpa using hlen
            subst this
            exact congrArg (BitVec.ofNat 9) (show 256 + j = 255 + j + (0 + 1) by omega)
          · rw [lastId, lastId, if_neg hn, if_neg (by omega)]
            exact congrArg (BitVec.ofNat 9) (by omega)
        rw [← e1]; exact ht
      · refine (hperm.flatMap_right _).trans ?_
        simp only [List.flatMap_cons, if_true, leavesOf, List.append_assoc]
        refine List.Perm.append_left _ (List.Perm.append_left _ (List.Perm.of_eq ?_))
        refine List.flatMap_congr fun d hd => ?_
        rw [if_neg fun e => hcne d (by simp [hd]) (by rw [e])]

/-! ### A built tree -/

theorem mem_present {f : Table Word} {x : Byte} : x ∈ present f ↔ entry f x ≠ 0#32 := by
  simp [present, mem_symbols]

theorem nodup_present (f : Table Word) : (present f).Nodup := nodup_symbols.filter _

theorem length_present_le (f : Table Word) : (present f).length ≤ 256 := by
  have := List.length_filter_le (fun x => decide (entry f x ≠ 0#32)) symbols
  rwa [length_symbols] at this

theorem leafId_toNat (x : Byte) : (0#1 ++ x : NodeId).toNat = x.toNat := by
  show (0#1 ++ x : BitVec (1 + 8)).toNat = _
  rw [BitVec.toNat_append]
  simp

theorem leafId_symbol (x : Byte) : (0#1 ++ x : NodeId).setWidth 8 = x := by
  apply BitVec.eq_of_toNat_eq
  rw [BitVec.toNat_setWidth, leafId_toNat, Nat.mod_eq_of_lt x.isLt]

theorem leafNodes_eq (f : Table Word) :
    leafNodes f = (present f).map fun x => ⟨(entry f x).toNat, 0#1 ++ x⟩ := rfl

theorem childNode_arenaOf {nodes : List ArenaNode} (hl : nodes.length ≤ 255) {i : Nat} (h : i < nodes.length) :
    childNode (arenaOf nodes) (BitVec.ofNat 9 (256 + i)) = nodes[i] := by
  have e : (BitVec.ofNat 9 (256 + i)).toNat - 256 = i := by rw [BitVec.toNat_ofNat]; omega
  unfold childNode
  rw [e, arenaOf, Vector.getElem?_ofFn]
  have : i < 255 := by omega
  simp [this, h]

/-- The tree of two or more symbols: the arena unfolds from the root to a strict tree whose leaves are the present
symbols (R191, R193, R195). -/
theorem mergedTree_unfolds {f : Table Word} (hk : 2 ≤ (present f).length) :
    ∃ t, Unfolds (mergedTree f (present f).length).arena (mergedTree f (present f).length).root t ∧
      (leavesOf t).Perm (present f) := by
  have hle := length_present_le f
  have hqp := initialQueue_perm f
  have hql : (initialQueue f).length = (present f).length - 1 + 1 := by
    rw [hqp.length_eq, leafNodes_eq, List.length_map]; omega
  have hml := length_mergeLoop (j := 0) hql
  have hmem : ∀ a ∈ initialQueue f, ∃ x ∈ present f, a.id = 0#1 ++ x := fun a ha => by
    have := hqp.mem_iff.1 ha
    rw [leafNodes_eq] at this
    obtain ⟨x, hx, rfl⟩ := List.mem_map.1 this
    exact ⟨x, hx, rfl⟩
  obtain ⟨t, ht, hp⟩ := mergeLoop_unfolds (arena := arenaOf (mergeLoop ((present f).length - 1) 0 (initialQueue f)))
    (steps := (present f).length - 1) (j := 0) (q := initialQueue f) (tree := fun a => .leaf (a.id.setWidth 8)) hql
    (by omega)
    (fun a ha => by
      obtain ⟨x, -, e⟩ := hmem a ha
      exact ⟨by rw [e, leafId_toNat]; exact x.isLt, rfl⟩)
    (fun a ha => by
      obtain ⟨x, -, e⟩ := hmem a ha
      rw [e, leafId_toNat]; exact x.isLt)
    (by
      refine (hqp.map QueueNode.id).nodup_iff.2 ?_
      rw [leafNodes_eq, List.map_map]
      refine (nodup_present f).map_on fun x _ y _ e => ?_
      have := congrArg (BitVec.setWidth 8) e
      simpa only [Function.comp, leafId_symbol] using this)
    (fun i hi => by rw [Nat.add_zero]; exact childNode_arenaOf (by omega) hi)
  refine ⟨t, ?_, hp.trans ((hqp.flatMap_right _).trans (List.Perm.of_eq ?_))⟩
  · have e : lastId ((present f).length - 1) 0 (initialQueue f) = (mergedTree f (present f).length).root := by
      rw [lastId, if_neg (by omega)]
      exact congrArg (BitVec.ofNat 9) (by omega)
    rw [← e]; exact ht
  · rw [leafNodes_eq, List.flatMap_map]
    simp only [leafId_symbol, leavesOf]
    exact List.flatMap_singleton' _

/-- The outcomes of BuildTree (R204). -/
theorem buildTree_cases (f : Table Word) :
    (freqSum f > 2 ^ 32 - 1 ∧ buildTree f = .overflow) ∨
    (freqSum f ≤ 2 ^ 32 - 1 ∧ present f = [] ∧ buildTree f = .empty) ∨
    (freqSum f ≤ 2 ^ 32 - 1 ∧ ∃ x, present f = [x] ∧ buildTree f = .ok (singleTree x)) ∨
    (freqSum f ≤ 2 ^ 32 - 1 ∧ 2 ≤ (present f).length ∧ buildTree f = .ok (mergedTree f (present f).length)) := by
  unfold buildTree
  by_cases hs : freqSum f > 2 ^ 32 - 1
  · exact .inl ⟨hs, by rw [if_pos hs]⟩
  · rw [if_neg hs]
    have hle : freqSum f ≤ 2 ^ 32 - 1 := by omega
    match hpr : present f with
    | [] => exact .inr (.inl ⟨hle, rfl, rfl⟩)
    | [x] => exact .inr (.inr (.inl ⟨hle, x, rfl, rfl⟩))
    | x :: y :: rest => exact .inr (.inr (.inr ⟨hle, by simp, rfl⟩))

/-- The codes of a built tree, both shapes at once: `paths` lists each present symbol once with its code. -/
structure CodesFrom (f : Table Word) (t : Tree) (paths : List (Byte × Code)) : Prop where
  symbols : (paths.map Prod.fst).Perm (present f)
  code    : ∀ x, entry t.code x = codeIn paths x

theorem singleTree_codes {f : Table Word} {x : Byte} (h : present f = [x]) :
    CodesFrom f (singleTree x) [(x, [false])] where
  symbols := by simp [h]
  code y := by
    simp only [singleTree, entry_tabulate, codeIn]
    by_cases e : y = x
    · simp [e]
    · simp [e, Ne.symm e]

theorem mergedTree_codes {f : Table Word} {t : HTree}
    (hu : Unfolds (mergedTree f (present f).length).arena (mergedTree f (present f).length).root t)
    (hp : (leavesOf t).Perm (present f)) :
    CodesFrom f (mergedTree f (present f).length) (pathsOf t []) where
  symbols := by rw [pathsOf_fst]; exact hp
  code x := by
    have hd : depthOf t < 256 := by
      have := depthOf_lt t
      have := hp.length_eq
      have := length_present_le f
      omega
    show entry (codesOf _ _) x = _
    rw [codesOf, entry_tabulate]
    exact congrArg (fun p => codeIn p x) (traverse_eq hu hd [])

/-- A present symbol has its path as its code. -/
theorem CodesFrom.mem {f : Table Word} {t : Tree} {paths : List (Byte × Code)} (h : CodesFrom f t paths) {x : Byte}
    (hx : entry f x ≠ 0#32) : (x, entry t.code x) ∈ paths := by
  have hmem : x ∈ paths.map Prod.fst := h.symbols.mem_iff.2 (mem_present.2 hx)
  obtain ⟨⟨y, c⟩, hyc, rfl⟩ := List.mem_map.1 hmem
  have := codeIn_of_mem (h.symbols.nodup_iff.2 (nodup_present f)) hyc
  rw [h.code, this]
  exact hyc

/-- A symbol that is not present has no code (R191, R197). -/
theorem CodesFrom.absent {f : Table Word} {t : Tree} {paths : List (Byte × Code)} (h : CodesFrom f t paths) {x : Byte}
    (hx : entry f x = 0#32) : entry t.code x = [] := by
  rw [h.code]
  exact codeIn_of_not_mem fun hm => mem_present.1 (h.symbols.mem_iff.1 hm) hx

end Sys2Proof.Machine
end

