-- ==== Sys2Proof/Laws/Paths.lean ====
section
/-! SUPPORT. The paths of a strict binary tree: where they lead, that none begins another, and their Kraft sum
(R197 to R202). -/

namespace Sys2Proof.Machine

theorem descend_append (arena : Vector ArenaNode 255) (n : NodeId) (c d : Code) :
    descend arena n (c ++ d) = descend arena (descend arena n c) d := by simp [descend]

theorem descend_cons (arena : Vector ArenaNode 255) (n : NodeId) (b : Bool) (d : Code) :
    descend arena n (b :: d) =
      descend arena (if b then (childNode arena n).right else (childNode arena n).left) d := by
  rw [descend, List.foldl_cons, descend]

theorem pathsOf_append (t : HTree) (c : Code) : pathsOf t c = (pathsOf t []).map fun p => (p.1, c ++ p.2) := by
  induction t generalizing c with
  | leaf x => simp [pathsOf]
  | node l r ihl ihr =>
    rw [pathsOf, pathsOf, ihl (c ++ [false]), ihr (c ++ [true]), ihl ([] ++ [false]), ihr ([] ++ [true])]
    simp [Function.comp_def]

/-- The paths of an inner node: the left subtree's after a 0, the right subtree's after a 1. -/
theorem mem_pathsOf_node {l r : HTree} {x : Byte} {d : Code} (h : (x, d) ∈ pathsOf (.node l r) []) :
    ∃ b e, d = b :: e ∧ (x, e) ∈ pathsOf (if b then r else l) [] := by
  rw [pathsOf, List.mem_append, pathsOf_append l, pathsOf_append r] at h
  rcases h with h | h <;> obtain ⟨⟨y, e⟩, he, heq⟩ := List.mem_map.1 h <;>
    simp only [List.nil_append, Prod.mk.injEq] at heq <;> obtain ⟨rfl, rfl⟩ := heq
  · exact ⟨false, e, rfl, he⟩
  · exact ⟨true, e, rfl, he⟩

theorem leaf_id {n : NodeId} {x : Byte} (h : n.toNat < 256) (hx : n.setWidth 8 = x) : n = 0#1 ++ x := by
  apply BitVec.eq_of_toNat_eq
  rw [leafId_toNat, ← hx, BitVec.toNat_setWidth, Nat.mod_eq_of_lt h]

/-- A path leads to its leaf, through internal nodes only. -/
theorem descend_path {arena : Vector ArenaNode 255} {n : NodeId} {t : HTree} (hu : Unfolds arena n t) {x : Byte}
    {d : Code} (h : (x, d) ∈ pathsOf t []) :
    descend arena n d = 0#1 ++ x ∧ ∀ i, i < d.length → 256 ≤ (descend arena n (d.take i)).toNat := by
  induction t generalizing n d with
  | leaf y =>
    simp only [pathsOf, List.mem_singleton, Prod.mk.injEq] at h
    obtain ⟨rfl, rfl⟩ := h
    exact ⟨leaf_id hu.1 hu.2, fun i hi => absurd hi (by simp)⟩
  | node l r ihl ihr =>
    obtain ⟨b, e, rfl, he⟩ := mem_pathsOf_node h
    have ih : descend arena (if b then (childNode arena n).right else (childNode arena n).left) e = 0#1 ++ x ∧
        ∀ i, i < e.length → 256 ≤
          (descend arena (if b then (childNode arena n).right else (childNode arena n).left) (e.take i)).toNat := by
      cases b
      · exact ihl hu.2.1 he
      · exact ihr hu.2.2 he
    refine ⟨by rw [descend_cons]; exact ih.1, fun i hi => ?_⟩
    cases i with
    | zero => exact hu.1
    | succ i =>
      rw [List.take_succ_cons, descend_cons]
      exact ih.2 i (by simpa using hi)

/-- Any bits as long as the tree is deep lead to a leaf. -/
theorem descend_reaches {arena : Vector ArenaNode 255} {n : NodeId} {t : HTree} (hu : Unfolds arena n t) {bits : Code}
    (h : depthOf t ≤ bits.length) : ∃ k, k ≤ bits.length ∧ (descend arena n (bits.take k)).toNat < 256 := by
  induction t generalizing n bits with
  | leaf y => exact ⟨0, by omega, hu.1⟩
  | node l r ihl ihr =>
    simp only [depthOf] at h
    match bits, h with
    | b :: e, h =>
      simp only [List.length_cons] at h
      have ih : ∃ k, k ≤ e.length ∧
          (descend arena (if b then (childNode arena n).right else (childNode arena n).left) (e.take k)).toNat < 256 := by
        cases b
        · exact ihl hu.2.1 (by omega)
        · exact ihr hu.2.2 (by omega)
      obtain ⟨k, hk, hd⟩ := ih
      exact ⟨k + 1, by simp only [List.length_cons]; omega, by rw [List.take_succ_cons, descend_cons]; exact hd⟩

/-- Paths to different leaves: neither begins the other. -/
theorem path_begins_no_other {t : HTree} {x y : Byte} {c d : Code} (hx : (x, c) ∈ pathsOf t [])
    (hy : (y, d) ∈ pathsOf t []) (hne : x ≠ y) : ¬ c.IsPrefix d := by
  induction t generalizing c d with
  | leaf z =>
    simp only [pathsOf, List.mem_singleton, Prod.mk.injEq] at hx hy
    exact absurd (hx.1.trans hy.1.symm) hne
  | node l r ihl ihr =>
    obtain ⟨b, e, rfl, he⟩ := mem_pathsOf_node hx
    obtain ⟨b', e', rfl, he'⟩ := mem_pathsOf_node hy
    rw [List.cons_prefix_cons]
    rintro ⟨rfl, hp⟩
    cases b
    · exact ihl he he' hp
    · exact ihr he he' hp

/-- The Kraft sum of a tree's paths, scaled by `2 ^ n` (R202). -/
theorem kraft_paths (t : HTree) (c : Code) (n : Nat) (h : c.length + depthOf t ≤ n) :
    ((pathsOf t c).map fun p => 2 ^ (n - p.2.length)).sum = 2 ^ (n - c.length) := by
  induction t generalizing c with
  | leaf x => simp [pathsOf]
  | node l r ihl ihr =>
    simp only [depthOf] at h
    rw [pathsOf, List.map_append, List.sum_append, ihl _ (by simp; omega), ihr _ (by simp; omega)]
    simp only [List.length_append, List.length_singleton]
    have : n - c.length = (n - (c.length + 1)) + 1 := by omega
    rw [this, pow_succ]
    omega

/-- A path is no longer than the tree is deep, and has a bit unless the tree is a leaf. -/
theorem length_path {t : HTree} {x : Byte} {d : Code} (h : (x, d) ∈ pathsOf t []) :
    d.length ≤ depthOf t ∧ (d = [] → ∃ y, t = .leaf y) := by
  obtain ⟨e, he, hl, hn⟩ := pathsOf_extends h
  simp only [List.nil_append] at he
  subst he
  exact ⟨hl, hn⟩

/-- A present symbol has a code of at least one bit (R196, R200). -/
theorem present_code {f : Table Word} {T : Tree} (hb : buildTree f = .ok T) {x : Byte} (hx : entry f x ≠ 0#32) :
    entry T.code x ≠ [] := by
  rcases buildTree_cases f with ⟨-, h⟩ | ⟨-, -, h⟩ | ⟨-, y, hp, h⟩ | ⟨-, hk, h⟩ <;> rw [hb] at h
  · cases h
  · cases h
  · cases h
    have hxy : x = y := by have := mem_present.2 hx; rw [hp] at this; simpa using this
    rw [hxy]; simp [singleTree]
  · cases h
    obtain ⟨t, hu, hp⟩ := mergedTree_unfolds hk
    intro h0
    obtain ⟨y, rfl⟩ := (length_path ((mergedTree_codes hu hp).mem hx)).2 h0
    have := hp.length_eq
    simp [leavesOf] at this; omega

end Sys2Proof.Machine
end

