-- ==== Sys2Proof/Laws/Decoder.lean ====
section
/-! SUPPORT. The decoder (R250 to R262): the bits a packed payload gives, the walk along a code, and the loop over the
symbols of a payload. -/

namespace Sys2Proof.Machine

/-! ### Bits of a packed payload -/

theorem streamBit_byteOfBits (l : Code) (h : l.length = 8) (t : Nat) (ht : t < 8) :
    streamBit (byteOfBits l) t = l.getD t false := by
  match l, h with
  | [a0, a1, a2, a3, a4, a5, a6, a7], _ =>
    have : t = 0 ∨ t = 1 ∨ t = 2 ∨ t = 3 ∨ t = 4 ∨ t = 5 ∨ t = 6 ∨ t = 7 := by omega
    rcases this with rfl | rfl | rfl | rfl | rfl | rfl | rfl | rfl <;>
      revert a0 a1 a2 a3 a4 a5 a6 a7 <;> decide

/-- Bit index `i` of the bitstream is found in byte `i / 8` at bit `i % 8` of it (R131). -/
theorem streamBit_packBits (bits : Code) (i : Nat) (h : i < bits.length) :
    streamBit ((packBits bits).getD (i / 8) 0#8) (i % 8) = bits.getD i false := by
  have hq : i / 8 < ceil8 bits.length := by unfold ceil8; omega
  have hg : (packBits bits).getD (i / 8) 0#8 =
      byteOfBits ((List.range 8).map fun t => bits.getD (8 * (i / 8) + t) false) := by
    unfold packBits
    simp [hq]
  rw [hg, streamBit_byteOfBits _ (by simp) _ (Nat.mod_lt _ (by omega)), List.getD_eq_getElem _ _ (by simp; omega)]
  simp only [List.getElem_map, List.getElem_range]
  congr 1
  omega

/-! ### The walk -/

/-- A walk along the payload bits of a leaf's path ends at that leaf, past exactly those bits (R257). -/
theorem walk_path {s : State} {t : Tree} {m : Nat} {tree : HTree} {n : NodeId} (h : Unfolds t.arena n tree) {x : Byte}
    {d : Code} (hx : (x, d) ∈ pathsOf tree []) {left pos : Nat} (hl : d.length ≤ left)
    (hb : ∀ i, i < d.length → payloadBit s (pos + i) = .ok (d.getD i false)) :
    walk s t m left pos n = .ok (pos + d.length, x) := by
  induction tree generalizing n d left pos with
  | leaf y =>
    simp only [pathsOf, List.mem_singleton, Prod.mk.injEq] at hx
    simp only [Unfolds] at h
    obtain ⟨rfl, rfl⟩ := hx
    cases left <;> simp [walk, h.1, h.2]
  | node l r ihl ihr =>
    simp only [Unfolds] at h
    have hn : ¬ n.toNat < 256 := by omega
    rw [pathsOf, List.mem_append, pathsOf_append l, pathsOf_append r] at hx
    have step : ∀ (b : Bool) (e : Code), d = b :: e →
        walk s t m left pos n = walk s t m (left - 1) (pos + 1)
          (if b then (childNode t.arena n).right else (childNode t.arena n).left) := by
      intro b e hd
      subst hd
      obtain ⟨left', rfl⟩ : ∃ k, left = k + 1 := ⟨left - 1, by simp at hl; omega⟩
      have h0 := hb 0 (by simp)
      simp only [Nat.add_zero, List.getD_cons_zero] at h0
      rw [walk]
      simp [hn, h0]
    have tail : ∀ (b : Bool) (e : Code), d = b :: e →
        ∀ i, i < e.length → payloadBit s (pos + 1 + i) = .ok (e.getD i false) := by
      intro b e hd i hi
      have := hb (i + 1) (by rw [hd]; simpa using hi)
      rw [hd, List.getD_cons_succ] at this
      rwa [Nat.add_assoc, Nat.add_comm 1 i]
    rcases hx with hx | hx <;> obtain ⟨⟨y, e⟩, he, heq⟩ := List.mem_map.1 hx <;>
      simp only [List.nil_append, Prod.mk.injEq] at heq <;> obtain ⟨rfl, rfl⟩ := heq
    · rw [step false e rfl, if_neg (by simp), ihl h.2.1 he (by simp at hl; omega) (tail false e rfl)]
      simp; omega
    · rw [step true e rfl, if_pos rfl, ihr h.2.2 he (by simp at hl; omega) (tail true e rfl)]
      simp; omega

/-- A built tree decodes the code of every symbol that has one (R257, R258). -/
theorem decodeSymbol_code {s : State} {f : Table Word} {t : Tree} (hb : buildTree f = .ok t) {x : Byte}
    (hx : entry t.code x ≠ []) {m pos : Nat} (hroom : pos + (entry t.code x).length ≤ payloadBits s)
    (hbits : ∀ i, i < (entry t.code x).length → payloadBit s (pos + i) = .ok ((entry t.code x).getD i false)) :
    decodeSymbol s t m pos = .ok (pos + (entry t.code x).length, x) := by
  rcases buildTree_cases f with ⟨-, h⟩ | ⟨-, -, h⟩ | ⟨-, y, hp, h⟩ | ⟨-, hk, h⟩ <;> rw [hb] at h
  · cases h
  · cases h
  · cases h
    have hc : entry (singleTree y).code x = if x = y then [false] else [] := by simp [singleTree]
    by_cases e : x = y
    · subst e
      rw [hc, if_pos rfl] at hroom hbits ⊢
      have h0 := hbits 0 (by simp)
      simp only [List.length_singleton, Nat.add_zero, List.getD_cons_zero] at hroom h0 ⊢
      rw [decodeSymbol, if_pos (show (singleTree x).nsym = 1#9 from rfl), singleStep, if_neg (by omega), h0]
      simp only [singleTree, leafId_symbol]
    · rw [hc, if_neg e] at hx; exact absurd rfl hx
  · cases h
    obtain ⟨tree, hu, hperm⟩ := mergedTree_unfolds hk
    have hcodes := mergedTree_codes hu hperm
    have hpres : entry f x ≠ 0#32 := fun e => hx (hcodes.absent e)
    have hns : (mergedTree f (present f).length).nsym ≠ 1#9 := by
      intro e
      have := congrArg BitVec.toNat e
      have hle := length_present_le f
      simp only [mergedTree, BitVec.toNat_ofNat] at this
      omega
    rw [decodeSymbol, if_neg hns]
    exact walk_path hu (hcodes.mem hpres) (by omega) hbits

/-! ### The loop -/

theorem sourceBits_cons (code : Byte → Code) (x : Byte) (rest : List Byte) :
    sourceBits code (x :: rest) = code x ++ sourceBits code rest := by simp [sourceBits]

/-- The loop past the codes of `src`: it has written `src` (R250, R262), and `k` symbols are left. `done` is what the
window held before. -/
theorem decodeLoop_prefix {s : State} {f : Table Word} {t : Tree} (hb : buildTree f = .ok t) (k : Nat)
    {src done : List Byte} {pos : Nat} {mem : Memory} (hs : SinkHolds s done ⟨done.length, mem⟩)
    (hcode : ∀ x ∈ src, entry t.code x ≠ [])
    (hroom : pos + (sourceBits (entry t.code) src).length ≤ payloadBits s)
    (hbits : ∀ i, i < (sourceBits (entry t.code) src).length →
      payloadBit s (pos + i) = .ok ((sourceBits (entry t.code) src).getD i false))
    (hcap : done.length + src.length ≤ s.dstCap.toNat)
    (hw : ∀ i, i < done.length + src.length → memWOk s.platform (s.dstAddr + BitVec.ofNat 32 i) = true) :
    ∃ mem', decodeLoop s t (src.length + k) done.length pos mem =
        decodeLoop s t k (done ++ src).length (pos + (sourceBits (entry t.code) src).length) mem' ∧
      SinkHolds s (done ++ src) ⟨(done ++ src).length, mem'⟩ := by
  induction src generalizing done pos mem with
  | nil => exact ⟨mem, by simp [sourceBits], by simpa using hs⟩
  | cons x rest ih =>
    rw [sourceBits_cons, List.length_append] at hroom hbits
    simp only [List.length_cons] at hcap hw
    have hsym := decodeSymbol_code (s := s) hb (hcode x (by simp)) (m := done.length) (pos := pos) (by omega)
      fun i hi => by rw [hbits i (by omega), List.getD_append _ _ _ _ hi]
    have hw0 := hw done.length (by omega)
    have hemit : emit s ⟨done.length, mem⟩ x =
        .ok ⟨done.length + 1, writeMem mem (s.dstAddr + BitVec.ofNat 32 done.length) x⟩ := by
      have : ¬ s.dstCap.toNat ≤ done.length := by omega
      simp [emit, memWrite, hw0, this]
    have hs' := sinkHolds_emit hs hemit
    have hlen : done.length + 1 = (done ++ [x]).length := by simp
    rw [hlen] at hs'
    obtain ⟨mem', hloop, hs''⟩ := ih hs' (fun y hy => hcode y (by simp [hy]))
      (pos := pos + (entry t.code x).length) (by omega)
      (fun i hi => by
        rw [Nat.add_assoc, hbits _ (by omega), List.getD_append_right _ _ _ _ (by omega)]
        rw [Nat.add_sub_cancel_left])
      (by simp; omega) (fun i hi => hw i (by simp at hi; omega))
    refine ⟨mem', ?_, by simpa using hs''⟩
    rw [List.length_cons, Nat.add_right_comm, decodeLoop, hsym]
    simp only [memWrite, hw0, if_true]
    rw [hlen, hloop, List.append_assoc, List.singleton_append, sourceBits_cons, Nat.add_assoc, List.length_append (as := entry t.code x)]

/-- Decoding the codes of `src` writes `src` (R250, R262). -/
theorem decodeLoop_codes {s : State} {f : Table Word} {t : Tree} (hb : buildTree f = .ok t) {src done : List Byte}
    {pos : Nat} {mem : Memory} (hs : SinkHolds s done ⟨done.length, mem⟩)
    (hcode : ∀ x ∈ src, entry t.code x ≠ [])
    (hroom : pos + (sourceBits (entry t.code) src).length ≤ payloadBits s)
    (hbits : ∀ i, i < (sourceBits (entry t.code) src).length →
      payloadBit s (pos + i) = .ok ((sourceBits (entry t.code) src).getD i false))
    (hcap : done.length + src.length ≤ s.dstCap.toNat)
    (hw : ∀ i, i < done.length + src.length → memWOk s.platform (s.dstAddr + BitVec.ofNat 32 i) = true) :
    ∃ mem', decodeLoop s t src.length done.length pos mem =
        .ok (pos + (sourceBits (entry t.code) src).length, mem') ∧
      SinkHolds s (done ++ src) ⟨(done ++ src).length, mem'⟩ := by
  obtain ⟨mem', h1, h2⟩ := decodeLoop_prefix hb 0 hs hcode hroom hbits hcap hw
  exact ⟨mem', h1, h2⟩

end Sys2Proof.Machine
end

