-- ==== Sys2Proof/Laws/Commands.lean ====
section
/-! SUPPORT. What each command can end in, said once: one lemma for each exec, over the range checks, the reads and the
stages of Laws/Encode and Laws/Decoder. -/

namespace Sys2Proof.Machine

/-! ### Range checks and hazards -/

theorem checkSrc_of_fits {s : State} (h : SourceFits s) : checkSrc s = none := by
  unfold checkSrc SourceFits at *; rw [if_neg (by omega)]

theorem checkSrc_of_wraps {s : State} (h : ¬ SourceFits s) : checkSrc s = some ⟨.srcWrap, s.srcAddr, s.srcLen⟩ := by
  unfold checkSrc SourceFits at *; rw [if_pos (by omega)]

theorem checkRanges_cases (s : State) :
    (¬ SourceFits s ∧ checkRanges s = some ⟨.srcWrap, s.srcAddr, s.srcLen⟩) ∨
    (SourceFits s ∧ ¬ WindowFits s ∧ checkRanges s = some ⟨.dstWrap, s.dstAddr, s.dstCap⟩) ∨
    (SourceFits s ∧ WindowFits s ∧ checkRanges s = none) := by
  by_cases h1 : SourceFits s
  · by_cases h2 : WindowFits s
    · refine .inr (.inr ⟨h1, h2, ?_⟩)
      rw [checkRanges, checkSrc_of_fits h1]
      unfold WindowFits at h2
      exact if_neg (by omega)
    · refine .inr (.inl ⟨h1, h2, ?_⟩)
      rw [checkRanges, checkSrc_of_fits h1]
      unfold WindowFits at h2
      exact if_pos (by omega)
  · exact .inl ⟨h1, by rw [checkRanges, checkSrc_of_wraps h1]⟩

theorem runUnlessHazard_next {i : Instr} {s t u : State} :
    runUnlessHazard i s t = .next u ↔ HazardFree i s ∧ u = t := by
  unfold runUnlessHazard HazardFree
  cases commandHazard i s <;> simp [eq_comm]

theorem runUnlessHazard_of_free {i : Instr} {s t : State} (h : HazardFree i s) : runUnlessHazard i s t = .next t :=
  runUnlessHazard_next.2 ⟨h, rfl⟩

theorem runUnlessHazard_cases (i : Instr) (s t : State) :
    (HazardFree i s ∧ runUnlessHazard i s t = .next t) ∨
      ∃ h, commandHazard i s = some h ∧ runUnlessHazard i s t = .fault (.hazardViolation h) := by
  unfold runUnlessHazard HazardFree
  cases commandHazard i s <;> simp

/-- The state a command completes in. -/
def doneState : Instr → State → State
  | .freqClear, s => (s.withFreq zeroTable).succeed 0#32 0#64
  | .freqCount, s => freqCountDone s
  | .freqAccum, s => freqAccumDone s
  | .build, s => buildDone s
  | .encode, s => encodeDone s
  | .compress, s => compressDone s
  | .decode, s => decodeDone s

/-- Every command is its completion behind the hazard rules (R339). -/
theorem exec_eq (i : Instr) (s : State) : exec i s = runUnlessHazard i s (doneState i s) := by
  cases i <;> rfl

theorem exec_next {i : Instr} {s t : State} : exec i s = .next t ↔ HazardFree i s ∧ t = doneState i s := by
  rw [exec_eq, runUnlessHazard_next]

/-- What a write of `w` to CMD while idle can end in (R150, R339). -/
theorem startCommand_cases (w : Word) (s : State) :
    ((∀ i, decode w = .ok i → HazardFree i s) ∧ startCommand w s = .next (s.start w)) ∨
      ∃ i h, decode w = .ok i ∧ commandHazard i s = some h ∧ startCommand w s = .fault (.hazardViolation h) := by
  unfold startCommand
  cases hw : decode w with
  | error r => exact .inl ⟨fun i h => (by cases h), rfl⟩
  | ok i =>
    rcases runUnlessHazard_cases i s (s.start w) with ⟨h1, h2⟩ | ⟨h, h1, h2⟩
    · exact .inl ⟨fun j h => by cases h; exact h1, h2⟩
    · exact .inr ⟨i, h, rfl, h1, h2⟩

theorem hazardFree_freqClear (s : State) : HazardFree .freqClear s := rfl

theorem hazardFree_build (s : State) : HazardFree .build s := rfl

theorem rangesMeet_iff (a n b m : Nat) :
    rangesMeet a n b m = true ↔ ∃ k, a ≤ k ∧ k < a + n ∧ b ≤ k ∧ k < b + m := by
  simp only [rangesMeet, Bool.and_eq_true, decide_eq_true_eq, ne_eq]
  constructor
  · rintro ⟨h1, h2, h3, h4⟩
    rcases Nat.le_total a b with h | h
    · exact ⟨b, by omega, by omega, by omega, by omega⟩
    · exact ⟨a, by omega, by omega, by omega, by omega⟩
  · rintro ⟨k, h1, h2, h3, h4⟩
    exact ⟨by omega, by omega, by omega, by omega⟩

/-- The hazard of one range, as the numbers it must not hold (R331, R332). -/
theorem rangeHazard_eq_none (p : Platform) (a n : Nat) :
    rangeHazard p a n = none ↔ ∀ k, a ≤ k → k < a + n →
      ¬ (p.huffBase.toNat ≤ k ∧ k < p.huffBase.toNat + 0x4000) ∧
        ∀ r ∈ p.regions, r.kind = .sideEffects → ¬ (r.base ≤ k ∧ k < r.base + r.size) := by
  unfold rangeHazard
  by_cases h0 : n = 0
  · rw [if_pos h0]
    exact iff_of_true rfl fun k h1 h2 => absurd h2 (by omega)
  · rw [if_neg h0]
    by_cases h1 : rangesMeet a n p.huffBase.toNat 0x4000 = true
    · rw [if_pos h1]
      obtain ⟨k, hk⟩ := (rangesMeet_iff _ _ _ _).1 h1
      exact iff_of_false (by simp) fun h => (h k hk.1 hk.2.1).1 hk.2.2
    · rw [if_neg h1]
      have h1' : ∀ k, a ≤ k → k < a + n → ¬ (p.huffBase.toNat ≤ k ∧ k < p.huffBase.toNat + 0x4000) :=
        fun k ha hk hb => h1 ((rangesMeet_iff _ _ _ _).2 ⟨k, ha, hk, hb⟩)
      by_cases h2 : (p.regions.any fun r => decide (r.kind = .sideEffects) && rangesMeet a n r.base r.size) = true
      · rw [if_pos h2]
        obtain ⟨r, hr, hm⟩ := List.any_eq_true.1 h2
        simp only [Bool.and_eq_true, decide_eq_true_eq] at hm
        obtain ⟨k, hk⟩ := (rangesMeet_iff _ _ _ _).1 hm.2
        exact iff_of_false (by simp) fun h => (h k hk.1 hk.2.1).2 r hr hm.1 hk.2.2
      · rw [if_neg h2]
        refine iff_of_true rfl fun k ha hk => ⟨h1' k ha hk, fun r hr hkind hb => h2 ?_⟩
        refine List.any_eq_true.2 ⟨r, hr, ?_⟩
        simp only [Bool.and_eq_true, decide_eq_true_eq]
        exact ⟨hkind, (rangesMeet_iff _ _ _ _).2 ⟨k, ha, hk, hb⟩⟩

/-! ### Reads of the source -/

/-- What the count of the source range answers (R170). -/
theorem localCount_cases (s : State) :
    (SourceReadable s s.srcLen.toNat ∧ localCount s = .ok (countBytes (sourceBytes s))) ∨
      ∃ k, k < s.srcLen.toNat ∧ SourceReadable s k ∧ memROk s.platform (s.srcAddr + BitVec.ofNat 32 k) = false ∧
        localCount s = .error ⟨.ioRead, s.srcAddr + BitVec.ofNat 32 k, 0#32⟩ := by
  rcases readBytes_cases s s.srcAddr s.srcLen.toNat with ⟨h, hr⟩ | ⟨k, hk, hlow, hf, hr⟩
  · exact .inl ⟨h, by simp only [localCount, countRange, hr]; rfl⟩
  · exact .inr ⟨k, hk, hlow, hf, by simp only [localCount, countRange, hr]⟩

/-- The lowest unreadable byte is one (the record is determined). -/
theorem lowest_unreadable {s : State} {j k : Nat} (hj : SourceReadable s j)
    (hj' : memROk s.platform (s.srcAddr + BitVec.ofNat 32 j) = false) (hk : SourceReadable s k)
    (hk' : memROk s.platform (s.srcAddr + BitVec.ofNat 32 k) = false) : j = k := by
  rcases Nat.lt_trichotomy j k with h | h | h
  · exact absurd (hk j h) (by simp [hj'])
  · exact h
  · exact absurd (hj k h) (by simp [hk'])

theorem not_readable {s : State} {n k : Nat} (hk : k < n)
    (h : memROk s.platform (s.srcAddr + BitVec.ofNat 32 k) = false) : ¬ SourceReadable s n := fun hr =>
  absurd (hr k hk) (by simp [h])

@[simp] theorem length_sourceBytes (s : State) : (sourceBytes s).length = s.srcLen.toNat := by simp [sourceBytes]

/-! ### Counting -/

theorem count_countBytes {l : List Byte} (h : l.length < 2 ^ 32) (x : Byte) :
    (entry (countBytes l) x).toNat = l.count x := by
  have := List.count_le_length (a := x) (l := l)
  rw [countBytes, entry_tabulate, BitVec.toNat_ofNat, Nat.mod_eq_of_lt (by omega)]

theorem freqCountDone_cases (s : State) :
    (¬ SourceFits s ∧ freqCountDone s = s.fail ⟨.srcWrap, s.srcAddr, s.srcLen⟩) ∨
    (SourceFits s ∧ ∃ k, k < s.srcLen.toNat ∧ SourceReadable s k ∧
      memROk s.platform (s.srcAddr + BitVec.ofNat 32 k) = false ∧
      freqCountDone s = s.fail ⟨.ioRead, s.srcAddr + BitVec.ofNat 32 k, 0#32⟩) ∨
    (SourceFits s ∧ SourceReadable s s.srcLen.toNat ∧
      freqCountDone s = (s.withFreq (countBytes (sourceBytes s))).succeed 0#32 0#64) := by
  by_cases hf : SourceFits s
  · rcases localCount_cases s with ⟨hr, hl⟩ | ⟨k, hk, hlow, hbad, hl⟩
    · exact .inr (.inr ⟨hf, hr, by simp only [freqCountDone, checkSrc_of_fits hf, hl]⟩)
    · exact .inr (.inl ⟨hf, k, hk, hlow, hbad, by simp only [freqCountDone, checkSrc_of_fits hf, hl]⟩)
  · exact .inl ⟨hf, by simp only [freqCountDone, checkSrc_of_wraps hf]⟩

/-- The overflow search finds the least symbol whose counter would pass 2^32 - 1, or none would (R173). -/
theorem firstOverflow_cases (f l : Table Word) :
    (firstOverflow f l = none ∧ ∀ x, (entry f x).toNat + (entry l x).toNat ≤ 2 ^ 32 - 1) ∨
      ∃ x, firstOverflow f l = some x ∧ (entry f x).toNat + (entry l x).toNat > 2 ^ 32 - 1 ∧
        ∀ y, y.toNat < x.toNat → (entry f y).toNat + (entry l y).toNat ≤ 2 ^ 32 - 1 := by
  unfold firstOverflow
  cases h : symbols.find? fun x => decide ((entry f x).toNat + (entry l x).toNat > 2 ^ 32 - 1) with
  | none =>
    refine .inl ⟨rfl, fun x => ?_⟩
    have := List.find?_eq_none.1 h x (mem_symbols x)
    simpa using this
  | some x =>
    refine .inr ⟨x, rfl, by simpa using List.find?_some h, fun y hy => ?_⟩
    obtain ⟨hp, as, bs, hs, hno⟩ := List.find?_eq_some_iff_append.1 h
    have hmem : y ∈ as := by
      have hxi : as.length = x.toNat := by
        have hlt : as.length < symbols.length := by rw [hs]; simp
        have h1 : symbols[as.length] = x := by simp [hs]
        have h2 := congrArg BitVec.toNat h1
        rw [getElem_symbols, BitVec.toNat_ofNat, Nat.mod_eq_of_lt (by simpa using hlt)] at h2
        exact h2
      have hy' : y.toNat < as.length := by omega
      have hlt : y.toNat < symbols.length := by rw [length_symbols]; exact y.isLt
      have h1 : symbols[y.toNat] = y := by rw [getElem_symbols]; simp
      have h2 : symbols[y.toNat] = as[y.toNat] := by simp [hs, List.getElem_append_left hy']
      rw [← h1, h2]
      exact List.getElem_mem hy'
    simpa using hno y hmem

theorem freqAccumDone_cases (s : State) :
    (¬ SourceFits s ∧ freqAccumDone s = s.fail ⟨.srcWrap, s.srcAddr, s.srcLen⟩) ∨
    (SourceFits s ∧ ∃ k, k < s.srcLen.toNat ∧ SourceReadable s k ∧
      memROk s.platform (s.srcAddr + BitVec.ofNat 32 k) = false ∧
      freqAccumDone s = s.fail ⟨.ioRead, s.srcAddr + BitVec.ofNat 32 k, 0#32⟩) ∨
    (SourceFits s ∧ SourceReadable s s.srcLen.toNat ∧ ∃ x,
      (entry s.freq x).toNat + (sourceBytes s).count x > 2 ^ 32 - 1 ∧
      (∀ y, y.toNat < x.toNat → (entry s.freq y).toNat + (sourceBytes s).count y ≤ 2 ^ 32 - 1) ∧
      freqAccumDone s = s.fail ⟨.countOverflow, 0#32, 0#24 ++ x⟩) ∨
    (SourceFits s ∧ SourceReadable s s.srcLen.toNat ∧
      (∀ x, (entry s.freq x).toNat + (sourceBytes s).count x ≤ 2 ^ 32 - 1) ∧
      freqAccumDone s = (s.withFreq (addTables s.freq (countBytes (sourceBytes s)))).succeed 0#32 0#64) := by
  have hlen : (sourceBytes s).length < 2 ^ 32 := by rw [length_sourceBytes]; exact s.srcLen.isLt
  by_cases hf : SourceFits s
  · rcases localCount_cases s with ⟨hr, hl⟩ | ⟨k, hk, hlow, hbad, hl⟩
    · rcases firstOverflow_cases s.freq (countBytes (sourceBytes s)) with ⟨ho, hall⟩ | ⟨x, ho, hx, hlow⟩
      · simp only [count_countBytes hlen] at hall
        exact .inr (.inr (.inr ⟨hf, hr, hall, by simp only [freqAccumDone, checkSrc_of_fits hf, hl, ho]⟩))
      · simp only [count_countBytes hlen] at hx hlow
        exact .inr (.inr (.inl ⟨hf, hr, x, hx, hlow, by simp only [freqAccumDone, checkSrc_of_fits hf, hl, ho]⟩))
    · exact .inr (.inl ⟨hf, k, hk, hlow, hbad, by simp only [freqAccumDone, checkSrc_of_fits hf, hl]⟩)
  · exact .inl ⟨hf, by simp only [freqAccumDone, checkSrc_of_wraps hf]⟩

/-! ### BUILD -/

theorem present_eq_nil {f : Table Word} : present f = [] ↔ ∀ x, entry f x = 0#32 := by
  constructor
  · intro h x
    by_contra hx
    have := mem_present.2 hx
    rw [h] at this
    cases this
  · intro h
    refine List.eq_nil_iff_forall_not_mem.2 fun x hx => mem_present.1 hx (h x)

theorem freqSum_eq_zero {f : Table Word} (h : ∀ x, entry f x = 0#32) : freqSum f = 0 := by
  unfold freqSum
  refine List.sum_eq_zero fun n hn => ?_
  obtain ⟨x, -, rfl⟩ := List.mem_map.1 hn
  rw [h x]; rfl

theorem buildDone_cases (s : State) :
    (freqSum s.freq > 2 ^ 32 - 1 ∧ buildDone s = s.withoutTree.fail ⟨.weightOverflow, 0#32, 0#32⟩) ∨
    ((∀ x, entry s.freq x = 0#32) ∧ buildDone s = s.withoutTree.fail ⟨.emptyInput, 0#32, 0#32⟩) ∨
    (freqSum s.freq ≤ 2 ^ 32 - 1 ∧ (∃ x, entry s.freq x ≠ 0#32) ∧
      ∃ t, buildTree s.freq = .ok t ∧ buildDone s = (s.withTree t).succeed 0#32 0#64) := by
  rcases buildTree_cases s.freq with ⟨hs, h⟩ | ⟨hs, hp, h⟩ | ⟨hs, x, hp, h⟩ | ⟨hs, hk, h⟩
  · exact .inl ⟨hs, by unfold buildDone; rw [h]⟩
  · exact .inr (.inl ⟨present_eq_nil.1 hp, by unfold buildDone; rw [h]⟩)
  · exact .inr (.inr ⟨hs, ⟨x, mem_present.1 (by rw [hp]; simp)⟩, _, h, by unfold buildDone; rw [h]⟩)
  · have hne : present s.freq ≠ [] := by intro e; rw [e] at hk; simp at hk
    obtain ⟨x, hx⟩ := List.exists_mem_of_ne_nil _ hne
    exact .inr (.inr ⟨hs, ⟨x, mem_present.1 hx⟩, _, h, by unfold buildDone; rw [h]⟩)

/-! ### ENCODE and COMPRESS -/

theorem encodeFinish_cases (s : State) :
    (∃ e, encodeStage s = .error e ∧ encodeFinish s = s.failWindow e) ∨
      ∃ k b, encodeStage s = .ok (k, b) ∧
        encodeFinish s = (s.withMem k.mem).succeed (BitVec.ofNat 32 k.offset) (BitVec.ofNat 64 b) := by
  unfold encodeFinish
  cases h : encodeStage s with
  | error e => exact .inl ⟨e, rfl, rfl⟩
  | ok r => exact .inr ⟨r.1, r.2, rfl, rfl⟩

theorem encodeDone_cases (s : State) :
    (¬ SourceFits s ∧ encodeDone s = s.failWindow ⟨.srcWrap, s.srcAddr, s.srcLen⟩) ∨
    (SourceFits s ∧ ¬ WindowFits s ∧ encodeDone s = s.failWindow ⟨.dstWrap, s.dstAddr, s.dstCap⟩) ∨
    (SourceFits s ∧ WindowFits s ∧ encodeDone s = encodeFinish s) := by
  rcases checkRanges_cases s with ⟨h1, h⟩ | ⟨h1, h2, h⟩ | ⟨h1, h2, h⟩
  · exact .inl ⟨h1, by simp only [encodeDone, h]⟩
  · exact .inr (.inl ⟨h1, h2, by simp only [encodeDone, h]⟩)
  · exact .inr (.inr ⟨h1, h2, by simp only [encodeDone, h]⟩)

/-- The tables COMPRESS builds before its encode stage (R228). -/
def compressTables (s : State) : State :=
  if s.srcLen = 0#32 then s.withFreq (countBytes (sourceBytes s))
  else commitBuild (s.withFreq (countBytes (sourceBytes s)))

theorem compressDone_cases (s : State) :
    (¬ SourceFits s ∧ compressDone s = s.failWindow ⟨.srcWrap, s.srcAddr, s.srcLen⟩) ∨
    (SourceFits s ∧ ¬ WindowFits s ∧ compressDone s = s.failWindow ⟨.dstWrap, s.dstAddr, s.dstCap⟩) ∨
    (SourceFits s ∧ WindowFits s ∧ ∃ k, k < s.srcLen.toNat ∧ SourceReadable s k ∧
      memROk s.platform (s.srcAddr + BitVec.ofNat 32 k) = false ∧
      compressDone s = s.failWindow ⟨.ioRead, s.srcAddr + BitVec.ofNat 32 k, 0#32⟩) ∨
    (SourceFits s ∧ WindowFits s ∧ SourceReadable s s.srcLen.toNat ∧
      compressDone s = encodeFinish (compressTables s)) := by
  rcases checkRanges_cases s with ⟨h1, h⟩ | ⟨h1, h2, h⟩ | ⟨h1, h2, h⟩
  · exact .inl ⟨h1, by simp only [compressDone, h]⟩
  · exact .inr (.inl ⟨h1, h2, by simp only [compressDone, h]⟩)
  · rcases localCount_cases s with ⟨hr, hl⟩ | ⟨k, hk, hlow, hbad, hl⟩
    · refine .inr (.inr (.inr ⟨h1, h2, hr, ?_⟩))
      simp only [compressDone, h, hl, compressTables]
      split <;> rfl
    · exact .inr (.inr (.inl ⟨h1, h2, k, hk, hlow, hbad, by simp only [compressDone, h, hl]⟩))

/-! ### DECODE -/

theorem decodeDone_cases (s : State) :
    (¬ SourceFits s ∧ decodeDone s = s.failWindow ⟨.srcWrap, s.srcAddr, s.srcLen⟩) ∨
    (SourceFits s ∧ ¬ WindowFits s ∧ decodeDone s = s.failWindow ⟨.dstWrap, s.dstAddr, s.dstCap⟩) ∨
    (SourceFits s ∧ WindowFits s ∧ s.srcLen.toNat < 1028 ∧
      decodeDone s = s.failWindow ⟨.headerTruncated, s.srcAddr, s.srcLen⟩) ∨
    (SourceFits s ∧ WindowFits s ∧ 1028 ≤ s.srcLen.toNat ∧ ∃ k, k < 1028 ∧ SourceReadable s k ∧
      memROk s.platform (s.srcAddr + BitVec.ofNat 32 k) = false ∧
      decodeDone s = s.failWindow ⟨.ioRead, s.srcAddr + BitVec.ofNat 32 k, 0#32⟩) ∨
    (SourceFits s ∧ WindowFits s ∧ 1028 ≤ s.srcLen.toNat ∧ SourceReadable s 1028 ∧
      decodeDone s = decodeContainer s (bytesAt s.mem s.srcAddr 1028)) := by
  rcases checkRanges_cases s with ⟨h1, h⟩ | ⟨h1, h2, h⟩ | ⟨h1, h2, h⟩
  · exact .inl ⟨h1, by simp only [decodeDone, h]⟩
  · exact .inr (.inl ⟨h1, h2, by simp only [decodeDone, h]⟩)
  · by_cases hl : s.srcLen.toNat < 1028
    · exact .inr (.inr (.inl ⟨h1, h2, hl, by simp only [decodeDone, h, if_pos hl]⟩))
    · rcases readBytes_cases s s.srcAddr 1028 with ⟨hr, hb⟩ | ⟨k, hk, hlow, hbad, hb⟩
      · exact .inr (.inr (.inr (.inr ⟨h1, h2, by omega, hr, by simp only [decodeDone, h, if_neg hl, hb]⟩)))
      · exact .inr (.inr (.inr (.inl ⟨h1, h2, by omega, k, hk, hlow, hbad,
          by simp only [decodeDone, h, if_neg hl, hb]⟩)))

/-- What the part of DECODE after the header can end in (R252 to R262), for the header's table `f` and count `n`. -/
theorem decodeContainer_cases (s : State) (h : List Byte) :
    (headerWord h 0 = 0#32 ∧ s.srcLen.toNat - 1028 ≠ 0 ∧
      decodeContainer s h = (s.withFreq (headerTable h)).failWindow ⟨.trailingBytes, payloadBase s, 0#32⟩) ∨
    (headerWord h 0 = 0#32 ∧ s.srcLen.toNat - 1028 = 0 ∧
      decodeContainer s h = (s.withFreq (headerTable h)).succeed 0#32 0#64) ∨
    (headerWord h 0 ≠ 0#32 ∧ buildTree (headerTable h) = .overflow ∧
      decodeContainer s h = (s.withFreq (headerTable h)).failWindow ⟨.corruptWeightOverflow, s.srcAddr, 0#32⟩) ∨
    (headerWord h 0 ≠ 0#32 ∧ buildTree (headerTable h) = .empty ∧
      decodeContainer s h = (s.withFreq (headerTable h)).failWindow ⟨.emptyTable, s.srcAddr, 0#32⟩) ∨
    (headerWord h 0 ≠ 0#32 ∧ ∃ t, buildTree (headerTable h) = .ok t ∧
      decodeContainer s h = decodePayload ((s.withFreq (headerTable h)).withTree t) t (headerWord h 0)) := by
  unfold decodeContainer
  by_cases hn : headerWord h 0 = 0#32
  · by_cases hp : s.srcLen.toNat - 1028 ≠ 0
    · exact .inl ⟨hn, hp, by simp only [hn, if_true, if_pos hp]⟩
    · exact .inr (.inl ⟨hn, by omega, by simp only [hn, if_true, if_neg hp]⟩)
  · refine .inr (.inr ?_)
    have hf : headerTable h = (s.withFreq (headerTable h)).freq := (State.withFreq_freq _ _).symm
    simp only [if_neg hn]
    generalize s.withFreq (headerTable h) = s1 at *
    rw [hf]
    cases hb : buildTree s1.freq with
    | overflow => exact .inl ⟨hn, rfl, rfl⟩
    | empty => exact .inr (.inl ⟨hn, rfl, rfl⟩)
    | ok t => exact .inr (.inr ⟨hn, t, rfl, rfl⟩)

/-- What the walk stage can end in (R255, R257 to R260). -/
theorem decodePayload_cases (s : State) (t : Tree) (n : Word) :
    (s.dstCap.toNat < n.toNat ∧ decodePayload s t n = s.failWindow ⟨.ioSinkFull, s.dstAddr + s.dstCap, 0#32⟩) ∨
    (n.toNat ≤ s.dstCap.toNat ∧ ∃ e, decodeLoop s t n.toNat 0 0 s.mem = .error e ∧ decodePayload s t n = s.failWindow e) ∨
    (n.toNat ≤ s.dstCap.toNat ∧ ∃ pos mem, decodeLoop s t n.toNat 0 0 s.mem = .ok (pos, mem) ∧
      s.srcLen.toNat - 1028 ≠ ceil8 pos ∧
      decodePayload s t n = s.failWindow ⟨.trailingBytes, payloadBase s + BitVec.ofNat 32 (ceil8 pos), n⟩) ∨
    (n.toNat ≤ s.dstCap.toNat ∧ ∃ pos mem, decodeLoop s t n.toNat 0 0 s.mem = .ok (pos, mem) ∧
      s.srcLen.toNat - 1028 = ceil8 pos ∧ decodePayload s t n = (s.withMem mem).succeed n (BitVec.ofNat 64 pos)) := by
  unfold decodePayload
  by_cases hc : s.dstCap.toNat < n.toNat
  · exact .inl ⟨hc, by rw [if_pos hc]⟩
  · rw [if_neg hc]
    refine .inr ?_
    cases hl : decodeLoop s t n.toNat 0 0 s.mem with
    | error e => exact .inl ⟨by omega, e, rfl, rfl⟩
    | ok r =>
      obtain ⟨pos, mem⟩ := r
      by_cases hp : s.srcLen.toNat - 1028 ≠ ceil8 pos
      · exact .inr (.inl ⟨by omega, pos, mem, rfl, hp, by simp only [if_pos hp]⟩)
      · exact .inr (.inr ⟨by omega, pos, mem, rfl, by omega, by simp only [if_neg hp]⟩)

end Sys2Proof.Machine
end

