-- ==== Sys2Proof/Laws/Container.lean ====
section
/-! SUPPORT. The container (R125, R126, R131): the header read back, and the payload of a run of zero bits. -/

namespace Sys2Proof.Machine

theorem getD_append_add {l r : List Byte} {n : Nat} (h : l.length = n) (i : Nat) : (l ++ r).getD (n + i) 0#8 =
    r.getD i 0#8 := by
  rw [List.getD_append_right _ _ _ _ (by omega), h, Nat.add_sub_cancel_left]

theorem flat_word (xs : List Byte) (g : Byte → Word) (r : List Byte) (i : Nat) (h : i < xs.length) :
    headerWord ((xs.flatMap fun x => bytesBE32 (g x)) ++ r) (4 * i) = g xs[i] := by
  induction xs generalizing i with
  | nil => simp at h
  | cons x xs ih =>
    rw [List.flatMap_cons, List.append_assoc]
    cases i with
    | zero =>
      exact be32_bytesBE32 (g x)
    | succ i =>
      have := ih i (by simpa using h)
      rw [List.getElem_cons_succ, ← this]
      unfold headerWord
      have e : ∀ j, (bytesBE32 (g x) ++ ((xs.flatMap fun x => bytesBE32 (g x)) ++ r)).getD (4 * (i + 1) + j) 0#8 = ((xs.flatMap fun x => bytesBE32 (g x)) ++ r).getD (4 * i + j) 0#8 := by
        intro j
        have : 4 * (i + 1) + j = 4 + (4 * i + j) := by omega
        rw [this]; exact getD_append_add (length_bytesBE32 _) _
      have e0 := e 0
      simp only [Nat.add_zero] at e0
      rw [e0, e 1, e 2, e 3]

theorem headerWord_shift (l r : List Byte) (h : l.length = 4) (i : Nat) : headerWord (l ++ r) (4 + i) =
    headerWord r i := by
  unfold headerWord
  simp only [Nat.add_assoc]
  rw [getD_append_add h, getD_append_add h, getD_append_add h, getD_append_add h]

theorem header_count (n : Word) (f : Table Word) (r : List Byte) : headerWord (headerBytes n f ++ r) 0 = n :=
    be32_bytesBE32 n

theorem header_freq (n : Word) (f : Table Word) (r : List Byte) (x : Byte) : headerWord (headerBytes n f ++ r)
    (4 + 4 * x.toNat) = entry f x := by
  rw [headerBytes, List.append_assoc, headerWord_shift _ _ (length_bytesBE32 n)]
  have hx : x.toNat < symbols.length := by rw [length_symbols]; exact x.isLt
  rw [flat_word symbols (fun x => entry f x) r x.toNat hx, getElem_symbols]
  simp

theorem header_table (n : Word) (f : Table Word) (r : List Byte) : headerTable (headerBytes n f ++ r) = f := by
  refine table_ext fun x => ?_
  rw [headerTable, entry_tabulate, header_freq]

theorem headerWord_headerBytes (n : Word) (f : Table Word) : headerWord (headerBytes n f) 0 = n :=
    by simpa using header_count n f []

theorem headerTable_headerBytes (n : Word) (f : Table Word) : headerTable (headerBytes n f) = f :=
    by simpa using header_table n f []

theorem header_zero (f : Table Word) (h : ∀ x, entry f x = 0#32) : headerBytes 0#32 f = List.replicate 1028 0#8 := by
  have hz : bytesBE32 0#32 = List.replicate 4 0#8 := by decide
  have : ∀ L : List Byte, (L.flatMap fun x => bytesBE32 (entry f x)) = List.replicate (L.length * 4) 0#8 := by
    intro L
    induction L with
    | nil => rfl
    | cons x L ih => rw [List.flatMap_cons, ih, h x, hz, ← List.replicate_add, List.length_cons]; congr 1; omega
  rw [headerBytes, this, hz, ← List.replicate_add, length_symbols]

theorem packBits_replicate (n : Nat) : packBits (List.replicate n false) = List.replicate (ceil8 n) 0#8 := by
  unfold packBits
  rw [List.length_replicate]
  refine List.ext_getElem (by simp) fun i h1 h2 => ?_
  simp only [List.getElem_map, List.getElem_range, List.getElem_replicate]
  have : ((List.range 8).map fun t => (List.replicate n false).getD (8 * i + t) false) = List.replicate 8 false := by
    refine List.ext_getElem (by simp) fun t h1 h2 => ?_
    simp only [List.getElem_map, List.getElem_range, List.getElem_replicate, List.getD_eq_getElem?_getD, List.getElem?_replicate]
    split <;> rfl
  rw [this]; decide

end Sys2Proof.Machine
end

