-- ==== Sys2Proof/Laws/Queue.lean ====
section
/-! SUPPORT. The priority queue of the tree builder (R192): the key order, insertion, and the queue after some merge
steps. -/

namespace Sys2Proof.Machine

/-! ### The key order -/

theorem keyBefore_iff (a b : QueueNode) :
    keyBefore a b = true ↔ a.weight < b.weight ∨ (a.weight = b.weight ∧ a.id.toNat < b.id.toNat) := by
  simp [keyBefore]

theorem keyBefore_trans {a b c : QueueNode} (h : keyBefore a b = true) (k : keyBefore b c = true) :
    keyBefore a c = true := by
  rw [keyBefore_iff] at *; omega

theorem keyBefore_total {a b : QueueNode} (h : a.id ≠ b.id) (k : ¬ keyBefore a b = true) : keyBefore b a = true := by
  have : a.id.toNat ≠ b.id.toNat := fun e => h (BitVec.eq_of_toNat_eq e)
  rw [keyBefore_iff] at *; omega

/-- The queue is in key order, least first. -/
def Ordered (q : List QueueNode) : Prop := q.Pairwise fun a b => keyBefore a b = true

theorem ordered_insertNode {a : QueueNode} {q : List QueueNode} (h : Ordered q) (ha : ∀ c ∈ q, a.id ≠ c.id) :
    Ordered (insertNode a q) := by
  unfold Ordered at *
  induction q with
  | nil => simp [insertNode]
  | cons b rest ih =>
    rw [List.pairwise_cons] at h
    rw [insertNode]
    split
    · next hk =>
      refine List.pairwise_cons.2 ⟨fun c hc => ?_, List.pairwise_cons.2 h⟩
      rcases List.mem_cons.1 hc with rfl | hc
      · exact hk
      · exact keyBefore_trans hk (h.1 c hc)
    · next hk =>
      refine List.pairwise_cons.2 ⟨fun c hc => ?_, ih h.2 fun c hc => ha c (List.mem_cons_of_mem _ hc)⟩
      rcases List.mem_cons.1 ((insertNode_perm a rest).mem_iff.1 hc) with rfl | hc
      · exact keyBefore_total (ha b List.mem_cons_self) hk
      · exact h.1 c hc

/-! ### Merge steps -/

/-- The queue after one merge step, which creates node `256 + j` (R193). -/
def mergeStep (j : Nat) : List QueueNode → List QueueNode
  | a :: b :: rest => insertNode ⟨a.weight + b.weight, BitVec.ofNat 9 (256 + j)⟩ rest
  | q => q

/-- The queue after `i` merge steps, the first of which creates node `256 + j`. -/
def queueAfter : Nat → Nat → List QueueNode → List QueueNode
  | 0, _, q => q
  | i + 1, j, q => queueAfter i (j + 1) (mergeStep j q)

theorem queueAfter_succ (i j : Nat) (q : List QueueNode) :
    queueAfter (i + 1) j q = mergeStep (j + i) (queueAfter i j q) := by
  induction i generalizing j q with
  | zero => rfl
  | succ i ih =>
    rw [queueAfter, ih]
    show _ = mergeStep (j + (i + 1)) (queueAfter i (j + 1) (mergeStep j q))
    rw [Nat.add_assoc, Nat.add_comm 1 i]

/-- What holds of the queue before the step that creates node `256 + j`: it is in key order, and its ids are distinct and
older than that node's. -/
structure QueueInv (j : Nat) (q : List QueueNode) : Prop where
  ordered : Ordered q
  nodup   : (q.map QueueNode.id).Nodup
  older   : ∀ c ∈ q, c.id.toNat < 256 + j

theorem queueInv_mergeStep {j : Nat} (hj : j < 255) {q : List QueueNode} (h : QueueInv j q) :
    QueueInv (j + 1) (mergeStep j q) := by
  have hid : (BitVec.ofNat 9 (256 + j)).toNat = 256 + j := by rw [BitVec.toNat_ofNat]; omega
  match q, h with
  | [], h => exact ⟨h.ordered, h.nodup, fun c hc => by cases hc⟩
  | [a], h => exact ⟨h.ordered, h.nodup, fun c hc => lt_trans (h.older c hc) (by omega)⟩
  | a :: b :: rest, h =>
    have hr : Ordered rest := (List.pairwise_cons.1 (List.pairwise_cons.1 h.ordered).2).2
    have hold : ∀ c ∈ rest, c.id.toNat < 256 + j := fun c hc => h.older c (by simp [hc])
    have hne : ∀ c ∈ rest, BitVec.ofNat 9 (256 + j) ≠ c.id := fun c hc e => by
      have := hold c hc
      rw [← e, hid] at this
      omega
    have hperm := insertNode_perm ⟨a.weight + b.weight, BitVec.ofNat 9 (256 + j)⟩ rest
    refine ⟨ordered_insertNode hr hne, ?_, fun c hc => ?_⟩
    · refine ((hperm.map QueueNode.id).nodup_iff).2 ?_
      refine List.nodup_cons.2 ⟨fun hm => ?_, ?_⟩
      · obtain ⟨c, hc, e⟩ := List.mem_map.1 hm
        exact hne c hc e.symm
      · have := h.nodup
        simp only [List.map_cons, List.nodup_cons] at this
        exact this.2.2
    · rcases List.mem_cons.1 (hperm.mem_iff.1 hc) with rfl | hc
      · show (BitVec.ofNat 9 (256 + j)).toNat < _
        omega
      · have := hold c hc; omega

theorem length_mergeStep (j : Nat) (q : List QueueNode) (h : 2 ≤ q.length) :
    (mergeStep j q).length = q.length - 1 := by
  match q, h with
  | a :: b :: rest, _ => simp [mergeStep]

/-- A merge step keeps the total weight (R195). -/
theorem weight_mergeStep (j : Nat) (q : List QueueNode) :
    ((mergeStep j q).map QueueNode.weight).sum = (q.map QueueNode.weight).sum := by
  match q with
  | [] => rfl
  | [a] => rfl
  | a :: b :: rest =>
    rw [mergeStep, ((insertNode_perm _ rest).map QueueNode.weight).sum_eq]
    simp [Nat.add_assoc]

theorem queueAfter_inv {i j : Nat} {q : List QueueNode} (h : QueueInv j q) (hi : i + j ≤ 255)
    (hl : i < q.length) :
    QueueInv (j + i) (queueAfter i j q) ∧ (queueAfter i j q).length = q.length - i ∧
      ((queueAfter i j q).map QueueNode.weight).sum = (q.map QueueNode.weight).sum := by
  induction i generalizing j q with
  | zero => exact ⟨h, rfl, rfl⟩
  | succ i ih =>
    obtain ⟨h1, h2, h3⟩ := ih (queueInv_mergeStep (by omega) h) (by omega)
      (by rw [length_mergeStep j q (by omega)]; omega)
    rw [length_mergeStep j q (by omega)] at h2
    rw [weight_mergeStep] at h3
    refine ⟨?_, by rw [queueAfter, h2]; omega, by rw [queueAfter, h3]⟩
    rw [Nat.add_assoc, Nat.add_comm 1 i] at h1
    exact h1

/-- The merge loop's entry `i` is made of the two least nodes of the queue after `i` steps (R193, R194). -/
theorem mergeLoop_getElem {steps j i : Nat} {q : List QueueNode} (hl : q.length = steps + 1) (hi : i < steps) :
    ∃ a b rest, queueAfter i j q = a :: b :: rest ∧
      (mergeLoop steps j q)[i]? = some ⟨a.id, b.id, BitVec.ofNat 32 (a.weight + b.weight)⟩ := by
  induction i generalizing steps j q with
  | zero =>
    obtain ⟨steps, rfl⟩ : ∃ k, steps = k + 1 := ⟨steps - 1, by omega⟩
    match q, hl with
    | a :: b :: rest, _ => exact ⟨a, b, rest, rfl, by simp [mergeLoop]⟩
  | succ i ih =>
    obtain ⟨steps, rfl⟩ : ∃ k, steps = k + 1 := ⟨steps - 1, by omega⟩
    match q, hl with
    | a :: b :: rest, hl =>
      obtain ⟨a', b', rest', h1, h2⟩ := ih (steps := steps) (j := j + 1)
        (q := insertNode ⟨a.weight + b.weight, BitVec.ofNat 9 (256 + j)⟩ rest) (by simp at hl ⊢; omega) (by omega)
      exact ⟨a', b', rest', h1, by rw [mergeLoop, List.getElem?_cons_succ, h2]⟩

/-- The first queue: its order, its ids and its weight. -/
theorem initialQueue_inv (f : Table Word) : QueueInv 0 (initialQueue f) := by
  have hids : ((leafNodes f).map QueueNode.id).Nodup := by
    rw [leafNodes_eq, List.map_map]
    refine (nodup_present f).map_on fun x _ y _ e => ?_
    have := congrArg (BitVec.setWidth 8) e
    simpa only [Function.comp, leafId_symbol] using this
  have hord : ∀ l : List QueueNode, (l.map QueueNode.id).Nodup → Ordered (l.foldr insertNode []) := by
    intro l hn
    induction l with
    | nil => exact List.Pairwise.nil
    | cons a l ih =>
      rw [List.map_cons, List.nodup_cons] at hn
      refine ordered_insertNode (ih hn.2) fun c hc e => hn.1 ?_
      exact List.mem_map.2 ⟨c, (foldr_insertNode_perm l).mem_iff.1 hc, e.symm⟩
  refine ⟨hord _ hids, (((initialQueue_perm f).map QueueNode.id).nodup_iff).2 hids, fun c hc => ?_⟩
  have := (initialQueue_perm f).mem_iff.1 hc
  rw [leafNodes_eq] at this
  obtain ⟨x, -, rfl⟩ := List.mem_map.1 this
  rw [leafId_toNat]
  exact x.isLt

theorem sum_filter_ne_zero {α : Type} (l : List α) (g : α → Nat) (p : α → Bool) (h : ∀ x, p x = false → g x = 0) :
    ((l.filter p).map g).sum = (l.map g).sum := by
  induction l with
  | nil => rfl
  | cons x l ih =>
    cases hp : p x with
    | true => rw [List.filter_cons_of_pos hp, List.map_cons, List.sum_cons, ih]; rfl
    | false =>
      rw [List.filter_cons_of_neg (by simp [hp]), ih, List.map_cons, List.sum_cons, h x hp, Nat.zero_add]

/-- The first queue's total weight is the sum of the counters. -/
theorem initialQueue_weight (f : Table Word) : ((initialQueue f).map QueueNode.weight).sum = freqSum f := by
  rw [((initialQueue_perm f).map QueueNode.weight).sum_eq, leafNodes_eq, List.map_map]
  exact sum_filter_ne_zero symbols (fun x => (entry f x).toNat) _ fun x hx => by
    have : entry f x = 0#32 := by simpa using hx
    rw [this]; rfl

theorem length_initialQueue (f : Table Word) : (initialQueue f).length = (present f).length := by
  rw [(initialQueue_perm f).length_eq, leafNodes_eq, List.length_map]

end Sys2Proof.Machine
end

