-- ==== Sys2Proof/Laws/Count.lean ====
section
/-! SUPPORT. Counting (R170 to R176): sums of counts, a range read in two parts, tables added, and the tree of one symbol. -/

namespace Sys2Proof.Machine

theorem sum_count (l : List Byte) : (symbols.map fun x => l.count x).sum = l.length := by
  induction l with
  | nil => exact List.sum_eq_zero fun n hn => by obtain ⟨x, -, rfl⟩ := List.mem_map.1 hn; rfl
  | cons y l ih =>
    have h1 : (fun x : Byte => (y :: l).count x) = fun x => l.count x + (if x = y then 1 else 0) := by
      funext x; rw [List.count_cons]; by_cases hx : x = y
      · subst hx; simp
      · have : ¬ (y == x) = true := by simpa using fun e => hx e.symm
        rw [if_neg hx, if_neg this]
    have h2 : ∀ L : List Byte, L.Nodup → y ∈ L → (L.map fun x => if x = y then 1 else 0).sum = 1 := by
      intro L hn hm
      induction L with
      | nil => cases hm
      | cons z L ih =>
        rw [List.map_cons, List.sum_cons]
        by_cases hz : z = y
        · have : (L.map fun x => if x = y then 1 else 0).sum = 0 := by
            refine List.sum_eq_zero fun n hn' => ?_
            obtain ⟨x, hx, rfl⟩ := List.mem_map.1 hn'
            rw [if_neg]; rintro rfl; rw [hz] at hn; exact (List.nodup_cons.1 hn).1 hx
          rw [this, if_pos hz]
        · rw [if_neg hz, ih (List.nodup_cons.1 hn).2 ((List.mem_cons.1 hm).resolve_left (Ne.symm hz))]
    rw [h1, List.sum_map_add, ih, List.length_cons, h2 symbols nodup_symbols (mem_symbols y)]

theorem freqSum_eq (f : Table Word) (g : Byte → Nat) (h : ∀ x, (entry f x).toNat = g x) : freqSum f =
    (symbols.map g).sum := by
  unfold freqSum; congr 2; funext x; exact h x

theorem freqSum_countBytes (l : List Byte) (h : l.length < 2^32) : freqSum (countBytes l) = l.length := by
  rw [freqSum_eq _ _ (fun x => count_countBytes h x), sum_count]

theorem countBytes_append (l r : List Byte) : addTables (countBytes l) (countBytes r) = countBytes (l ++ r) := by
  refine table_ext fun x => ?_
  simp [addTables, countBytes, BitVec.ofNat_add]

theorem readBytes_append (s : State) (a : Word) (i j : Nat) : readBytes s a (i + j) = match readBytes s a i with
   | .error e => .error e
   | .ok l => match readBytes s (a + BitVec.ofNat 32 i) j with
     | .error e => .error e
     | .ok r => .ok (l ++ r) := by
  induction i generalizing a with
  | zero => simp [readBytes]; cases readBytes s a j <;> rfl
  | succ i ih =>
    rw [Nat.succ_add, readBytes, readBytes, ih, add_ofNat_succ a i]
    cases memRead s a with
    | error e => rfl
    | ok b =>
      simp only
      cases readBytes s (a + 1#32) i with
      | error e => rfl
      | ok l =>
        simp only
        cases readBytes s (a + 1#32 + BitVec.ofNat 32 i) j <;> rfl

theorem present_single {f : Table Word} {x : Byte} (hx : entry f x ≠ 0#32)
    (h : ∀ y, y ≠ x → entry f y = 0#32) : present f = [x] := by
  have h1 : ∀ y, y ∈ present f ↔ y ∈ [x] := fun y => by
    rw [mem_present, List.mem_singleton]
    exact ⟨fun hy => by by_contra e; exact hy (h y e), fun e => e ▸ hx⟩
  exact List.perm_singleton.1 ((List.perm_ext_iff_of_nodup (nodup_present f) (List.nodup_singleton x)).2 h1)

theorem freqSum_single {f : Table Word} {x : Byte} (h : present f = [x]) : freqSum f = (entry f x).toNat := by
  have := initialQueue_weight f
  rw [((initialQueue_perm f).map QueueNode.weight).sum_eq, leafNodes_eq, h] at this
  simpa using this.symm

theorem build_single {f : Table Word} {x : Byte} (h : present f = [x]) : buildTree f = .ok (singleTree x) := by
  have hs := freqSum_single h
  have := (entry f x).isLt
  rcases buildTree_cases f with ⟨h', -⟩ | ⟨-, h', -⟩ | ⟨-, y, hp, h'⟩ | ⟨-, hk, -⟩
  · omega
  · rw [h] at h'; cases h'
  · rw [h] at hp; cases hp; exact h'
  · rw [h] at hk; simp at hk

theorem count_pos {l : List Byte} (hl : l.length < 2^32) {x : Byte} (hx : x ∈ l) : entry (countBytes l) x ≠ 0#32 := by
  intro h
  have := count_countBytes hl x
  rw [h] at this
  have h2 := List.count_pos_iff.2 hx
  have : (0#32).toNat = 0 := rfl
  omega

theorem build_counts {l : List Byte} (hl : l.length < 2^32) (h0 : l ≠ []) : ∃ T, buildTree (countBytes l) = .ok T := by
  have hs := freqSum_countBytes l hl
  rcases buildTree_cases (countBytes l) with ⟨h, -⟩ | ⟨-, h, -⟩ | ⟨-, y, hp, h'⟩ | ⟨-, hk, h'⟩
  · omega
  · obtain ⟨x, hx⟩ := List.exists_mem_of_ne_nil _ h0
    exact absurd (present_eq_nil.1 h x) (count_pos hl hx)
  · exact ⟨_, h'⟩
  · exact ⟨_, h'⟩

end Sys2Proof.Machine
end

