-- ==== Sys2Proof/Laws/Decode.lean ====
section
/-! SUPPORT. The command word's fields as numbers, and the opcode map in both directions (R110, R111). -/

namespace Sys2Proof

theorem opcField_toNat (w : Word) : (opcField w).toNat = w.toNat % 256 := by
  simp [opcField, BitVec.extractLsb'_toNat]

theorem rsvField_toNat (w : Word) : (rsvField w).toNat = w.toNat / 256 := by
  have := w.isLt
  simp [rsvField, BitVec.extractLsb'_toNat, Nat.shiftRight_eq_div_pow]
  omega

theorem rsvField_eq_zero (w : Word) : rsvField w = 0#24 ↔ w.toNat / 256 = 0 := by
  rw [← BitVec.toNat_inj, rsvField_toNat]; simp

/-- The two directions of the opcode map agree. -/
theorem commandOfOpc_eq_some (o : Byte) (i : Instr) : commandOfOpc o = some i ↔ o = opcOf i := by
  revert o; cases i <;> decide

theorem commandOfOpc_eq_none (o : Byte) : commandOfOpc o = none ↔ (o.toNat = 0 ∨ 8 ≤ o.toNat) := by
  revert o; decide

end Sys2Proof
end

