-- ==== Sys2Proof/Laws/Step.lean ====
section
/-! SUPPORT. One step, taken apart: whose turn it is and what then happens; and what the shared endings of a command
leave (R150, R152, R285). -/

namespace Sys2Proof.Machine

/-! ### Whose turn it is -/

theorem engineWord_eq_some (s : State) (w : Word) : engineWord s = some w ↔ Due s w := by
  unfold engineWord Due
  cases h : s.pend with
  | none => simp
  | some v => by_cases hd : s.engineDelay = 0 ∨ s.inputs = [] <;> simp [hd]

theorem engineWord_eq_none (s : State) : engineWord s = none ↔ ∀ w, ¬ Due s w := by
  constructor
  · intro h w hd
    rw [← engineWord_eq_some, h] at hd
    cases hd
  · intro h
    cases he : engineWord s with
    | none => rfl
    | some w => exact absurd ((engineWord_eq_some s w).1 he) (h w)

/-- Everything a step can be: the ENGINE step of a due word, the oldest host access, or a wait. -/
theorem step_cases (s : State) :
    (∃ w i, Due s w ∧ decode w = .ok i ∧ step s = exec i s) ∨
    (∃ w r, Due s w ∧ decode w = .error r ∧ step s = .next (illegalCommand r w s)) ∨
    (∃ op rest, (∀ w, ¬ Due s w) ∧ s.inputs = op :: rest ∧ step s = hostStep op (s.takeInput rest)) ∨
    ((∀ w, ¬ Due s w) ∧ s.inputs = [] ∧ step s = .next s) := by
  cases he : engineWord s with
  | some w =>
    have hd := (engineWord_eq_some s w).1 he
    cases hw : decode w with
    | ok i => exact .inl ⟨w, i, hd, hw, by simp only [step, he, hw]⟩
    | error r => exact .inr (.inl ⟨w, r, hd, hw, by simp only [step, he, hw]⟩)
  | none =>
    have hn := (engineWord_eq_none s).1 he
    cases hi : s.inputs with
    | nil => exact .inr (.inr (.inr ⟨hn, rfl, by simp only [step, he, hi]⟩))
    | cons op rest => exact .inr (.inr (.inl ⟨op, rest, hn, rfl, by simp only [step, he, hi]⟩))

theorem due_unique {s : State} {v w : Word} (hv : Due s v) (hw : Due s w) : v = w := by
  have := hv.1.symm.trans hw.1
  exact Option.some.inj this

theorem step_due {s : State} {w : Word} (h : Due s w) :
    step s = match decode w with | .ok i => exec i s | .error r => .next (illegalCommand r w s) := by
  rcases step_cases s with ⟨v, i, hd, hv, h'⟩ | ⟨v, i, hd, hv, h'⟩ | ⟨_, _, hn, _⟩ | ⟨hn, _⟩
  · cases due_unique hd h; rw [h', hv]
  · cases due_unique hd h; rw [h', hv]
  · exact absurd h (hn w)
  · exact absurd h (hn w)

theorem step_host {s : State} {op : HostOp} {rest : List HostOp} (h : ∀ w, ¬ Due s w) (hi : s.inputs = op :: rest) :
    step s = hostStep op (s.takeInput rest) := by
  unfold step; rw [(engineWord_eq_none s).2 h, hi]

theorem step_idle {s : State} (h : ∀ w, ¬ Due s w) (hi : s.inputs = []) : step s = .next s := by
  unfold step; rw [(engineWord_eq_none s).2 h, hi]

/-! ### Runs -/

theorem run_next_of (M : Host.Core) (k : Nat) (s t : M.State) (h : M.step s = .next t) : M.run (k + 1) s = M.run k t := by
  rw [Host.Core.run.eq_2, h]

theorem run_fault_of (M : Host.Core) (k : Nat) (s : M.State) (f : M.Fault) (h : M.step s = .fault f) :
    M.run (k + 1) s = .fault f := by
  rw [Host.Core.run.eq_2, h]

theorem run_next {k : Nat} {s t : State} (h : step s = .next t) : core.run (k + 1) s = core.run k t := run_next_of core k s t h

theorem run_fault {k : Nat} {s : State} {f : Fault} (h : step s = .fault f) : core.run (k + 1) s = .fault f :=
  run_fault_of core k s f h

/-! ### How a command ends -/

theorem completedOk_succeed (s : State) (o : Word) (b : BitVec 64) : CompletedOk (s.succeed o b) o b :=
  ⟨rfl, rfl, rfl, rfl, rfl, rfl, rfl, rfl⟩

theorem completedWith_fail (s : State) (e : CmdError) : CompletedWith (s.fail e) e :=
  ⟨rfl, rfl, rfl, rfl, rfl, rfl, rfl, rfl⟩

theorem completedWith_failWindow (s : State) (e : CmdError) : CompletedWith (s.failWindow e) e :=
  completedWith_fail _ _

theorem controlKept_refl (s : State) : ControlKept s s := ⟨rfl, rfl, rfl, rfl, rfl, rfl, rfl, rfl, rfl, rfl⟩

theorem ControlKept.trans {s t u : State} (h : ControlKept s t) (k : ControlKept t u) : ControlKept s u where
  ie := k.ie.trans h.ie
  busyWr := k.busyWr.trans h.busyWr
  lastCmd := k.lastCmd.trans h.lastCmd
  srcAddr := k.srcAddr.trans h.srcAddr
  srcLen := k.srcLen.trans h.srcLen
  dstAddr := k.dstAddr.trans h.dstAddr
  dstCap := k.dstCap.trans h.dstCap
  platform := k.platform.trans h.platform
  inputs := k.inputs.trans h.inputs
  hostData := k.hostData.trans h.hostData

theorem controlKept_succeed (s : State) (o : Word) (b : BitVec 64) : ControlKept s (s.succeed o b) :=
  ⟨rfl, rfl, rfl, rfl, rfl, rfl, rfl, rfl, rfl, rfl⟩

theorem controlKept_fail (s : State) (e : CmdError) : ControlKept s (s.fail e) :=
  ⟨rfl, rfl, rfl, rfl, rfl, rfl, rfl, rfl, rfl, rfl⟩

theorem controlKept_failWindow (s : State) (e : CmdError) : ControlKept s (s.failWindow e) :=
  ⟨rfl, rfl, rfl, rfl, rfl, rfl, rfl, rfl, rfl, rfl⟩

theorem controlKept_withFreq (s : State) (f : Table Word) : ControlKept s (s.withFreq f) :=
  ⟨rfl, rfl, rfl, rfl, rfl, rfl, rfl, rfl, rfl, rfl⟩

theorem controlKept_withTree (s : State) (t : Tree) : ControlKept s (s.withTree t) :=
  ⟨rfl, rfl, rfl, rfl, rfl, rfl, rfl, rfl, rfl, rfl⟩

theorem controlKept_withoutTree (s : State) : ControlKept s s.withoutTree :=
  ⟨rfl, rfl, rfl, rfl, rfl, rfl, rfl, rfl, rfl, rfl⟩

theorem controlKept_withMem (s : State) (m : Memory) : ControlKept s (s.withMem m) :=
  ⟨rfl, rfl, rfl, rfl, rfl, rfl, rfl, rfl, rfl, rfl⟩

end Sys2Proof.Machine
end

