-- ==== Sys2Proof/Laws/Stage.lean ====
section
/-! SUPPORT. The encode stage inside ENCODE and COMPRESS (R220 to R229): its frames, its normal end, and the first error it meets. -/

namespace Sys2Proof.Machine

/-! ### Frames -/

theorem sinkHolds_bytes {s : State} {l : List Byte} {k : Sink}
    (h : SinkHolds s l k) : bytesAt k.mem s.dstAddr l.length = l := by
  refine List.ext_getElem (by simp) fun i h1 h2 => ?_
  rw [getElem_bytesAt]; exact h.inside i h2

theorem memoryKeptPast_of {s : State} {l : List Byte} {k : Sink} (h : SinkHolds s l k) (t : State)
    (ht : t.mem = k.mem) : MemoryKeptPast s t l.length := by
  intro a ha; rw [ht]; exact h.outside a ha

theorem memKept_failWindow (s : State) (e : CmdError) : MemoryKeptOutsideWindow s (s.failWindow e) := by
  intro a ha
  show readMem s.spoilWindow.mem a = _
  rw [readMem_spoilWindow, if_neg]
  rintro ⟨h1, h2⟩
  rcases ha with h | h <;> simp_all

theorem inWindow_addr {s : State} (hw : WindowFits s) {i : Nat} (hi : i < s.dstCap.toNat) : inWindow s
    (s.dstAddr + BitVec.ofNat 32 i) = true := by
  unfold WindowFits at hw
  have := s.dstCap.isLt
  have e : (s.dstAddr + BitVec.ofNat 32 i).toNat = s.dstAddr.toNat + i := by
    rw [BitVec.toNat_add, BitVec.toNat_ofNat, Nat.mod_eq_of_lt (a := i) (by omega), Nat.mod_eq_of_lt (by omega)]
  simp [inWindow, e]; omega

theorem memKept_sink {s : State} (hw : WindowFits s) {l : List Byte} {k : Sink} (h : SinkHolds s l k) (t : State)
    (ht : t.mem = k.mem) : MemoryKeptOutsideWindow s t := by
  intro a ha
  rw [ht]
  refine h.outside a fun i hi e => ?_
  subst e
  have h1 := inWindow_addr hw (lt_of_lt_of_le hi h.fits)
  have h2 := h.writable i hi
  rcases ha with h | h <;> simp_all

theorem sink_transfer {s u : State} {l : List Byte} {k : Sink} (h : SinkHolds u l k) (hm : u.mem = s.mem)
    (hp : u.platform = s.platform) (hd : u.dstAddr = s.dstAddr) (hc : u.dstCap = s.dstCap) : SinkHolds s l k where
  offset := h.offset
  fits := by rw [← hc]; exact h.fits
  writable := by rw [← hp, ← hd]; exact h.writable
  inside := by rw [← hd]; exact h.inside
  outside := by rw [← hd, ← hm]; exact h.outside
  wf := by rw [← hm]; exact h.wf

theorem memKept_refl {s t : State} (h : t.mem = s.mem) : MemoryKeptOutsideWindow s t := fun a _ => by rw [h]

theorem controlKept_finish (s : State) : ControlKept s (encodeFinish s) := by
  rcases encodeFinish_cases s with ⟨e, -, h⟩ | ⟨k, b, -, h⟩ <;> rw [h]
  · exact controlKept_failWindow _ _
  · exact (controlKept_withMem _ _).trans (controlKept_succeed _ _ _)

theorem memKept_finish {s : State} (hw : WindowFits s) : MemoryKeptOutsideWindow s (encodeFinish s) := by
  rcases encodeFinish_cases s with ⟨e, -, h⟩ | ⟨k, b, hst, h⟩ <;> rw [h]
  · exact memKept_failWindow _ _
  · exact memKept_sink hw (encodeStage_ok hst).1 _ rfl

theorem tables_finish (s : State) : TablesKept s (encodeFinish s) := by
  rcases encodeFinish_cases s with ⟨e, -, h⟩ | ⟨k, b, -, h⟩ <;> rw [h] <;> exact ⟨rfl, rfl⟩

theorem finish_error {s : State} {e : CmdError} (h : encodeStage s = .error e) : encodeFinish s = s.failWindow e := by
  rcases encodeFinish_cases s with ⟨e', h', hf⟩ | ⟨k, b, h', hf⟩
  · rw [h] at h'; cases h'; exact hf
  · rw [h] at h'; cases h'

/-! ### The normal end -/

theorem length_encodedBytes (s : State) : (encodedBytes s).length = 1028 + ceil8 (encodedBits s).length := by
  rw [encodedBytes, container, List.length_append, length_headerBytes, length_packBits]; rfl

/-- When the encode stage succeeds, and what it then leaves (R226). -/
theorem finish_ok (s : State) (hr : SourceReadable s s.srcLen.toNat) (hc : ∀ x ∈ sourceBytes s, s.code x ≠ [])
    (hcap : 1028 + ceil8 (encodedBits s).length ≤ s.dstCap.toNat)
    (hw : WindowWritable s (1028 + ceil8 (encodedBits s).length)) :
    ∃ k : Sink, encodeFinish s = (s.withMem k.mem).succeed (BitVec.ofNat 32 (1028 + ceil8 (encodedBits s).length))
    (BitVec.ofNat 64 (encodedBits s).length) ∧
      SinkHolds s (encodedBytes s) k := by
  have hl := length_encodedBytes s
  obtain ⟨⟨k, b⟩, hst⟩ := encodeStage_of_fits (s := s) hr hc (by rw [← hl] at hcap; exact hcap) (by rw [← hl] at hw; exact hw)
  obtain ⟨h1, h2, -, -⟩ := encodeStage_ok hst
  refine ⟨k, ?_, h1⟩
  rcases encodeFinish_cases s with ⟨e, he, -⟩ | ⟨k', b', he, hf⟩
  · rw [hst] at he; cases he
  · rw [hst] at he; cases he
    rw [hf, h1.offset, h2]
    have : (container s.srcLen s.freq s.code (bytesAt s.mem s.srcAddr s.srcLen.toNat)).length = _ := hl
    rw [this]; rfl

theorem ceil8_bound {n c : Nat} (h : 1028 + ceil8 n ≤ c) (hc : c < 2^32) : n < 2 ^ 35 := by unfold ceil8 at h; omega

theorem failWindow_err {s : State} {e : CmdError} : (s.failWindow e).err ≠ 0#4 := by
  show errNumber e.cause ≠ 0#4
  cases e.cause <;> decide

/-- What a stage that ended without an error had written. -/
theorem finish_success {s : State} (h : (encodeFinish s).err = 0#4) : ∃ k : Sink, SinkHolds s (encodedBytes s) k ∧
    encodeFinish s = (s.withMem k.mem).succeed (BitVec.ofNat 32 (encodedBytes s).length)
    (BitVec.ofNat 64 (encodedBits s).length) ∧ ∀ x ∈ sourceBytes s, s.code x ≠ [] := by
  rcases encodeFinish_cases s with ⟨e, he, hf⟩ | ⟨k, b, he, hf⟩
  · rw [hf] at h
    have : errNumber e.cause = 0#4 := h
    exfalso; revert this; cases e.cause <;> decide
  · obtain ⟨h1, h2, -, h4⟩ := encodeStage_ok he
    refine ⟨k, h1, ?_, h4⟩
    rw [hf, h1.offset, h2]; rfl

/-! ### The first error -/

/-- Writing gets no further than offset `p`, and ends there in error `e`: SINK_FULL where `p` is the capacity, or WRITE
at a byte that is not writable (R290). -/
structure StopsAt (s : State) (p : Nat) (e : CmdError) : Prop where
  below : WindowWritable s p
  stop  : (p = s.dstCap.toNat ∧ e = ⟨.ioSinkFull, s.dstAddr + s.dstCap, 0#32⟩) ∨
    (p < s.dstCap.toNat ∧ memWOk s.platform (s.dstAddr + BitVec.ofNat 32 p) = false ∧
      e = ⟨.ioWrite, s.dstAddr + BitVec.ofNat 32 p, 0#32⟩)

theorem stopsAt_full {s : State} (hw : WindowWritable s s.dstCap.toNat) :
    StopsAt s s.dstCap.toNat ⟨.ioSinkFull, s.dstAddr + s.dstCap, 0#32⟩ := ⟨hw, .inl ⟨rfl, rfl⟩⟩

theorem stopsAt_bad {s : State} {p : Nat} (hw : WindowWritable s p) (hp : p < s.dstCap.toNat)
    (hb : memWOk s.platform (s.dstAddr + BitVec.ofNat 32 p) = false) :
    StopsAt s p ⟨.ioWrite, s.dstAddr + BitVec.ofNat 32 p, 0#32⟩ := ⟨hw, .inr ⟨hp, hb, rfl⟩⟩

theorem StopsAt.le {s : State} {p : Nat} {e : CmdError} (h : StopsAt s p e) : p ≤ s.dstCap.toNat := by
  rcases h.stop with ⟨h, -⟩ | ⟨h, -⟩ <;> omega

theorem emit_stops {s : State} {l : List Byte} {k : Sink} {v : Byte} {e : CmdError} (hs : SinkHolds s l k)
    (h : StopsAt s l.length e) : emit s k v = .error e := by
  rcases emit_cases s k v with ⟨h1, he⟩ | ⟨h1, h2, he⟩ | ⟨h1, h2, he⟩ <;> rw [hs.offset] at h1 <;>
    rcases h.stop with ⟨h3, rfl⟩ | ⟨h3, h4, rfl⟩
  · exact he
  · omega
  · omega
  · rw [he, hs.offset]
  · omega
  · rw [hs.offset, h4] at h2; cases h2

theorem emitAll_stops {s : State} {l bs : List Byte} {k : Sink} {p : Nat} {e : CmdError} (hs : SinkHolds s l k)
    (h : StopsAt s p e) (hp : l.length ≤ p) (hp' : p < l.length + bs.length) : emitAll s k bs = .error e := by
  induction bs generalizing l k with
  | nil => simp at hp'; omega
  | cons v bs ih =>
    rw [emitAll]
    rcases Nat.eq_or_lt_of_le hp with he | hlt
    · subst he; rw [emit_stops hs h]
    · obtain ⟨k1, h1⟩ := emit_of_fits hs v (lt_of_lt_of_le hlt h.le) (h.below _ hlt)
      rw [h1]
      exact ih (sinkHolds_emit hs h1) (by simpa using hlt) (by simp at hp' ⊢; omega)

/-- A write to a prefix of the window that is writable and has room succeeds. -/
theorem emitAll_writable {s : State} {l bs : List Byte} {k : Sink} {n : Nat} (hs : SinkHolds s l k)
    (hc : n ≤ s.dstCap.toNat) (hw : WindowWritable s n) (hn : l.length + bs.length ≤ n) :
    ∃ k', emitAll s k bs = .ok k' ∧ SinkHolds s (l ++ bs) k' := by
  obtain ⟨k', h⟩ := emitAll_of_fits (bs := bs) hs (by omega) fun i hi => hw i (by omega)
  exact ⟨k', h, sinkHolds_emitAll hs h⟩

theorem sourceBits_bytesAt_succ (s : State) (a : Word) (j : Nat) : sourceBits s.code (bytesAt s.mem a (j + 1)) =
    s.code (readMem s.mem a) ++ sourceBits s.code (bytesAt s.mem (a + 1#32) j) := by
  simp [bytesAt, sourceBits]

/-- The whole bytes of `x` and of what `x` leaves before `y` are those of `x ++ y`. -/
theorem fullBytes_div (x : Code) (n : Nat) :
    (fullBytes x).length + ((leftover x).length + n) / 8 = (x.length + n) / 8 := by
  have := length_fullBytes x
  omega

/-- The payload loop past its first `j` source bytes, where those have codes and their whole payload bytes are written. -/
theorem payloadLoop_prefix {s : State} {j m : Nat} {a : Word} {acc : Code} {b : Nat} {l : List Byte} {k : Sink}
    (hs : SinkHolds s l k) (hacc : acc.length < 8)
    (hr : ∀ i, i < j → memROk s.platform (a + BitVec.ofNat 32 i) = true)
    (hcode : ∀ x ∈ bytesAt s.mem a j, s.code x ≠ []) {n : Nat} (hc : n ≤ s.dstCap.toNat) (hw : WindowWritable s n)
    (hn : l.length + (acc.length + (sourceBits s.code (bytesAt s.mem a j)).length) / 8 ≤ n) :
    ∃ acc' b' l' k', SinkHolds s l' k' ∧ acc'.length < 8 ∧
      l'.length = l.length + (acc.length + (sourceBits s.code (bytesAt s.mem a j)).length) / 8 ∧
      acc'.length = (acc.length + (sourceBits s.code (bytesAt s.mem a j)).length) % 8 ∧
      payloadLoop s (j + m) a acc b k = payloadLoop s m (a + BitVec.ofNat 32 j) acc' b' k' := by
  induction j generalizing a acc b l k with
  | zero =>
    refine ⟨acc, b, l, k, hs, hacc, ?_, ?_, by simp⟩ <;> simp [bytesAt, sourceBits] <;> omega
  | succ j ih =>
    have h0 : memROk s.platform a = true := by simpa using hr 0 (by omega)
    have hx : s.code (readMem s.mem a) ≠ [] := hcode _ (by simp [bytesAt])
    rw [sourceBits_bytesAt_succ, List.length_append, ← Nat.add_assoc, ← List.length_append] at hn ⊢
    have hd := fullBytes_div (acc ++ s.code (readMem s.mem a)) (sourceBits s.code (bytesAt s.mem (a + 1#32) j)).length
    have hf := length_fullBytes (acc ++ s.code (readMem s.mem a))
    obtain ⟨k1, h1, hs1⟩ := emitAll_writable (bs := fullBytes (acc ++ s.code (readMem s.mem a))) hs hc hw (by omega)
    obtain ⟨acc', b', l', k', h2, h3, h4, h5, h6⟩ := ih (a := a + 1#32)
      (acc := leftover (acc ++ s.code (readMem s.mem a))) (b := b + (s.code (readMem s.mem a)).length)
      hs1 (length_leftover_lt _) (fun i hi => by rw [← add_ofNat_succ]; exact hr (i + 1) (by omega))
      (fun x hx => hcode x (by simp [bytesAt, hx])) (by rw [List.length_append]; omega)
    refine ⟨acc', b', l', k', h2, h3, by rw [h4, List.length_append]; omega, by rw [h5]; omega, ?_⟩
    rw [Nat.add_right_comm, payloadLoop, memRead_of_ok h0]
    simp only [hx, if_false, h1, h6]
    rw [add_ofNat_succ a j]

/-- The payload loop stops at the offset `p` where writing stops, if its first `j` source bytes read and have codes and
`p` is among the bytes written for them: the whole ones, and the final one where no source byte is left (R225). -/
theorem payloadLoop_stops {s : State} {j n : Nat} {a : Word} {acc : Code} {b : Nat} {l : List Byte} {k : Sink} {p : Nat}
    {e : CmdError} (hs : SinkHolds s l k) (hacc : acc.length < 8) (hj : j ≤ n)
    (hr : ∀ i, i < j → memROk s.platform (a + BitVec.ofNat 32 i) = true)
    (hcode : ∀ x ∈ bytesAt s.mem a j, s.code x ≠ []) (h : StopsAt s p e) (hp : l.length ≤ p)
    (hp' : p < l.length +
      if j = n then ceil8 (acc.length + (sourceBits s.code (bytesAt s.mem a j)).length)
      else (acc.length + (sourceBits s.code (bytesAt s.mem a j)).length) / 8) :
    payloadLoop s n a acc b k = .error e := by
  induction j generalizing n a acc b l k with
  | zero =>
    simp only [bytesAt, sourceBits, List.flatMap_nil, List.length_nil, Nat.add_zero] at hp'
    by_cases hn : 0 = n
    · subst hn
      rw [if_pos rfl] at hp'
      unfold ceil8 at hp'
      have hne : acc ≠ [] := by rintro rfl; simp at hp'; omega
      have hpe : p = l.length := by omega
      subst hpe
      rw [payloadLoop, if_neg hne, emit_stops hs h]
    · rw [if_neg hn] at hp'; omega
  | succ j ih =>
    obtain ⟨n, rfl⟩ : ∃ m, n = m + 1 := ⟨n - 1, by omega⟩
    have h0 : memROk s.platform a = true := by simpa using hr 0 (by omega)
    have hx : s.code (readMem s.mem a) ≠ [] := hcode _ (by simp [bytesAt])
    rw [payloadLoop, memRead_of_ok h0]
    simp only [hx, if_false]
    by_cases hlt : p < l.length + (fullBytes (acc ++ s.code (readMem s.mem a))).length
    · rw [emitAll_stops hs h hp hlt]
    · obtain ⟨k1, h1, hs1⟩ := emitAll_writable (bs := fullBytes (acc ++ s.code (readMem s.mem a))) hs h.le h.below (by omega)
      rw [h1]
      refine ih (n := n) (a := a + 1#32) hs1 (length_leftover_lt _) (by omega)
        (fun i hi => by rw [← add_ofNat_succ]; exact hr (i + 1) (by omega))
        (fun x hx => hcode x (by simp [bytesAt, hx])) (by rw [List.length_append]; omega) ?_
      have hd := fullBytes_div (acc ++ s.code (readMem s.mem a)) (sourceBits s.code (bytesAt s.mem (a + 1#32) j)).length
      have hf := length_fullBytes (acc ++ s.code (readMem s.mem a))
      rw [sourceBits_bytesAt_succ, List.length_append, ← Nat.add_assoc, ← List.length_append] at hp'
      rw [List.length_append (as := l)]
      unfold ceil8 at hp' ⊢
      by_cases hjn : j = n
      · rw [if_pos (by omega)] at hp'; rw [if_pos hjn]; omega
      · rw [if_neg (by omega)] at hp'; rw [if_neg hjn]; omega

/-- The encode stage stops at the offset `p` where writing stops, if `p` is among the container bytes written before
source byte `j` and the source bytes before it read and have codes (R220, R290). -/
theorem encodeStage_stops {s : State} {j p : Nat} {e : CmdError} (hj : j ≤ s.srcLen.toNat) (hr : SourceReadable s j)
    (hcode : ∀ x ∈ bytesAt s.mem s.srcAddr j, s.code x ≠ []) (h : StopsAt s p e) (hp : p < writtenAfter s j) :
    encodeStage s = .error e := by
  have hl := length_headerBytes s.srcLen s.freq
  unfold encodeStage
  by_cases hlt : p < 1028
  · rw [emitAll_stops (sinkHolds_nil s) h (by simp) (by rw [hl]; simpa using hlt)]
  · obtain ⟨k0, h0, hs0⟩ := emitAll_writable (bs := headerBytes s.srcLen s.freq) (sinkHolds_nil s) h.le h.below
      (by rw [hl]; simp; omega)
    rw [h0]
    rw [List.nil_append] at hs0
    exact payloadLoop_stops hs0 (by simp) hj hr hcode h (by omega) (by rw [hl]; simpa [writtenAfter] using hp)

/-- The encode stage turns to source byte `j` where the bytes before it read and have codes and what is written for them
fits; the byte that does not read, or has no code, is then the one it reports (R220, R223). -/
theorem encodeStage_at {s : State} {j : Nat} (hj : j < s.srcLen.toNat) (hr : SourceReadable s j)
    (hcode : ∀ x ∈ bytesAt s.mem s.srcAddr j, s.code x ≠ []) (hc : writtenAfter s j ≤ s.dstCap.toNat)
    (hw : WindowWritable s (writtenAfter s j)) :
    (memROk s.platform (s.srcAddr + BitVec.ofNat 32 j) = false →
      encodeStage s = .error ⟨.ioRead, s.srcAddr + BitVec.ofNat 32 j, 0#32⟩) ∧
    (memROk s.platform (s.srcAddr + BitVec.ofNat 32 j) = true →
      s.code (readMem s.mem (s.srcAddr + BitVec.ofNat 32 j)) = [] →
      encodeStage s = .error ⟨.unknownSymbol, s.srcAddr + BitVec.ofNat 32 j,
        0#24 ++ readMem s.mem (s.srcAddr + BitVec.ofNat 32 j)⟩) := by
  have hl := length_headerBytes s.srcLen s.freq
  have hwa : writtenAfter s j = 1028 + (sourceBits s.code (bytesAt s.mem s.srcAddr j)).length / 8 := by
    rw [writtenAfter, if_neg (by omega)]
  obtain ⟨k0, h0, hs0⟩ := emitAll_writable (bs := headerBytes s.srcLen s.freq) (sinkHolds_nil s) hc hw
    (by rw [hl, hwa]; simp)
  rw [List.nil_append] at hs0
  obtain ⟨m, hm⟩ : ∃ m, s.srcLen.toNat = j + (m + 1) := ⟨s.srcLen.toNat - j - 1, by omega⟩
  obtain ⟨acc', b', l', k', -, -, -, -, h6⟩ := payloadLoop_prefix (acc := []) (b := 0) (m := m + 1) hs0 (by simp) hr hcode
    hc hw (by rw [hl, hwa]; simp)
  unfold encodeStage
  rw [h0]
  simp only [hm, h6]
  constructor
  · intro hb
    have : memRead s (s.srcAddr + BitVec.ofNat 32 j) = .error ⟨.ioRead, s.srcAddr + BitVec.ofNat 32 j, 0#32⟩ := by
      simp [memRead, hb]
    rw [payloadLoop, this]
  · intro hok hno
    rw [payloadLoop, memRead_of_ok hok]
    simp only [hno, if_true]

/-! ### The tables of COMPRESS -/

theorem length_sourceBytes_lt (s : State) : (sourceBytes s).length < 2 ^ 32 := by
  rw [length_sourceBytes]; exact s.srcLen.isLt

theorem commitBuild_cases (s : State) :
    commitBuild s = s ∨ ∃ t, buildTree s.freq = .ok t ∧ commitBuild s = s.withTree t := by
  unfold commitBuild
  cases h : buildTree s.freq with
  | ok t => exact .inr ⟨t, rfl, rfl⟩
  | overflow => exact .inl rfl
  | empty => exact .inl rfl

/-- What the tables of COMPRESS leave of the rest of the state. -/
theorem compressTables_cases (s : State) :
    ∃ f, compressTables s = s.withFreq f ∨ ∃ t, compressTables s = (s.withFreq f).withTree t := by
  refine ⟨countBytes (sourceBytes s), ?_⟩
  unfold compressTables
  split
  · exact .inl rfl
  · rcases commitBuild_cases (s.withFreq (countBytes (sourceBytes s))) with h | ⟨t, -, h⟩
    · exact .inl h
    · exact .inr ⟨t, h⟩

theorem compressTables_keeps (s : State) : (compressTables s).srcAddr = s.srcAddr ∧ (compressTables s).srcLen = s.srcLen ∧
    (compressTables s).dstAddr = s.dstAddr ∧ (compressTables s).dstCap = s.dstCap ∧
    (compressTables s).platform = s.platform ∧ (compressTables s).mem = s.mem := by
  obtain ⟨f, h | ⟨t, h⟩⟩ := compressTables_cases s <;> rw [h] <;> exact ⟨rfl, rfl, rfl, rfl, rfl, rfl⟩

theorem commitBuild_ok {s : State} {T : Tree} (h : buildTree s.freq = .ok T) : commitBuild s = s.withTree T := by
  unfold commitBuild; rw [h]

theorem compressTables_built {s : State} {T : Tree} (h0 : 0 < s.srcLen.toNat)
    (hb : buildTree (countBytes (sourceBytes s)) = .ok T) :
    compressTables s = (s.withFreq (countBytes (sourceBytes s))).withTree T := by
  have hne : s.srcLen ≠ 0#32 := by intro e; rw [e] at h0; simp at h0
  unfold compressTables
  rw [if_neg hne]
  exact commitBuild_ok (by rw [State.withFreq_freq]; exact hb)

theorem compressTables_zero {s : State} (h0 : s.srcLen = 0#32) :
    compressTables s = s.withFreq (countBytes (sourceBytes s)) := by
  unfold compressTables; rw [if_pos h0]

theorem sinkError_cause {s : State} {e : CmdError} (h : SinkError s e) : e.cause = .ioSinkFull ∨ e.cause = .ioWrite := by
  rcases h with rfl | ⟨i, -, -, rfl⟩
  · exact .inl rfl
  · exact .inr rfl

theorem compress_stage_error {s : State} {e : CmdError} (hr : SourceReadable s s.srcLen.toNat)
    (h : encodeStage (compressTables s) = .error e) : e.cause = .ioSinkFull ∨ e.cause = .ioWrite := by
  rcases encodeStage_error h with h | ⟨i, hi, hx⟩
  · exact sinkError_cause h
  · obtain ⟨hsa, hsl, -, -, hpl, hme⟩ := compressTables_keeps s
    rw [hsl] at hi
    rw [hsa, hpl, hme] at hx
    rcases hx with ⟨hb, -⟩ | ⟨-, hc, -⟩
    · rw [hr i hi] at hb; cases hb
    · exfalso
      have h0 : 0 < s.srcLen.toNat := by omega
      have hne : sourceBytes s ≠ [] := by intro e; have := length_sourceBytes s; rw [e] at this; simp at this; omega
      obtain ⟨T, hb⟩ := build_counts (length_sourceBytes_lt s) hne
      rw [compressTables_built h0 hb] at hc
      have hmem : readMem s.mem (s.srcAddr + BitVec.ofNat 32 i) ∈ sourceBytes s := by
        have hlt : i < (sourceBytes s).length := by rw [length_sourceBytes]; exact hi
        have : (sourceBytes s)[i] = _ := getElem_bytesAt s.mem s.srcAddr s.srcLen.toNat i hlt
        rw [← this]; exact List.getElem_mem hlt
      exact present_code hb (count_pos (length_sourceBytes_lt s) hmem) hc

end Sys2Proof.Machine
end

