-- ==== Sys2Proof/Laws/Walk.lean ====
section
/-! SUPPORT. The walk stage of DECODE (R250 to R262): the payload behind its header, a whole decode, and the errors of the walk. -/

namespace Sys2Proof.Machine

/-- The header and the payload of a source range. -/
theorem source_split {s : State} {hdr payload : List Byte} (hl : hdr.length = 1028) (h : sourceBytes s = hdr ++ payload) :
    s.srcLen.toNat = 1028 + payload.length ∧ bytesAt s.mem s.srcAddr 1028 = hdr ∧ bytesAt s.mem
    (payloadBase s) payload.length = payload := by
  have hlen : s.srcLen.toNat = 1028 + payload.length := by
    have := congrArg List.length h
    rw [length_sourceBytes, List.length_append, hl] at this; exact this
  unfold sourceBytes at h
  rw [hlen, bytesAt_append] at h
  obtain ⟨h1, h2⟩ := List.append_inj h (by rw [length_bytesAt, hl])
  exact ⟨hlen, h1, h2⟩

theorem decode_after_header {s : State} {n : Word} {f : Table Word} {payload : List Byte} (hsf : SourceFits s)
    (hwf : WindowFits s) (hr : SourceReadable s 1028)
    (h : sourceBytes s = headerBytes n f ++ payload) : decodeDone s = decodeContainer s (headerBytes n f) ∧
    s.srcLen.toNat = 1028 + payload.length := by
  obtain ⟨h1, h2, -⟩ := source_split (length_headerBytes n f) h
  refine ⟨?_, h1⟩
  rcases decodeDone_cases s with ⟨h, -⟩ | ⟨-, h, -⟩ | ⟨-, -, h, -⟩ | ⟨-, -, -, k, hk, -, hbad, -⟩ | ⟨-, -, -, -, h⟩
  · exact absurd hsf h
  · exact absurd hwf h
  · omega
  · exact absurd hr (not_readable hk hbad)
  · rw [h, h2]

/-- A payload bit whose byte reads (R250). -/
theorem payloadBit_of {s : State} {hdr payload : List Byte} (hl : hdr.length = 1028)
    (h : sourceBytes s = hdr ++ payload) (u : State) (hm : u.mem = s.mem) (hp : u.platform = s.platform)
    (ha : u.srcAddr = s.srcAddr) {i : Nat} (hi : i < 8 * payload.length)
    (hr : memROk s.platform (s.srcAddr + BitVec.ofNat 32 (1028 + i / 8)) = true) :
    payloadBit u i = .ok (streamBit (payload.getD (i / 8) 0#8) (i % 8)) := by
  obtain ⟨h1, -, h2⟩ := source_split hl h
  have hb : payloadBase u = payloadBase s := by unfold payloadBase; rw [ha]
  have hq : i / 8 < payload.length := by omega
  have hread : readMem s.mem (payloadBase s + BitVec.ofNat 32 (i / 8)) = payload.getD (i / 8) 0#8 := by
    rw [List.getD_eq_getElem _ _ hq, ← getElem_bytesAt s.mem (payloadBase s) payload.length (i/8) (by simpa using hq)]
    congr 1
  have hok : memROk s.platform (payloadBase s + BitVec.ofNat 32 (i / 8)) = true := by
    rw [BitVec.ofNat_add, ← BitVec.add_assoc] at hr
    exact hr
  unfold payloadBit
  rw [hb, hm, hp, hok, hread]
  simp

/-- The first bit of a payload byte that does not read (R250, D43). -/
theorem payloadBit_bad {s : State} {q : Nat} (h : memROk s.platform (s.srcAddr + BitVec.ofNat 32 (1028 + q)) = false) :
    payloadBit s (8 * q) = .error ⟨.ioRead, s.srcAddr + BitVec.ofNat 32 (1028 + q), 0#32⟩ := by
  have e : s.srcAddr + BitVec.ofNat 32 (1028 + q) = payloadBase s + BitVec.ofNat 32 (8 * q / 8) := by
    rw [Nat.mul_div_cancel_left q (by omega), BitVec.ofNat_add, ← BitVec.add_assoc]; rfl
  rw [e] at h ⊢
  exact if_pos ⟨Nat.mul_mod_right 8 q, h⟩

def withTables (s : State) (f : Table Word) (T : Tree) : State := (s.withFreq f).withTree T

theorem decode_payload {s : State} {n : Word} {f : Table Word} {T : Tree} {payload : List Byte} (hsf : SourceFits s)
    (hwf : WindowFits s) (hr : SourceReadable s 1028)
    (h : sourceBytes s = headerBytes n f ++ payload) (hn : n ≠ 0#32) (hb : buildTree f = .ok T) : decodeDone s =
    decodePayload (withTables s f T) T n := by
  obtain ⟨h1, -⟩ := decode_after_header hsf hwf hr h
  rw [h1]
  rcases decodeContainer_cases s (headerBytes n f) with ⟨h, -⟩ | ⟨h, -⟩ | ⟨-, h, -⟩ | ⟨-, h, -⟩ | ⟨-, t, ht, h⟩
  · rw [headerWord_headerBytes] at h; exact absurd h hn
  · rw [headerWord_headerBytes] at h; exact absurd h hn
  · rw [headerTable_headerBytes, hb] at h; cases h
  · rw [headerTable_headerBytes, hb] at h; cases h
  · rw [headerTable_headerBytes, hb] at ht; cases ht
    rw [h, headerWord_headerBytes, headerTable_headerBytes]; rfl

theorem controlKept_withTables (s : State) (f : Table Word) (T : Tree) : ControlKept s (withTables s f T) :=
    (controlKept_withFreq _ _).trans (controlKept_withTree _ _)

theorem toNat_len {l : List Byte} {c : Word} (h : l.length ≤ c.toNat) : (BitVec.ofNat 32 l.length).toNat = l.length := by
  have := c.isLt
  rw [BitVec.toNat_ofNat, Nat.mod_eq_of_lt (by omega)]

theorem len_ne {l : List Byte} {c : Word} (h : l.length ≤ c.toNat) (h0 : l ≠ []) : BitVec.ofNat 32 l.length ≠ 0#32 := by
  intro e
  have h1 := congrArg BitVec.toNat e
  rw [toNat_len h] at h1
  exact h0 (List.eq_nil_of_length_eq_zero h1)

/-- The loop over a payload that holds the codes of `data`. -/
theorem loop_data {s : State} {f : Table Word} {T : Tree} {data payload : List Byte} {n : Word}
    (hr : SourceReadable s s.srcLen.toNat) (h : sourceBytes s = headerBytes n f ++ payload)
    (hc : data.length ≤ s.dstCap.toNat) (hw : WindowWritable s data.length) (hb : buildTree f = .ok T)
    (hcode : ∀ x ∈ data, entry T.code x ≠ [])
    (hp : ceil8 (sourceBits (entry T.code) data).length ≤ payload.length)
    (hbits : ∀ i, i < (sourceBits (entry T.code) data).length → streamBit (payload.getD (i / 8) 0#8) (i % 8) =
    (sourceBits (entry T.code) data).getD i false) :
    ∃ mem, decodeLoop (withTables s f T) T data.length 0 0 (withTables s f T).mem = .ok
    ((sourceBits (entry T.code) data).length, mem) ∧ SinkHolds s data ⟨data.length, mem⟩ := by
  have hlen := (source_split (length_headerBytes n f) h).1
  have hB : (sourceBits (entry T.code) data).length ≤ 8 * payload.length := by unfold ceil8 at hp; omega
  obtain ⟨mem, h1, h2⟩ := decodeLoop_codes (s := withTables s f T) hb (src := data) (done := []) (pos := 0) (mem := (withTables s f T).mem) (sinkHolds_nil _) hcode
    (by show _ ≤ 8 * (s.srcLen.toNat - 1028); omega)
    (fun i hi => by
      rw [Nat.zero_add, payloadBit_of (length_headerBytes n f) h (withTables s f T) rfl rfl rfl (by omega) (hr _ (by omega)), hbits i hi])
    (by show [].length + data.length ≤ s.dstCap.toNat; simpa using hc) (by intro i hi; exact hw i (by simpa using hi))
  rw [Nat.zero_add] at h1
  exact ⟨mem, h1, sink_transfer h2 rfl rfl rfl rfl⟩

theorem memKept_withTables {s : State} {f : Table Word} {T : Tree} {e : CmdError} : MemoryKeptOutsideWindow s
    ((withTables s f T).failWindow e) := memKept_failWindow (withTables s f T) e

theorem decodeLoop_ok {s : State} {t : Tree} {n : Nat} : ∀ {l : List Byte} {pos pos' : Nat} {mem mem' : Memory},
    SinkHolds s l ⟨l.length, mem⟩ → l.length + n ≤ s.dstCap.toNat →
    decodeLoop s t n l.length pos mem = .ok (pos', mem') → ∃ l', l'.length = n ∧ SinkHolds s
    (l ++ l') ⟨(l ++ l').length, mem'⟩ := by
  induction n with
  | zero => intro l pos pos' mem mem' hs _ h; rw [decodeLoop] at h; cases h; exact ⟨[], rfl, by simpa using hs⟩
  | succ n ih =>
    intro l pos pos' mem mem' hs hc h
    rw [decodeLoop] at h
    split at h
    · cases h
    · next p x he =>
      have hemit : emit s ⟨l.length, mem⟩ x = match memWrite s mem (s.dstAddr + BitVec.ofNat 32 l.length) x with | .error e => .error e | .ok m => .ok ⟨l.length + 1, m⟩ := by
        exact if_neg (by show ¬ _ ≤ l.length; omega)
      split at h
      · cases h
      · next m2 hm =>
        rw [hm] at hemit
        have hs' := sinkHolds_emit hs hemit
        have hlen : l.length + 1 = (l ++ [x]).length := by simp
        rw [hlen] at hs' h
        obtain ⟨l', h1, h2⟩ := ih hs' (by rw [← hlen]; omega) h
        exact ⟨x :: l', by simp [h1], by simpa using h2⟩

theorem decodeSymbol_error {s : State} {t : Tree} {m pos : Nat} {e : CmdError}
    (h : decodeSymbol s t m pos = .error e) : e.cause = .ioRead ∨ e.cause = .payloadExhausted ∨ e.cause =
    .invalidDescent := by
  have hbit : ∀ p e, payloadBit s p = .error e → e.cause = .ioRead := by
    intro p e h; unfold payloadBit at h; split at h <;> cases h; rfl
  have hwalk : ∀ left p n e, walk s t m left p n = .error e → e.cause = .ioRead ∨ e.cause = .payloadExhausted ∨ e.cause = .invalidDescent := by
    intro left
    induction left with
    | zero => intro p n e h; unfold walk at h; split at h <;> cases h; exact .inr (.inl rfl)
    | succ left ih =>
      intro p n e h
      unfold walk at h
      split at h
      · cases h
      · simp only at h
        split at h
        · next hb => cases h; exact .inl (hbit _ _ hb)
        · exact ih _ _ _ h
  unfold decodeSymbol at h
  split at h
  · unfold singleStep at h
    split at h
    · cases h; exact .inr (.inl rfl)
    · split at h
      · next hb => cases h; exact .inl (hbit _ _ hb)
      · cases h; exact .inr (.inr rfl)
      · cases h
  · exact hwalk _ _ _ _ h

theorem decodeLoop_error {s : State} {t : Tree} {n : Nat} : ∀ {m pos : Nat} {mem : Memory} {e : CmdError},
    decodeLoop s t n m pos mem = .error e → e.cause = .ioRead ∨ e.cause = .payloadExhausted ∨ e.cause =
    .invalidDescent ∨ e.cause = .ioWrite := by
  induction n with
  | zero => intro m pos mem e h; rw [decodeLoop] at h; cases h
  | succ n ih =>
    intro m pos mem e h
    rw [decodeLoop] at h
    split at h
    · next he => cases h; rcases decodeSymbol_error he with h | h | h <;> simp [h]
    · split at h
      · next hm => cases h; unfold memWrite at hm; split at hm <;> cases hm; simp
      · exact ih h

theorem single_loop {s u : State} {x : Byte} {hdr payload : List Byte} (hl : hdr.length = 1028)
    (hsrc : sourceBytes s = hdr ++ payload) (hr : SourceReadable s s.srcLen.toNat)
    (hm : u.mem = s.mem) (hp : u.platform = s.platform) (ha : u.srcAddr = s.srcAddr) (hsl : u.srcLen = s.srcLen)
    (hd : u.dstAddr = s.dstAddr) {m : Nat}
    (hw : WindowWritable s m) (hmp : m < 8 * payload.length)
    (hzero : ∀ i, i < m → streamBit (payload.getD (i / 8) 0#8) (i % 8) = false)
    (hone : streamBit (payload.getD (m / 8) 0#8) (m % 8) = true) : ∀ k mem, k ≤ m → ∀ N, m - k < N → 
    decodeLoop u (singleTree x) N k k mem = .error ⟨.invalidDescent, payloadBase s + BitVec.ofNat 32 (m / 8),
    BitVec.ofNat 32 m⟩ := by
  have hlen := (source_split hl hsrc).1
  have hbase : payloadBase u = payloadBase s := by unfold payloadBase; rw [ha]
  have hpb : payloadBits u = 8 * payload.length := by unfold payloadBits; rw [hsl]; omega
  have hsym : ∀ k, k < m → decodeSymbol u (singleTree x) k k = .ok (k + 1, x) := by
    intro k hk
    rw [decodeSymbol, if_pos (show (singleTree x).nsym = 1#9 from rfl), singleStep, if_neg (by omega), payloadBit_of hl hsrc u hm hp ha (by omega) (hr _ (by omega)), hzero k hk]
    simp only [singleTree, leafId_symbol]
  have hbad : decodeSymbol u (singleTree x) m m = .error ⟨.invalidDescent, payloadBase s + BitVec.ofNat 32 (m / 8), BitVec.ofNat 32 m⟩ := by
    rw [decodeSymbol, if_pos (show (singleTree x).nsym = 1#9 from rfl), singleStep, if_neg (by omega), payloadBit_of hl hsrc u hm hp ha (by omega) (hr _ (by omega)), hone]
    simp only [hbase]
  intro k mem hk N hN
  induction N generalizing k mem with
  | zero => omega
  | succ N ih =>
    rw [decodeLoop]
    by_cases he : k = m
    · subst he; rw [hbad]
    · rw [hsym k (by omega)]
      have hwk : memWOk u.platform (u.dstAddr + BitVec.ofNat 32 k) = true := by rw [hp, hd]; exact hw k (by omega)
      simp only [memWrite, hwk, if_true]
      exact ih (k + 1) _ (by omega) (by omega)

/-- The walk along a leaf's path stops inside it, after `k` of its bits: no bit is left, or the next one does not read
(R257, R259). -/
theorem walk_stops {s : State} {t : Tree} {m : Nat} {tree : HTree} {n : NodeId} (h : Unfolds t.arena n tree) {x : Byte}
    {d : Code} (hx : (x, d) ∈ pathsOf tree []) {left pos k : Nat} {e : CmdError} (hk : k < d.length)
    (hb : ∀ i, i < k → payloadBit s (pos + i) = .ok (d.getD i false))
    (hstop : (left = k ∧ e = exhausted s m) ∨ (k < left ∧ payloadBit s (pos + k) = .error e)) :
    walk s t m left pos n = .error e := by
  induction tree generalizing n d left pos k with
  | leaf y =>
    simp only [pathsOf, List.mem_singleton, Prod.mk.injEq] at hx
    rw [hx.2] at hk; simp at hk
  | node l r ihl ihr =>
    obtain ⟨b, d, rfl, hd⟩ := mem_pathsOf_node hx
    have hn : ¬ n.toNat < 256 := by have := h.1; omega
    cases left with
    | zero =>
      rcases hstop with ⟨-, rfl⟩ | ⟨hlt, -⟩
      · rw [walk]; simp only [hn, if_false]
      · omega
    | succ left =>
      rw [walk]
      simp only [hn, if_false]
      cases k with
      | zero =>
        rcases hstop with ⟨h0, -⟩ | ⟨-, h0⟩
        · omega
        · rw [Nat.add_zero] at h0; rw [h0]
      | succ k =>
        have h0 := hb 0 (by omega)
        simp only [Nat.add_zero, List.getD_cons_zero] at h0
        have tail : ∀ i, i < k → payloadBit s (pos + 1 + i) = .ok (d.getD i false) := by
          intro i hi
          have := hb (i + 1) (by omega)
          rw [List.getD_cons_succ] at this
          rwa [Nat.add_assoc, Nat.add_comm 1 i]
        have stop : (left = k ∧ e = exhausted s m) ∨ (k < left ∧ payloadBit s (pos + 1 + k) = .error e) := by
          rcases hstop with ⟨h1, h2⟩ | ⟨h1, h2⟩
          · exact .inl ⟨by omega, h2⟩
          · exact .inr ⟨by omega, by rwa [Nat.add_assoc, Nat.add_comm 1 k]⟩
        rw [h0]
        cases b
        · exact ihl h.2.1 hd (by simpa using hk) tail stop
        · exact ihr h.2.2 hd (by simpa using hk) tail stop

/-- A symbol whose code the payload begins and does not end, or the next bit of which does not read (R257 to R259). -/
theorem decodeSymbol_stops {s : State} {f : Table Word} {t : Tree} (hb : buildTree f = .ok t) {x : Byte}
    (hx : entry t.code x ≠ []) {m pos k : Nat} {e : CmdError} (hk : k < (entry t.code x).length)
    (hbits : ∀ i, i < k → payloadBit s (pos + i) = .ok ((entry t.code x).getD i false))
    (hstop : (pos + k = payloadBits s ∧ e = exhausted s m) ∨
      (pos + k < payloadBits s ∧ payloadBit s (pos + k) = .error e)) :
    decodeSymbol s t m pos = .error e := by
  rcases buildTree_cases f with ⟨-, h⟩ | ⟨-, -, h⟩ | ⟨-, y, hp', h⟩ | ⟨-, hk', h⟩ <;> rw [hb] at h
  · cases h
  · cases h
  · cases h
    have hle : (entry (singleTree y).code x).length ≤ 1 := by
      simp only [singleTree, entry_tabulate]; split <;> simp
    have hk0 : k = 0 := by omega
    subst hk0
    rw [decodeSymbol, if_pos (show (singleTree y).nsym = 1#9 from rfl), singleStep]
    rcases hstop with ⟨h1, rfl⟩ | ⟨h1, h2⟩
    · rw [if_pos (by omega)]
    · rw [Nat.add_zero] at h2
      rw [if_neg (by omega), h2]
  · cases h
    obtain ⟨tree, hu, hperm⟩ := mergedTree_unfolds hk'
    have hcodes := mergedTree_codes hu hperm
    have hpres : entry f x ≠ 0#32 := fun e => hx (hcodes.absent e)
    have hns : (mergedTree f (present f).length).nsym ≠ 1#9 := by
      intro e
      have := congrArg BitVec.toNat e
      have hle := length_present_le f
      simp only [mergedTree, BitVec.toNat_ofNat] at this
      omega
    rw [decodeSymbol, if_neg hns]
    refine walk_stops hu (hcodes.mem hpres) hk hbits ?_
    rcases hstop with ⟨h1, h2⟩ | ⟨h1, h2⟩
    · exact .inl ⟨by omega, h2⟩
    · exact .inr ⟨by omega, h2⟩

/-- The loop over a payload that begins with the codes of `data`, up to the symbol after them. -/
theorem loop_after_data {s : State} {f : Table Word} {T : Tree} {data payload : List Byte} {n : Word} {bits : Code}
    {L : Nat} (hsrc : sourceBytes s = headerBytes n f ++ payload) (hb : buildTree f = .ok T)
    (hn : n.toNat ≤ s.dstCap.toNat) (hlt : data.length < n.toNat) (hcode : ∀ y ∈ data, entry T.code y ≠ [])
    (hw : WindowWritable s data.length)
    (hr : ∀ i, i < L → memROk s.platform (s.srcAddr + BitVec.ofNat 32 (1028 + i / 8)) = true)
    (hp : L ≤ 8 * payload.length) (hbits : PayloadBegins payload (sourceBits (entry T.code) data ++ bits) L)
    (hL : (sourceBits (entry T.code) data).length ≤ L) :
    ∃ mem m, decodeLoop (withTables s f T) T n.toNat 0 0 (withTables s f T).mem =
        decodeLoop (withTables s f T) T (m + 1) data.length (sourceBits (entry T.code) data).length mem ∧
      ∀ i, (sourceBits (entry T.code) data).length + i < L →
        payloadBit (withTables s f T) ((sourceBits (entry T.code) data).length + i) = .ok (bits.getD i false) := by
  have hlen := (source_split (length_headerBytes n f) hsrc).1
  have bit : ∀ i, i < L → payloadBit (withTables s f T) i =
      .ok ((sourceBits (entry T.code) data ++ bits).getD i false) := fun i hi => by
    rw [payloadBit_of (length_headerBytes n f) hsrc (withTables s f T) rfl rfl rfl (by omega) (hr i hi), hbits i hi]
  obtain ⟨m, hm⟩ : ∃ m, n.toNat = data.length + (m + 1) := ⟨n.toNat - data.length - 1, by omega⟩
  obtain ⟨mem, h1, -⟩ := decodeLoop_prefix (s := withTables s f T) hb (m + 1) (src := data) (done := []) (pos := 0)
    (mem := (withTables s f T).mem) (sinkHolds_nil _) hcode
    (by show _ ≤ 8 * (s.srcLen.toNat - 1028); omega)
    (fun i hi => by rw [Nat.zero_add, bit i (by omega), List.getD_append _ _ _ _ hi])
    (by show [].length + data.length ≤ s.dstCap.toNat; simp; omega) (fun i hi => hw i (by simpa using hi))
  rw [Nat.zero_add, List.nil_append] at h1
  refine ⟨mem, m, by rw [hm]; exact h1, fun i hi => ?_⟩
  rw [bit _ hi, List.getD_append_right _ _ _ _ (by omega), Nat.add_sub_cancel_left]

theorem decodeLoop_short {s : State} {f : Table Word} {t : Tree} (hb : buildTree f = .ok t) {src : List Byte} :
    ∀ {m pos : Nat} {mem : Memory}, (∀ x ∈ src, entry t.code x ≠ []) → pos ≤ payloadBits s → payloadBits s < pos +
    (sourceBits (entry t.code) src).length →
    (∀ i, pos + i < payloadBits s → payloadBit s (pos + i) = .ok ((sourceBits (entry t.code) src).getD i false)) →
    (∀ i, i < m + src.length → memWOk s.platform (s.dstAddr + BitVec.ofNat 32 i) = true) →
    ∃ j, m ≤ j ∧ j < m + src.length ∧ decodeLoop s t src.length m pos mem = .error (exhausted s j) := by
  induction src with
  | nil => intro m pos mem _ _ h _ _; simp [sourceBits] at h; omega
  | cons x rest ih =>
    intro m pos mem hcode hp hroom hbits hw
    have hb' : sourceBits (entry t.code) (x :: rest) = entry t.code x ++ sourceBits (entry t.code) rest := by
      simp [sourceBits]
    rw [hb'] at hroom hbits
    rw [List.length_append] at hroom
    rw [List.length_cons] at hw ⊢
    by_cases hfit : pos + (entry t.code x).length ≤ payloadBits s
    · have hsym := decodeSymbol_code (s := s) hb (hcode x (by simp)) (m := m) (pos := pos) hfit
        fun i hi => by rw [hbits i (by omega), List.getD_append _ _ _ _ hi]
      obtain ⟨j, h1, h2, h3⟩ := ih (m := m + 1) (pos := pos + (entry t.code x).length) (mem := writeMem mem (s.dstAddr + BitVec.ofNat 32 m) x)
        (fun y hy => hcode y (by simp [hy])) hfit (by omega) (fun i hi => by
          rw [Nat.add_assoc, hbits _ (by omega), List.getD_append_right _ _ _ _ (by omega), Nat.add_sub_cancel_left]) (fun i hi => hw i (by omega))
      refine ⟨j, by omega, by omega, ?_⟩
      rw [decodeLoop, hsym]
      simp only [memWrite, hw m (by omega), if_true]
      exact h3
    · have hsym := decodeSymbol_stops (s := s) hb (hcode x (by simp)) (m := m) (k := payloadBits s - pos) (by omega)
        (fun i hi => by rw [hbits i (by omega), List.getD_append _ _ _ _ (by omega)]) (.inl ⟨by omega, rfl⟩)
      exact ⟨m, by omega, by omega, by rw [decodeLoop, hsym]⟩

theorem sourceBits_pos {code : Byte → Code} {data : List Byte} (h0 : data ≠ []) (hc : ∀ x ∈ data, code x ≠ []) : 0 <
    (sourceBits code data).length := by
  match data, h0 with
  | x :: rest, _ =>
    have := List.length_pos_of_ne_nil (hc x (by simp))
    simp only [sourceBits, List.flatMap_cons, List.length_append]; omega

theorem getD_dropLast {l : List Byte} {i : Nat} (h : i < l.dropLast.length) : l.dropLast.getD i 0#8 = l.getD i 0#8 := by
  have h2 : i < l.length := by rw [List.length_dropLast] at h; omega
  rw [List.getD_eq_getElem _ _ h, List.getD_eq_getElem _ _ h2, List.getElem_dropLast]

end Sys2Proof.Machine
end

