-- ==== Sys2Proof/Laws/Outcome.lean ====
section
/-! SUPPORT. Everything a command can end in, said once for all seven (R152, R159, R288): an error record over the state
with its tables changed, with or without a spoiled window, or a success that wrote the front of the window. -/

namespace Sys2Proof.Machine

/-- `u` is `s` but for FREQ and the tree. -/
structure Pre (s u : State) : Prop where
  ck : ControlKept s u
  mem : u.mem = s.mem
  pend : u.pend = s.pend
  draws : u.draws = s.draws

theorem Pre.refl (s : State) : Pre s s := ⟨controlKept_refl s, rfl, rfl, rfl⟩

theorem pre_freq (s : State) (f : Table Word) : Pre s (s.withFreq f) := ⟨controlKept_withFreq _ _, rfl, rfl, rfl⟩

theorem pre_both (s : State) (f : Table Word) (t : Tree) : Pre s ((s.withFreq f).withTree t) :=
    ⟨(controlKept_withFreq _ _).trans (controlKept_withTree _ _), rfl, rfl, rfl⟩

theorem pre_tree (s : State) (t : Tree) : Pre s (s.withTree t) := ⟨controlKept_withTree _ _, rfl, rfl, rfl⟩

theorem pre_without (s : State) : Pre s s.withoutTree := ⟨controlKept_withoutTree _, rfl, rfl, rfl⟩

/-- What command `i` can end in, from `s`: `u` is `s` with the tables the command committed. -/
inductive Ends (i : Instr) (s t : State) : Prop where
  /-- A failure of a command that has no window: memory is left alone. -/
  | fail (u : State) (e : CmdError) (hu : Pre s u) (hw : usesWindow i = false) (he : (errNumber e.cause, errSubNumber e.cause) ∈ errorsOf i)
      (ht : t = u.fail e) (hT : TreeMatchesFreq s → TreeMatchesFreq u) (hf : i = .build ∨ i = .encode → u.freq = s.freq)
  /-- A failure that leaves draws in the window. -/
  | failWindow (u : State) (e : CmdError) (hu : Pre s u) (hw : usesWindow i = true)
      (he : (errNumber e.cause, errSubNumber e.cause) ∈ errorsOf i) (ht : t = u.failWindow e)
      (hT : TreeMatchesFreq s → TreeMatchesFreq u) (hf : i = .build ∨ i = .encode → u.freq = s.freq)
  /-- A success that wrote the bytes `l` to the front of the window. -/
  | ok (u : State) (l : List Byte) (k : Sink) (b : BitVec 64) (o : Word) (hu : Pre s u)
      (hw : usesWindow i = false → l = [] ∧ k.mem = s.mem) (hk : SinkHolds s l k) (hwf : l ≠ [] → WindowFits s)
      (ht : t = (u.withMem k.mem).succeed o b) (ho : o.toNat = l.length)
      (hT : TreeMatchesFreq s → TreeMatchesFreq u) (hf : i = .build ∨ i = .encode → u.freq = s.freq)

theorem withMem_self (s : State) : s.withMem s.mem = s := rfl

theorem tmf_none {u : State} (h : u.tree = none) : TreeMatchesFreq u := fun t ht => by rw [h] at ht; cases ht

theorem tmf_of {u : State} {t : Tree} (h : u.tree = some t) (hb : buildTree u.freq = .ok t) : TreeMatchesFreq u :=
    fun t' ht => by rw [h] at ht; cases ht; exact hb

theorem ends_ok0 {i : Instr} {s u : State} (hu : Pre s u) (hT : TreeMatchesFreq s → TreeMatchesFreq u)
    (hf : i = .build ∨ i = .encode → u.freq = s.freq) : Ends i s (u.succeed 0#32 0#64) :=
  .ok u [] ⟨0, s.mem⟩ 0#64 0#32 hu (fun _ => ⟨rfl, rfl⟩) (sinkHolds_nil s) (fun h => absurd rfl h) (by show _ = (u.withMem s.mem).succeed _ _; rw [← hu.mem, withMem_self]) rfl hT hf

theorem ends_finish {i : Instr} {s u : State} (hwf : WindowFits s) (hw : usesWindow i = true) (hu : Pre s u)
    (hT : TreeMatchesFreq s → TreeMatchesFreq u) (hf : i = .build ∨ i = .encode → u.freq = s.freq)
    (hE : ∀ e, encodeStage u = .error e → (errNumber e.cause, errSubNumber e.cause) ∈ errorsOf i) : Ends i s
    (encodeFinish u) := by
  rcases encodeFinish_cases u with ⟨e, he, h⟩ | ⟨k, b, he, h⟩ <;> rw [h]
  · exact .failWindow u e hu hw (hE e he) rfl hT hf
  · obtain ⟨h1, -⟩ := encodeStage_ok he
    have h2 := sink_transfer h1 hu.mem hu.ck.platform hu.ck.dstAddr hu.ck.dstCap
    refine .ok u _ k _ _ hu (fun h => by rw [hw] at h; cases h) h2 (fun _ => hwf) rfl ?_ hT hf
    rw [h2.offset, BitVec.toNat_ofNat, Nat.mod_eq_of_lt (lt_of_le_of_lt h2.fits s.dstCap.isLt)]

theorem pre_compressTables (s : State) : Pre s (compressTables s) ∧ (TreeMatchesFreq (compressTables s)) := by
  by_cases h0 : s.srcLen = 0#32
  · rw [compressTables_zero h0]; exact ⟨pre_freq _ _, tmf_none rfl⟩
  · have h0' : 0 < s.srcLen.toNat := by
      rcases Nat.eq_zero_or_pos s.srcLen.toNat with h | h
      · exact absurd (BitVec.eq_of_toNat_eq h) h0
      · exact h
    have hne : sourceBytes s ≠ [] := by intro e; have := length_sourceBytes s; rw [e] at this; simp at this; omega
    obtain ⟨T, hb⟩ := build_counts (length_sourceBytes_lt s) hne
    rw [compressTables_built h0' hb]
    exact ⟨pre_both _ _ _, tmf_of rfl hb⟩

theorem ends (i : Instr) (s : State) : Ends i s (doneState i s) := by
  cases i with
  | freqClear => exact ends_ok0 (pre_freq _ _) (fun _ => tmf_none rfl) (by simp)
  | freqCount =>
    simp only [doneState]
    rcases freqCountDone_cases s with ⟨-, h⟩ | ⟨-, k, -, -, -, h⟩ | ⟨-, -, h⟩ <;> rw [h]
    · exact .fail s _ (.refl s) rfl (by simp [errNumber, errSubNumber, errorsOf]) rfl id (fun _ => rfl)
    · exact .fail s _ (.refl s) rfl (by simp [errNumber, errSubNumber, errorsOf]) rfl id (fun _ => rfl)
    · exact ends_ok0 (pre_freq _ _) (fun _ => tmf_none rfl) (by simp)
  | freqAccum =>
    simp only [doneState]
    rcases freqAccumDone_cases s with ⟨-, h⟩ | ⟨-, k, -, -, -, h⟩ | ⟨-, -, x, -, -, h⟩ | ⟨-, -, -, h⟩ <;> rw [h]
    · exact .fail s _ (.refl s) rfl (by simp [errNumber, errSubNumber, errorsOf]) rfl id (fun _ => rfl)
    · exact .fail s _ (.refl s) rfl (by simp [errNumber, errSubNumber, errorsOf]) rfl id (fun _ => rfl)
    · exact .fail s _ (.refl s) rfl (by simp [errNumber, errSubNumber, errorsOf]) rfl id (fun _ => rfl)
    · exact ends_ok0 (pre_freq _ _) (fun _ => tmf_none rfl) (by simp)
  | build =>
    simp only [doneState]
    rcases buildDone_cases s with ⟨-, h⟩ | ⟨-, h⟩ | ⟨-, -, t, ht, h⟩ <;> rw [h]
    · exact .fail _ _ (pre_without s) rfl (by simp [errNumber, errSubNumber, errorsOf]) rfl (fun _ => tmf_none rfl) (fun _ => rfl)
    · exact .fail _ _ (pre_without s) rfl (by simp [errNumber, errSubNumber, errorsOf]) rfl (fun _ => tmf_none rfl) (fun _ => rfl)
    · exact ends_ok0 (pre_tree _ _) (fun _ => tmf_of rfl ht) (fun _ => rfl)
  | encode =>
    simp only [doneState]
    rcases encodeDone_cases s with ⟨-, h⟩ | ⟨-, -, h⟩ | ⟨-, hwf, h⟩ <;> rw [h]
    · exact .failWindow s _ (.refl s) rfl (by simp [errNumber, errSubNumber, errorsOf]) rfl id (fun _ => rfl)
    · exact .failWindow s _ (.refl s) rfl (by simp [errNumber, errSubNumber, errorsOf]) rfl id (fun _ => rfl)
    · refine ends_finish hwf rfl (.refl s) id (fun _ => rfl) fun e he => ?_
      rcases encodeStage_error he with h | ⟨j, -, ⟨-, rfl⟩ | ⟨-, -, rfl⟩⟩
      · rcases sinkError_cause h with h | h <;> rw [h] <;> simp [errNumber, errSubNumber, errorsOf]
      · simp [errNumber, errSubNumber, errorsOf]
      · simp [errNumber, errSubNumber, errorsOf]
  | compress =>
    simp only [doneState]
    rcases compressDone_cases s with ⟨-, h⟩ | ⟨-, -, h⟩ | ⟨-, -, k, -, -, -, h⟩ | ⟨-, hwf, hr, h⟩ <;> rw [h]
    · exact .failWindow s _ (.refl s) rfl (by simp [errNumber, errSubNumber, errorsOf]) rfl id (fun _ => rfl)
    · exact .failWindow s _ (.refl s) rfl (by simp [errNumber, errSubNumber, errorsOf]) rfl id (fun _ => rfl)
    · exact .failWindow s _ (.refl s) rfl (by simp [errNumber, errSubNumber, errorsOf]) rfl id (fun _ => rfl)
    · obtain ⟨h1, h2⟩ := pre_compressTables s
      refine ends_finish hwf rfl h1 (fun _ => h2) (by simp) fun e he => ?_
      rcases compress_stage_error hr he with h | h <;> rw [h] <;> simp [errNumber, errSubNumber, errorsOf]
  | decode =>
    simp only [doneState]
    rcases decodeDone_cases s with ⟨-, h⟩ | ⟨-, -, h⟩ | ⟨-, -, -, h⟩ | ⟨-, -, -, k, -, -, -, h⟩ | ⟨-, hwf, -, -, h⟩ <;> rw [h]
    · exact .failWindow s _ (.refl s) rfl (by simp [errNumber, errSubNumber, errorsOf]) rfl id (fun _ => rfl)
    · exact .failWindow s _ (.refl s) rfl (by simp [errNumber, errSubNumber, errorsOf]) rfl id (fun _ => rfl)
    · exact .failWindow s _ (.refl s) rfl (by simp [errNumber, errSubNumber, errorsOf]) rfl id (fun _ => rfl)
    · exact .failWindow s _ (.refl s) rfl (by simp [errNumber, errSubNumber, errorsOf]) rfl id (fun _ => rfl)
    · generalize bytesAt s.mem s.srcAddr 1028 = hd
      rcases decodeContainer_cases s hd with ⟨-, -, h⟩ | ⟨-, -, h⟩ | ⟨-, -, h⟩ | ⟨-, -, h⟩ | ⟨-, t, ht, h⟩ <;> rw [h]
      · exact .failWindow _ _ (pre_freq _ _) rfl (by simp [errNumber, errSubNumber, errorsOf]) rfl (fun _ => tmf_none rfl) (by simp)
      · exact ends_ok0 (pre_freq _ _) (fun _ => tmf_none rfl) (by simp)
      · exact .failWindow _ _ (pre_freq _ _) rfl (by simp [errNumber, errSubNumber, errorsOf]) rfl (fun _ => tmf_none rfl) (by simp)
      · exact .failWindow _ _ (pre_freq _ _) rfl (by simp [errNumber, errSubNumber, errorsOf]) rfl (fun _ => tmf_none rfl) (by simp)
      · have hp := pre_both s (headerTable hd) t
        have hT : TreeMatchesFreq ((s.withFreq (headerTable hd)).withTree t) := tmf_of rfl ht
        generalize (s.withFreq (headerTable hd)).withTree t = u at *
        rcases decodePayload_cases u t (headerWord hd 0) with ⟨-, h⟩ | ⟨-, e, he, h⟩ | ⟨-, pos, m, -, -, h⟩ | ⟨hc, pos, m, hl, -, h⟩ <;> rw [h]
        · exact .failWindow _ _ hp rfl (by simp [errNumber, errSubNumber, errorsOf]) rfl (fun _ => hT) (by simp)
        · refine .failWindow _ _ hp rfl ?_ rfl (fun _ => hT) (by simp)
          rcases decodeLoop_error he with h | h | h | h <;> rw [h] <;> simp [errNumber, errSubNumber, errorsOf]
        · exact .failWindow _ _ hp rfl (by simp [errNumber, errSubNumber, errorsOf]) rfl (fun _ => hT) (by simp)
        · obtain ⟨l', h1, h2⟩ := decodeLoop_ok (l := []) (sinkHolds_nil u) (by simpa using hc) hl
          have h3 := sink_transfer h2 hp.mem hp.ck.platform hp.ck.dstAddr hp.ck.dstCap
          rw [List.nil_append] at h3
          refine Ends.ok u l' ⟨l'.length, m⟩ (BitVec.ofNat 64 pos) (headerWord hd 0) hp (fun h => ?_) h3 (fun _ => hwf) ?_ ?_ (fun _ => hT) (fun h => ?_)
          · exact absurd h (by decide)
          · rfl
          · exact h1.symm
          · rcases h with h | h <;> exact absurd h (by decide)

theorem errorsOf_ne {i : Instr} {p : BitVec 4 × BitVec 4} (h : p ∈ errorsOf i) : p.1 ≠ 0#4 := by
  have : ((errorsOf i).all fun q => decide (q.1 ≠ 0#4)) = true := by cases i <;> rfl
  simpa using List.all_eq_true.1 this p h

theorem memKept_pre {s u : State} (hu : Pre s u) (e : CmdError) : MemoryKeptOutsideWindow s (u.failWindow e) := by
  intro a ha
  rw [← hu.mem]
  exact memKept_failWindow u e a (by unfold inWindow at ha ⊢; rw [hu.ck.dstAddr, hu.ck.dstCap, hu.ck.platform]; exact ha)

end Sys2Proof.Machine
end

