-- ==== Sys2Proof/Laws/PerInstr.lean ====
section
/-! SUPPORT. Statements made for each constructor of Instr. -/

namespace Sys2Proof.Laws.LegalWord

/-- The command's word is legal (R111), its OPC is the command's and its RSV is 0 (R110). -/
def Statement (i : Instr) : Prop :=
  legalWord (encode i) = true ∧ opcField (encode i) = opcOf i ∧ rsvField (encode i) = 0#24 ∧
    commandOfOpc (opcOf i) = some i

theorem freqClear : Statement .freqClear := ⟨rfl, rfl, rfl, rfl⟩

theorem freqCount : Statement .freqCount := ⟨rfl, rfl, rfl, rfl⟩

theorem freqAccum : Statement .freqAccum := ⟨rfl, rfl, rfl, rfl⟩

theorem build : Statement .build := ⟨rfl, rfl, rfl, rfl⟩

theorem encode : Statement .encode := ⟨rfl, rfl, rfl, rfl⟩

theorem compress : Statement .compress := ⟨rfl, rfl, rfl, rfl⟩

theorem decode : Statement .decode := ⟨rfl, rfl, rfl, rfl⟩

end Sys2Proof.Laws.LegalWord
end

