-- ==== Sys2Proof/Laws/Window.lean ====
section
/-! SUPPORT. The register window (R32, R115): which register each offset reaches, and the STATUS word as a number. -/

namespace Sys2Proof.Machine

theorem ofNat14_toNat (n : Nat) (h : n < 2^14) : (BitVec.ofNat 14 n).toNat = n := by
  rw [BitVec.toNat_ofNat, Nat.mod_eq_of_lt h]

/-! ### The tables of the window, one lemma for each run of offsets in R32 -/

theorem regAt_freq (x : Byte) : regAt (0x400 + 4 * x.toNat) = .freq x := by
  have hx : BitVec.ofNat 8 ((0x400 + 4 * x.toNat - 0x400) / 4) = x := by apply BitVec.eq_of_toNat_eq; simp
  have := x.isLt
  unfold regAt
  split_ifs <;> first | omega | exact congrArg Reg.freq hx

theorem regAt_codeLen (x : Byte) : regAt (0x800 + 4 * x.toNat) = .codeLen x := by
  have hx : BitVec.ofNat 8 ((0x800 + 4 * x.toNat - 0x800) / 4) = x := by apply BitVec.eq_of_toNat_eq; simp
  have := x.isLt
  unfold regAt
  split_ifs <;> first | omega | exact congrArg Reg.codeLen hx

theorem regAt_codeBits (x : Byte) (w : BitVec 3) : regAt (0x1000 + 0x20 * x.toNat + 4 * w.toNat) = .codeBits x w := by
  have hlx := x.isLt
  have hlw := w.isLt
  have hx : BitVec.ofNat 8 ((0x1000 + 0x20 * x.toNat + 4 * w.toNat - 0x1000) / 0x20) = x := by
    apply BitVec.eq_of_toNat_eq; simp; omega
  have hw : BitVec.ofNat 3 ((0x1000 + 0x20 * x.toNat + 4 * w.toNat - 0x1000) % 0x20 / 4) = w := by
    apply BitVec.eq_of_toNat_eq; simp; omega
  unfold regAt
  split_ifs <;> first | omega | exact congrArg₂ Reg.codeBits hx hw

theorem regAt_nodeChild (j : Fin 255) : regAt (0x3000 + 4 * j.val) = .nodeChild j := by
  have hj : Fin.ofNat 255 ((0x3000 + 4 * j.val - 0x3000) / 4) = j := by apply Fin.ext; simp [Fin.ofNat]
  have := j.isLt
  unfold regAt
  split_ifs <;> first | omega | exact congrArg Reg.nodeChild hj

theorem regAt_nodeWeight (j : Fin 255) : regAt (0x3400 + 4 * j.val) = .nodeWeight j := by
  have hj : Fin.ofNat 255 ((0x3400 + 4 * j.val - 0x3400) / 4) = j := by apply Fin.ext; simp [Fin.ofNat]
  have := j.isLt
  unfold regAt
  split_ifs <;> first | omega | exact congrArg Reg.nodeWeight hj

/-- An aligned 32-bit access at an offset written as a number. -/
theorem regOfAccess_ofNat (n : Nat) (hlt : n < 2 ^ 14) (ha : n % 4 = 0) :
    regOfAccess (BitVec.ofNat 14 n) 4 = some (regAt n) := by
  unfold regOfAccess
  rw [ofNat14_toNat n hlt, if_pos ⟨rfl, ha⟩]

theorem regOfAccess_offsetOf (r : Reg) (h : r ≠ .reserved) : regOfAccess (offsetOf r) 4 = some r := by
  cases r with
  | freq x =>
    have := x.isLt
    exact (regOfAccess_ofNat _ (by omega) (by omega)).trans (congrArg some (regAt_freq x))
  | codeLen x =>
    have := x.isLt
    exact (regOfAccess_ofNat _ (by omega) (by omega)).trans (congrArg some (regAt_codeLen x))
  | codeBits x w =>
    have := x.isLt
    have := w.isLt
    exact (regOfAccess_ofNat _ (by omega) (by omega)).trans (congrArg some (regAt_codeBits x w))
  | nodeChild j =>
    have := j.isLt
    exact (regOfAccess_ofNat _ (by omega) (by omega)).trans (congrArg some (regAt_nodeChild j))
  | nodeWeight j =>
    have := j.isLt
    exact (regOfAccess_ofNat _ (by omega) (by omega)).trans (congrArg some (regAt_nodeWeight j))
  | reserved => exact absurd rfl h
  | _ => rfl

/-- Every name of R32, the stand-in of the reserved offsets included, is reached at its offset. -/
theorem regOfAccess_any (r : Reg) : regOfAccess (offsetOf r) 4 = some r := by
  by_cases h : r = .reserved
  · subst h; decide
  · exact regOfAccess_offsetOf r h

theorem hostStep_wr {s : State} (r : Reg) (v : Word) : hostStep (wr r v) s = writeReg r v s := by
  simp only [wr, hostStep, regOfAccess_any r]

theorem hostStep_rd (s : State) (r : Reg) : hostStep (rd r) s = .next (readReg r s) := by
  simp only [rd, hostStep, regOfAccess_any r]

/-- An aligned 32-bit access reaches what stands at its offset. -/
theorem regOfAccess_aligned {off : BitVec 14} (h : off.toNat % 4 = 0) : regOfAccess off 4 = some (regAt off.toNat) :=
  if_pos ⟨rfl, h⟩

/-- An aligned 32-bit read is answered. -/
theorem hostStep_read {off : BitVec 14} (s : State) (h : off.toNat % 4 = 0) :
    hostStep (.regRead off 4) s = .next (readReg (regAt off.toNat) s) := by
  simp only [hostStep, regOfAccess_aligned h]

/-- A read while idle, or of a register that R57 does not name, answers the idle value and takes no draw. -/
theorem readReg_plain {s : State} {r : Reg} (h : s.busy = false ∨ busyReadIsDraw r = false) :
    readReg r s = s.answer (idleValue s r) := by
  unfold readReg regValue busyValue
  cases hb : s.busy
  · rfl
  · have hr := h.resolve_left (by simp [hb])
    cases r <;> first | rfl | cases hr

/-- The reserved runs of the map (R32, R49). -/
theorem regAt_reserved {n : Nat} (h : (0x040 ≤ n ∧ n < 0x400) ∨ (0xC00 ≤ n ∧ n < 0x1000) ∨ (0x33FC ≤ n ∧ n < 0x3400) ∨
    0x37FC ≤ n) : regAt n = .reserved := by
  unfold regAt
  split_ifs <;> first | omega | rfl

theorem statusWith_toNat (s : State) (tv : Bool) : (statusWith s tv).toNat =
    s.busy.toNat + 2 * s.done.toNat + 4 * s.busyWr.toNat + 8 * tv.toNat + 256 * s.err.toNat +
      4096 * s.errSub.toNat + 65536 * s.lastCmd.toNat := by
  have h1 := Bool.toNat_lt s.busy
  have h2 := Bool.toNat_lt s.done
  have h3 := Bool.toNat_lt s.busyWr
  have h4 := Bool.toNat_lt tv
  have h5 := s.err.isLt
  have h6 := s.errSub.isLt
  have h7 := s.lastCmd.isLt
  unfold statusWith
  simp only [toNat_append_add]
  simp only [ofBool_toNat, BitVec.toNat_ofNat]
  omega

end Sys2Proof.Machine
end

