-- ==== Sys2Proof/Tests/Slice0.lean ====
section
/-! SUPPORT. Tests. Expected values are those of spec/95_test_vectors.md (the vector's id stands in each comment) or of the
encodings of spec/30_encoding.md; each test is one step from a small state. The second half shows, for every statement
with hypotheses, a state and operands that meet them all, clause by clause where the statement has several. -/

namespace Sys2Proof.Tests

open Sys2Proof Sys2Proof.Machine

/-! ### Small states -/

/-- A platform whose memory answers everywhere. -/
def plainPlatform : Platform := ⟨0x80000000#32, [], true⟩

/-- A platform with one special region. -/
def platformWith (kind : RegionKind) (base size : Nat) : Platform := ⟨0x80000000#32, [⟨base, size, kind⟩], true⟩

/-- Right after reset on the plain platform, the draw of FREQ being zeros. -/
def idle : State := { State.reset with platform := plainPlatform, freq := zeroTable }

/-- The counts of 00 01 00 02 (vector T-B1). -/
def threeCounts : Table Word :=
  tabulate fun x => if x = 0#8 then 2#32 else if x = 1#8 ∨ x = 2#8 then 1#32 else 0#32

/-- One symbol, 0x41, counted `n` times (vector T-B5). -/
def oneCount (n : Word) : Table Word := tabulate fun x => if x = 0x41#8 then n else 0#32

/-- The source 00 01 00 02 at 0x1000 and the window at 0x2000 (vector T-E1). -/
def fourBytes : State :=
  { idle with mem := [(0x1001, 0x01#8), (0x1003, 0x02#8)], srcAddr := 0x1000#32, srcLen := 4#32, dstAddr := 0x2000#32, dstCap := 0x1000#32 }

/-- `s` with the tree that R204 builds from `threeCounts`. -/
def treed (s : State) : State := { s with freq := threeCounts, tree := some (mergedTree threeCounts 3) }

/-- The state with a command loaded. -/
def load (s : State) (i : Instr) : State := s.withFetchWord 32 (encode i).toNat

/-- The next step goes on, to a state of which `p` holds. -/
def after (s : State) (p : State → Bool) : Bool :=
  match step s with
  | .next t => p t
  | .fault _ | .refused _ => false

/-- A host access that goes on, to a state of which `p` holds. -/
def afterHost (op : HostOp) (s : State) (p : State → Bool) : Bool :=
  match hostStep op s with
  | .next t => p t
  | .fault _ | .refused _ => false

/-- A host access that faults with `h`. -/
def faultsWith (op : HostOp) (s : State) (h : Hazard) : Bool :=
  match hostStep op s with
  | .fault (.hazardViolation g) => decide (g = h)
  | .next _ | .refused _ => false

/-! ### Well-formedness: what the checks refuse -/

/-- R113: opcode 0x00 is illegal on purpose. -/
theorem test_zero_word_is_illegal : legalWord 0x00000000#32 = false := by decide

theorem test_opcode_above_seven_is_illegal : legalWord 0x00000008#32 = false := by decide

/-- R154: BUILD with RSV = 1. -/
theorem test_reserved_bits_are_illegal : legalWord 0x00000104#32 = false := by decide

theorem test_seventh_word_is_legal : legalWord 0x00000007#32 = true := by decide

/-- R307. -/
theorem test_misaligned_access_is_refused : hostOpWellFormed (.regRead 0x002#14 4) = false := by decide

theorem test_narrow_write_is_refused : hostOpWellFormed (.regWrite 0x010#14 2 0x00000001#32) = false := by decide

/-! ### Decoding: the words of R110, R111 written bit by bit -/

theorem test_decode_freqClear : decode 0b00000000000000000000000000000001#32 = .ok .freqClear := by decide

theorem test_decode_freqCount : decode 0b00000000000000000000000000000010#32 = .ok .freqCount := by decide

theorem test_decode_freqAccum : decode 0b00000000000000000000000000000011#32 = .ok .freqAccum := by decide

theorem test_decode_build : decode 0b00000000000000000000000000000100#32 = .ok .build := by decide

theorem test_decode_encode : decode 0b00000000000000000000000000000101#32 = .ok .encode := by decide

theorem test_decode_compress : decode 0b00000000000000000000000000000110#32 = .ok .compress := by decide

theorem test_decode_decode : decode 0b00000000000000000000000000000111#32 = .ok .decode := by decide

/-- T-C7: the opcode is checked before the reserved bits. -/
theorem test_decode_checks_opcode_first : decode 0x80000008#32 = .error .unknownOpcode := by decide

/-- T-C6. -/
theorem test_decode_refuses_reserved_bits : decode 0x00000104#32 = .error .reservedBits := by decide

/-! ### Commands -/

/-- T-C12: FREQ_CLEAR as the first step after reset. -/
theorem test_freqClear_is_first_step :
    after (load State.reset .freqClear) (fun t => t.status == 0x00010002#32 && entry t.freq 0x41#8 == 0#32) = true := by
  decide +kernel

/-- T-F2. -/
theorem test_freqCount :
    after (load fourBytes .freqCount) (fun t => t.status == 0x00020002#32 && entry t.freq 0#8 == 2#32 &&
      entry t.freq 1#8 == 1#32 && entry t.freq 3#8 == 0#32) = true := by
  decide +kernel

/-- T-F6: the lowest failing address. -/
theorem test_freqCount_reports_lowest_failing_address :
    after (load { fourBytes with platform := platformWith .readFails 0x1002 2 } .freqCount) (fun t =>
      t.status == 0x00021102#32 && t.errAddr == 0x1002#32) = true := by
  decide +kernel

/-- R173: the counters are added entry by entry. -/
theorem test_freqAccum_adds : (entry (addTables threeCounts threeCounts) 0#8 == 4#32) = true := by decide +kernel

/-- T-F10: the least overflowing symbol. -/
theorem test_freqAccum_reports_least_symbol :
    after (load { fourBytes with
      freq := tabulate fun x => if x = 0#8 ∨ x = 2#8 then 0xFFFFFFFF#32 else 0#32 } .freqAccum) (fun t =>
      t.err == 6#4 && t.errSub == 3#4 && t.errData == 0#32 && entry t.freq 2#8 == 0xFFFFFFFF#32) = true := by
  decide +kernel

/-- The counts of 61 62 63 63 (vector T-B2). -/
def tieCounts : Table Word := tabulate fun x => if x = 0x61#8 ∨ x = 0x62#8 then 1#32 else if x = 0x63#8 then 2#32 else 0#32

/-- T-B2: a leaf comes before an internal node of the same weight. -/
theorem test_build_breaks_ties :
    (mergedTree tieCounts 3).arena = arenaOf [⟨0x061#9, 0x062#9, 2#32⟩, ⟨0x063#9, 0x100#9, 4#32⟩] ∧
      (mergedTree tieCounts 3).root = 0x101#9 := by
  have hp : present tieCounts = [0x61#8, 0x62#8, 0x63#8] := by
    unfold present tieCounts; simp only [entry_tabulate]; decide
  have hl : leafNodes tieCounts = [⟨1, 0x061#9⟩, ⟨1, 0x062#9⟩, ⟨2, 0x063#9⟩] := by
    unfold leafNodes
    rw [hp]
    unfold tieCounts
    simp only [entry_tabulate]
    decide
  unfold mergedTree initialQueue
  rw [hl]
  exact ⟨rfl, rfl⟩

/-- Two counters whose sum passes 2^32 - 1 by one (vector T-B8). -/
def overflowing : Table Word := tabulate fun x => if x = 0#8 then 0xFFFFFFFF#32 else if x = 1#8 then 1#32 else 0#32

theorem sum_overflowing : freqSum overflowing = 2 ^ 32 := by
  unfold freqSum overflowing; simp only [entry_tabulate]; decide +kernel

/-- T-B8. -/
theorem test_build_overflow : buildTree overflowing = .overflow := by
  unfold buildTree; rw [sum_overflowing, if_pos (by omega)]

/-- T-E8, with the bytes 00 03 at 0x1100: the record of the first unknown symbol. -/
theorem test_encode_unknown_symbol :
    after (load { treed fourBytes with mem := [(0x1101, 0x03#8)], srcAddr := 0x1100#32, srcLen := 2#32, dstCap := 1029#32 } .encode) (fun t =>
      t.status == 0x0005030A#32 && t.errAddr == 0x1101#32 && t.errData == 3#32 && t.outLen == 0#32) = true := by
  decide +kernel

/-- T-E1. -/
theorem test_compress :
    after (load fourBytes .compress) (fun t => t.status == 0x0006000A#32 && t.outLen == 1029#32 && t.bits == 6#64 &&
      readMem t.mem 0x2003#32 == 0x04#8 && readMem t.mem 0x2007#32 == 0x02#8 && readMem t.mem 0x2404#32 == 0x4C#8) = true := by
  decide +kernel

/-- T-D3: a surplus byte behind the header of an empty container, by a whole DECODE. -/
theorem test_decode_empty_container_with_payload :
    after (load { idle with
      srcAddr := 0x2000#32, srcLen := 1029#32, dstAddr := 0x3000#32, dstCap := 0x100#32 } .decode) (fun t =>
      t.status == 0x00076402#32 && t.errAddr == 0x2404#32) = true := by
  decide +kernel

/-- T-D4, from the header on: filler bits are ignored. -/
theorem test_decode_ignores_filler :
    (fun t : State =>
      t.outLen == 4#32 && t.bits == 6#64 && bytesAt t.mem 0x3000#32 4 == [0x00#8, 0x01#8, 0x00#8, 0x02#8])
      (decodePayload (treed { idle with
        mem := [(0x2404, 0x4F#8)], srcAddr := 0x2000#32, srcLen := 1029#32, dstAddr := 0x3000#32, dstCap := 0x100#32 })
        (mergedTree threeCounts 3) 4#32) = true := by
  decide +kernel

/-! ### The command interface -/

/-- T-C5. -/
theorem test_illegal_word_reports :
    after (idle.withFetchWord 32 0xFF) (fun t => t.status == 0x00FF1502#32 && t.errData == 0x000000FF#32) = true := by
  decide +kernel

/-- T-C8. -/
theorem test_busy_write_is_lost :
    afterHost (wr .srcLen 7#32) (load fourBytes .freqCount) (fun t => t.srcLen == 4#32 && t.busyWr) = true := by decide +kernel

/-- T-C10. -/
theorem test_acknowledge_busyWr :
    afterHost (wr .status 0x00000004#32) { idle with done := true, busyWr := true, err := 5#4, errSub := 1#4, lastCmd := 0xFF#8 } (fun t =>
      t.status == 0x00FF1502#32) = true := by decide +kernel

/-- R118: the code "10" reads 0x80000000. -/
theorem test_code_word : codeWord [true, false] 0 = 0x80000000#32 := by decide

/-- R307. -/
theorem test_narrow_access_faults : faultsWith (.regRead 0x010#14 2) idle .badHostAccess = true := by decide

/-- T-R2: a soft reset wins over IE. -/
theorem test_soft_reset_clears_ie :
    afterHost (wr .ctrl 0x00000003#32) { idle with ie := true, done := true } (fun t => !t.ie && !t.done) = true := by decide +kernel

/-- R330: the two ranges of COMPRESS share a byte. -/
theorem test_overlap_faults :
    (match exec .compress { fourBytes with dstAddr := 0x1003#32 } with
      | .fault (.hazardViolation .rangesOverlap) => true
      | _ => false) = true := by decide +kernel

/-- R330, R339: such a COMPRESS faults where it starts, and a BUILD on the same operands starts. -/
theorem test_overlap_faults_at_start :
    (faultsWith (cmd .compress) { fourBytes with dstAddr := 0x1003#32 } .rangesOverlap &&
      afterHost (cmd .build) { fourBytes with dstAddr := 0x1003#32 } (fun t => t.busy)) = true := by decide +kernel

/-! ### What the witnesses are made of -/

theorem readable {s : State} (h : s.platform = plainPlatform) (n : Nat) : SourceReadable s n := fun k _ => by
  unfold memROk; rw [h]; rfl

theorem writable {s : State} (h : s.platform = plainPlatform) (n : Nat) : WindowWritable s n := fun k _ => by
  unfold memWOk; rw [h]; rfl

/-- A window of 64 KiB, to write memory images with. -/
def imageWindow : State := { idle with dstAddr := 0x2000#32, dstCap := 0x10000#32 }

/-- Memory that holds the bytes `l` from 0x2000 up. -/
def image (l : List Byte) : Memory :=
  match emitAll imageWindow ⟨0, []⟩ l with
  | .ok k => k.mem
  | .error _ => []

theorem bytesAt_image {l : List Byte} (h : l.length ≤ 0x10000) : bytesAt (image l) 0x2000#32 l.length = l := by
  obtain ⟨k, hk⟩ := emitAll_of_fits (sinkHolds_nil imageWindow) (bs := l)
    (by have : imageWindow.dstCap.toNat = 0x10000 := rfl
        rw [this, List.length_nil]; omega)
    fun i _ => rfl
  have hs := sinkHolds_emitAll (sinkHolds_nil imageWindow) hk
  have hi : image l = k.mem := by unfold image; rw [show emitAll imageWindow ⟨0, []⟩ l = .ok k from hk]
  have hb := sinkHolds_bytes hs
  rw [List.nil_append] at hb
  rw [hi]; exact hb

/-- A state whose source range holds the bytes `l`, with a window of 4 KiB elsewhere. -/
def holding (l : List Byte) : State :=
  { idle with
    mem := image l, srcAddr := 0x2000#32, srcLen := BitVec.ofNat 32 l.length, dstAddr := 0x40000000#32, dstCap := 0x1000#32 }

theorem srcLen_holding {l : List Byte} (h : l.length ≤ 0x10000) : (holding l).srcLen.toNat = l.length := by
  show (BitVec.ofNat 32 l.length).toNat = _
  rw [BitVec.toNat_ofNat, Nat.mod_eq_of_lt (by omega)]

theorem source_holding {l : List Byte} (h : l.length ≤ 0x10000) : sourceBytes (holding l) = l := by
  unfold sourceBytes
  rw [srcLen_holding h]
  exact bytesAt_image h

theorem fits_holding {l : List Byte} (h : l.length ≤ 0x10000) : SourceFits (holding l) := by
  unfold SourceFits
  rw [srcLen_holding h]
  show 0x2000 + _ ≤ _
  omega

theorem window_holding (l : List Byte) : WindowFits (holding l) := by
  show 0x40000000 + 0x1000 ≤ 2 ^ 32
  omega

/-- The state on another platform. -/
def moved (p : Platform) (s : State) : State := { s with platform := p }

theorem moved_keeps (p : Platform) (s : State) : sourceBytes (moved p s) = sourceBytes s ∧
    (SourceFits s → SourceFits (moved p s)) ∧ (WindowFits s → WindowFits (moved p s)) := ⟨rfl, id, id⟩

/-- No region of the platform has side effects, and the register window is where the plain one has it. -/
theorem hazardFree_holding_on {l : List Byte} (h : l.length ≤ 0x10000) {p : Platform} (hb : p.huffBase = 0x80000000#32)
    (hr : ∀ r ∈ p.regions, r.kind ≠ .sideEffects) : HazardFree .decode (moved p (holding l)) := by
  have far : ∀ a n : Nat, a + n ≤ 0x80000000 → rangeHazard p a n = none := fun a n hn => by
    rw [rangeHazard_eq_none, hb]
    exact fun k hk1 hk2 => ⟨fun hw => (by simp at hw; omega), fun r hm hk => absurd hk (hr r hm)⟩
  have hl := srcLen_holding h
  have hsa : (holding l).srcAddr.toNat = 0x2000 := rfl
  have hda : (holding l).dstAddr.toNat = 0x40000000 := rfl
  have h3 : ¬ rangesMeet (holding l).srcAddr.toNat (holding l).srcLen.toNat (holding l).dstAddr.toNat (holding l).dstCap.toNat = true := by
    rw [rangesMeet_iff, hl]
    rintro ⟨k, hk1, hk2, hk3, -⟩
    omega
  have h1 : sourceHazard (moved p (holding l)) = none := far (holding l).srcAddr.toNat (holding l).srcLen.toNat (by omega)
  have h2 : windowHazard (moved p (holding l)) = none := far 0x40000000 0x1000 (by omega)
  show bothHazard _ = _
  unfold bothHazard
  rw [if_neg (by exact h3), h1]
  exact h2

theorem hazardFree_holding {l : List Byte} (h : l.length ≤ 0x10000) : HazardFree .decode (holding l) :=
  hazardFree_holding_on h (p := plainPlatform) rfl (fun _ hr => absurd hr List.not_mem_nil)

/-- A region at `base` and the addresses below it. -/
theorem regionHolds_below {a : Word} {base k : Nat} (kind : RegionKind) (h : a.toNat + k < base) (hb : base < 2 ^ 32) :
    regionHolds ⟨base, 1, kind⟩ (a + BitVec.ofNat 32 k) = false := by
  have : (a + BitVec.ofNat 32 k).toNat = a.toNat + k := by
    rw [BitVec.toNat_add, BitVec.toNat_ofNat, Nat.mod_eq_of_lt (a := k) (by omega), Nat.mod_eq_of_lt (by omega)]
  simp only [regionHolds, this, Bool.and_eq_false_iff, decide_eq_false_iff_not]
  omega

theorem readable_below {s : State} {base n : Nat} (hp : s.platform = platformWith .readFails base 1)
    (h : s.srcAddr.toNat + n ≤ base) (hb : base < 2 ^ 32) : SourceReadable s n := fun k hk => by
  rw [hp, memROk, platformWith, List.any_cons, regionHolds_below _ (by omega) hb]; rfl

theorem writable_below {s : State} {base n : Nat} (hp : s.platform = platformWith .writeFails base 1)
    (h : s.dstAddr.toNat + n ≤ base) (hb : base < 2 ^ 32) : WindowWritable s n := fun k hk => by
  rw [hp, memWOk, platformWith, List.any_cons, regionHolds_below _ (by omega) hb]; rfl

/-- Writes that fail leave reads alone, and reads that fail leave writes alone. -/
theorem readable_writeFails {s : State} {base : Nat} (hp : s.platform = platformWith .writeFails base 1) (n : Nat) :
    SourceReadable s n := fun k _ => by rw [hp]; rfl

theorem writable_readFails {s : State} {base : Nat} (hp : s.platform = platformWith .readFails base 1) (n : Nat) :
    WindowWritable s n := fun k _ => by rw [hp]; rfl

theorem present_threeCounts : present threeCounts = [0#8, 1#8, 2#8] := by
  unfold present threeCounts; simp only [entry_tabulate]; decide

theorem sum_threeCounts : freqSum threeCounts = 4 := by
  unfold freqSum threeCounts; simp only [entry_tabulate]; decide +kernel

theorem build_threeCounts : buildTree threeCounts = .ok (mergedTree threeCounts 3) := by
  have hp := present_threeCounts
  have hs := sum_threeCounts
  rcases buildTree_cases threeCounts with ⟨h, -⟩ | ⟨-, h, -⟩ | ⟨-, y, h, -⟩ | ⟨-, -, h⟩
  · omega
  · rw [hp] at h; cases h
  · rw [hp] at h; cases h
  · rw [hp] at h; exact h

theorem present_oneCount : present (oneCount 3#32) = [0x41#8] := by
  unfold present oneCount; simp only [entry_tabulate]; decide

theorem build_oneCount : buildTree (oneCount 3#32) = .ok (singleTree 0x41#8) := build_single present_oneCount

theorem leaves_threeCounts : leafNodes threeCounts = [⟨2, 0#9⟩, ⟨1, 1#9⟩, ⟨1, 2#9⟩] := by
  unfold leafNodes
  rw [present_threeCounts]
  unfold threeCounts
  simp only [entry_tabulate]
  decide

theorem tree_threeCounts :
    mergedTree threeCounts 3 =
      { nsym := 3#9, root := 257#9, arena := arenaOf [⟨1#9, 2#9, 2#32⟩, ⟨0#9, 256#9, 4#32⟩]
        code := codesOf (arenaOf [⟨1#9, 2#9, 2#32⟩, ⟨0#9, 256#9, 4#32⟩]) 257#9 } := by
  unfold mergedTree initialQueue
  rw [leaves_threeCounts]
  rfl

/-- The codes "0", "10", "11" of vector T-B1. -/
theorem codes_threeCounts (x : Byte) :
    entry (mergedTree threeCounts 3).code x = codeIn [(0#8, [false]), (1#8, [true, false]), (2#8, [true, true])] x := by
  have h : traverse (arenaOf [⟨1#9, 2#9, 2#32⟩, ⟨0#9, 256#9, 4#32⟩]) 256 257#9 [] =
      [(0#8, [false]), (1#8, [true, false]), (2#8, [true, true])] := by decide +kernel
  rw [tree_threeCounts]
  show entry (codesOf _ _) x = _
  rw [codesOf, h, entry_tabulate]

theorem matches_treed (s : State) : TreeMatchesFreq (treed s) := fun t ht => by
  cases ht; exact build_threeCounts

/-- A state that only lacks history meets the invariant. -/
theorem inv_idle : Inv idle where
  memory := wf_nil
  tree := fun t h => by cases h
  busy := fun h => by cases h
  lastCmd := fun w h => by cases h
  errors := by unfold ErrorsListed listedErrors idle; simp [State.reset]
  failure := fun _ => ⟨rfl, rfl⟩
  success := fun _ => ⟨rfl, rfl⟩
  hazard := fun i h => by cases h

/-! ### Witnesses: the step, the command word and the window -/

/-- A started command whose ENGINE step lets one host access pass. -/
def waiting : State := { load idle .build with inputs := [rd .id], engineDelay := 1 }

theorem witness_StepRunsDecodedCommand :
    (Due (load idle .build) (encode .build) ∧ decode (encode .build) = .ok .build) ∧
    (Due (idle.withFetchWord 32 0) 0#32 ∧ decode 0#32 = .error .unknownOpcode) ∧
    (∀ w, ¬ Due waiting w) ∧ waiting.inputs = [rd .id] ∧
    ((∀ w, ¬ Due State.reset w) ∧ State.reset.inputs = []) := by
  refine ⟨⟨⟨rfl, .inl rfl⟩, rfl⟩, ⟨⟨rfl, .inl rfl⟩, rfl⟩, fun w h => ?_, rfl, fun w h => ?_, rfl⟩
  · rcases h.2 with h | h <;> cases h
  · cases h.1

theorem witness_DecodeAfterEncode : Instr.wellFormed .decode = true := rfl

theorem witness_WindowMapNamesEachOffsetOnce :
    regOfAccess 0x03C#14 4 = some .bitsHi ∧ regOfAccess 0x040#14 4 = some .reserved ∧
    regOfAccess 0x7FC#14 4 = some (.freq 255#8) ∧ regOfAccess 0xBFC#14 4 = some (.codeLen 255#8) ∧
    regOfAccess 0xC00#14 4 = some .reserved ∧ regOfAccess 0x2FFC#14 4 = some (.codeBits 255#8 7#3) ∧
    regOfAccess 0x33F8#14 4 = some (.nodeChild 254) ∧ regOfAccess 0x33FC#14 4 = some .reserved ∧
    regOfAccess 0x37F8#14 4 = some (.nodeWeight 254) ∧ regOfAccess 0x3FFC#14 4 = some .reserved ∧
    regOfAccess 0x010#14 2 = none ∧ regOfAccess 0x012#14 4 = none := by decide

theorem witness_IllegalWordOnlyReports :
    (Due (idle.withFetchWord 32 0xFF) 0x000000FF#32 ∧ legalWord 0x000000FF#32 = false ∧
      PendingIsLastCmd (idle.withFetchWord 32 0xFF) ∧ (idle.withFetchWord 32 0xFF).treeValid = false ∧
      (idle.withFetchWord 32 0xFF).busyWr = false) ∧
    (Due (idle.withFetchWord 32 0x104) 0x00000104#32 ∧ legalWord 0x00000104#32 = false) :=
  ⟨⟨⟨rfl, .inl rfl⟩, rfl, fun w h => by cases h; rfl, rfl, rfl⟩, ⟨rfl, .inl rfl⟩, rfl⟩

/-! ### Witnesses: the command interface and the window -/

/-- An illegal word, and a command whose operands break no hazard rule. -/
theorem witness_CommandStart :
    (idle.busy = false ∧ ∀ i, decode 0#32 = .ok i → HazardFree i idle) ∧
    fourBytes.busy = false ∧ ∀ i, decode (encode .compress) = .ok i → HazardFree i fourBytes :=
  ⟨⟨rfl, fun i h => by cases h⟩, rfl, fun i h => by cases h; unfold HazardFree; decide⟩

/-- For OperandRegistersHoldWhatIsWritten and HostWritesCounter, and their busy clauses. -/
theorem witness_idle_and_busy : idle.busy = false ∧ (load idle .build).busy = true := ⟨rfl, rfl⟩

theorem witness_WriteWhileBusy :
    (load idle .build).busy = true ∧ regOfAccess 0x024#14 4 = some .outLen ∧ regOfAccess 0x33FC#14 4 = some .reserved ∧
    (0x00000001#32).getLsbD 1 = false := by decide

/-- An answered read; an aligned offset; the ends of the reserved runs and of the counters, while idle. -/
theorem witness_ReadsChangeNothing :
    (∃ t, hostStep (.regRead 0x000#14 4) idle = .next t) ∧ (0x3FFC#14).toNat % 4 = 0 ∧
    (∀ off ∈ [0x040#14, 0x3FC#14, 0xC00#14, 0xFFC#14, 0x33FC#14, 0x37FC#14, 0x3FFC#14], off.toNat % 4 = 0 ∧
      ((0x040 ≤ off.toNat ∧ off.toNat ≤ 0x3FC) ∨ (0xC00 ≤ off.toNat ∧ off.toNat ≤ 0xFFC) ∨ off.toNat = 0x33FC ∨
        0x37FC ≤ off.toNat)) ∧
    idle.busy = false ∧ (0x400#14).toNat = 0x400 + 4 * (0#8 : Byte).toNat ∧
      (0x7FC#14).toNat = 0x400 + 4 * (255#8 : Byte).toNat :=
  ⟨⟨_, hostStep_read idle rfl⟩, rfl, by simp, rfl, rfl, rfl⟩

theorem witness_StatusAndControlFormats :
    ∃ s : State, s.busy = false ∧ s.done = true ∧ s.busyWr = false ∧ s.treeValid = true ∧ s.err = 0#4 ∧ s.errSub = 0#4 ∧
      s.lastCmd = opcOf .compress :=
  ⟨{ treed idle with done := true, lastCmd := 0x06#8 }, rfl, rfl, rfl, rfl, rfl, rfl, rfl⟩

theorem witness_BusyReads : Inv (load idle .build) ∧ (load idle .build).busy = true :=
  ⟨{ memory := wf_nil
     tree := fun t h => by cases h
     busy := fun _ => ⟨rfl, rfl, rfl, rfl, rfl, rfl, rfl⟩
     lastCmd := fun w h => by cases h; rfl
     errors := by unfold ErrorsListed listedErrors; simp [load, State.withFetchWord, State.startWith]
     failure := fun _ => ⟨rfl, rfl⟩
     success := fun _ => ⟨rfl, rfl⟩
     hazard := fun i h => by cases h; rfl }, rfl⟩

/-- The longest code, and the last bit of a word. -/
theorem witness_CodeWordsAreLeftJustified :
    ∃ s : State, (s.code 0#8).length = 255 ∧ 31 < 32 :=
  ⟨{ idle with tree := some { singleTree 0#8 with code := tabulate fun _ => List.replicate 255 true } }, by
    show List.length (entry (tabulate fun _ => List.replicate 255 true) 0#8) = 255
    rw [entry_tabulate, List.length_replicate], by omega⟩

/-- The last used and the first unused arena entry. -/
theorem witness_ArenaReadBack :
    idle.tree = none ∧ (treed idle).tree = some (mergedTree threeCounts 3) ∧
    (1 : Fin 255).val + 1 < (mergedTree threeCounts 3).nsym.toNat ∧
    (mergedTree threeCounts 3).nsym.toNat ≤ (2 : Fin 255).val + 1 := ⟨rfl, rfl, by decide, by decide⟩

theorem witness_InterruptIsLevel : ({ idle with done := true } : State).done = true := rfl

/-! ### Witnesses: the frequency counter -/

/-- A range that passes 2^32 by one, and the longest that does not. -/
def wrapping : State := { idle with srcAddr := 0xFFFFFFFF#32, srcLen := 2#32 }

theorem fits_fourBytes : SourceFits fourBytes ∧ WindowFits fourBytes := by
  constructor
  · show 0x1000 + 4 ≤ 2 ^ 32; omega
  · show 0x2000 + 0x1000 ≤ 2 ^ 32; omega

theorem wraps_wrapping : ¬ SourceFits wrapping := by show ¬ 0xFFFFFFFF + 2 ≤ 2 ^ 32; omega

/-- The bytes at 0x1000 and 0x1001 read, the one at 0x1002 does not. -/
def badThird : State := { fourBytes with platform := platformWith .readFails 0x1002 1 }

theorem bad_third : SourceReadable badThird 2 ∧ memROk badThird.platform (badThird.srcAddr + BitVec.ofNat 32 2) = false := by
  refine ⟨fun k hk => ?_, by decide⟩
  have : k = 0 ∨ k = 1 := by omega
  rcases this with rfl | rfl <;> decide

theorem witness_FreqCountCounts :
    (HazardFree .freqCount fourBytes ∧ SourceFits fourBytes ∧ SourceReadable fourBytes fourBytes.srcLen.toNat) ∧
    (HazardFree .freqCount wrapping ∧ ¬ SourceFits wrapping) ∧
    (HazardFree .freqCount { wrapping with srcLen := 1#32 } ∧ SourceFits { wrapping with srcLen := 1#32 }) ∧
    (HazardFree .freqCount badThird ∧ SourceFits badThird ∧ 2 < badThird.srcLen.toNat ∧ SourceReadable badThird 2 ∧
      memROk badThird.platform (badThird.srcAddr + BitVec.ofNat 32 2) = false) :=
  ⟨⟨by unfold HazardFree; decide, fits_fourBytes.1, readable rfl _⟩, ⟨by unfold HazardFree; decide, wraps_wrapping⟩,
    ⟨by unfold HazardFree; decide, by show 0xFFFFFFFF + 1 ≤ 2 ^ 32; omega⟩,
    by unfold HazardFree; decide, fits_fourBytes.1, by decide, bad_third⟩

theorem source_fourBytes {s : State} (hm : s.mem = fourBytes.mem) (ha : s.srcAddr = 0x1000#32) (hl : s.srcLen = 4#32) :
    sourceBytes s = [0#8, 1#8, 0#8, 2#8] := by
  unfold sourceBytes; rw [hm, ha, hl]; decide

theorem count_le_four {s : State} (hs : sourceBytes s = [0#8, 1#8, 0#8, 2#8]) (x : Byte) : (sourceBytes s).count x ≤ 4 := by
  rw [hs]; exact List.count_le_length

/-- `fourBytes` with the counter of symbol 2 at its top and the others 0. -/
def nearlyFull : State := { fourBytes with freq := tabulate fun x => if x = 2#8 then 0xFFFFFFFF#32 else 0#32 }

theorem freq_nearlyFull (x : Byte) : entry nearlyFull.freq x = if x = 2#8 then 0xFFFFFFFF#32 else 0#32 :=
  entry_tabulate _ x

theorem freq_fourBytes (x : Byte) : entry fourBytes.freq x = 0#32 := entry_tabulate _ x

theorem witness_FreqAccumAdds :
    (HazardFree .freqAccum fourBytes ∧ SourceFits fourBytes ∧ SourceReadable fourBytes fourBytes.srcLen.toNat ∧
      ∀ x, (entry fourBytes.freq x).toNat + (sourceBytes fourBytes).count x ≤ 2 ^ 32 - 1) ∧
    (HazardFree .freqAccum nearlyFull ∧ SourceFits nearlyFull ∧ SourceReadable nearlyFull nearlyFull.srcLen.toNat ∧
      (entry nearlyFull.freq 2#8).toNat + (sourceBytes nearlyFull).count 2#8 > 2 ^ 32 - 1 ∧
      ∀ y : Byte, y.toNat < (2#8 : Byte).toNat →
        (entry nearlyFull.freq y).toNat + (sourceBytes nearlyFull).count y ≤ 2 ^ 32 - 1) ∧
    (HazardFree .freqAccum wrapping ∧ ¬ SourceFits wrapping) ∧
    (HazardFree .freqAccum badThird ∧ SourceFits badThird ∧ 2 < badThird.srcLen.toNat ∧ SourceReadable badThird 2 ∧
      memROk badThird.platform (badThird.srcAddr + BitVec.ofNat 32 2) = false) := by
  have hn : sourceBytes nearlyFull = [0#8, 1#8, 0#8, 2#8] := source_fourBytes rfl rfl rfl
  refine ⟨⟨by unfold HazardFree; decide, fits_fourBytes.1, readable rfl _, fun x => ?_⟩,
    ⟨by unfold HazardFree; decide, by show 0x1000 + 4 ≤ 2 ^ 32; omega, readable rfl _, ?_, fun y hy => ?_⟩,
    ⟨by unfold HazardFree; decide, wraps_wrapping⟩, by unfold HazardFree; decide, fits_fourBytes.1, by decide, bad_third⟩
  · have := count_le_four (source_fourBytes (s := fourBytes) rfl rfl rfl) x
    rw [freq_fourBytes]
    show 0 + _ ≤ _
    omega
  · rw [freq_nearlyFull, hn]; decide
  · have := count_le_four hn y
    rw [freq_nearlyFull, if_neg (by rintro rfl; exact absurd hy (by decide))]
    show 0 + _ ≤ _
    omega

theorem witness_CountersSumToBytesScanned :
    (∃ t, exec .freqCount fourBytes = .next t ∧ t.err = 0#4) ∧ (∃ t, exec .freqClear idle = .next t) ∧
    ∃ t, exec .freqAccum { fourBytes with srcLen := 0#32 } = .next t ∧ t.err = 0#4 := by
  refine ⟨⟨_, exec_next.2 ⟨by unfold HazardFree; decide, rfl⟩, ?_⟩, ⟨_, exec_next.2 ⟨rfl, rfl⟩⟩,
    ⟨_, exec_next.2 ⟨by unfold HazardFree; decide, rfl⟩, ?_⟩⟩
  · rcases freqCountDone_cases fourBytes with ⟨h, -⟩ | ⟨-, k, hk, -, hb, -⟩ | ⟨-, -, h⟩
    · exact absurd fits_fourBytes.1 h
    · exact absurd (readable rfl 4 k hk) (by rw [hb]; decide)
    · show (freqCountDone fourBytes).err = _
      rw [h]; rfl
  · have hs : sourceBytes { fourBytes with srcLen := 0#32 } = [] := rfl
    rcases freqAccumDone_cases { fourBytes with srcLen := 0#32 } with
      ⟨h, -⟩ | ⟨-, k, hk, -⟩ | ⟨-, -, x, hx, -⟩ | ⟨-, -, -, h⟩
    · exact absurd (by show 0x1000 + 0 ≤ 2 ^ 32; omega) h
    · exact absurd hk (Nat.not_lt_zero k)
    · rw [hs] at hx
      have := (entry ({ fourBytes with srcLen := 0#32 } : State).freq x).isLt
      simp at hx; omega
    · show (freqAccumDone _).err = _
      rw [h]; rfl

/-! ### Witnesses: the tree builder -/

theorem witness_BuildCompletes :
    freqSum overflowing > 2 ^ 32 - 1 ∧ (∀ x, entry idle.freq x = 0#32) ∧
    (freqSum threeCounts ≤ 2 ^ 32 - 1 ∧ ∃ x, entry threeCounts x ≠ 0#32) ∧
    ((treed idle).treeValid = true ∧ TreeMatchesFreq (treed idle)) := by
  refine ⟨by rw [sum_overflowing]; omega, entry_tabulate _, ⟨by rw [sum_threeCounts]; omega, 0#8, ?_⟩, rfl, matches_treed _⟩
  · unfold threeCounts; rw [entry_tabulate]; decide

/-- For MergeStepsTakeLeastNodes, CodesArePathsFromRoot, NoCodeBeginsAnother, CodeLengthBound and KraftSum. -/
theorem witness_built_tables :
    (buildTree threeCounts = .ok (mergedTree threeCounts 3) ∧ 2 ≤ (present threeCounts).length ∧
      entry threeCounts 0#8 ≠ 0#32 ∧ entry threeCounts 2#8 ≠ 0#32 ∧ entry threeCounts 3#8 = 0#32) ∧
    (buildTree (oneCount 3#32) = .ok (singleTree 0x41#8) ∧ (present (oneCount 3#32)).length = 1 ∧
      entry (oneCount 3#32) 0x41#8 ≠ 0#32) ∧
    255 ≤ (List.replicate 255 true).length := by
  refine ⟨⟨build_threeCounts, by rw [present_threeCounts]; decide, ?_, ?_, ?_⟩,
    ⟨build_oneCount, by rw [present_oneCount]; rfl, ?_⟩, by rw [List.length_replicate]⟩
  all_goals first | unfold threeCounts | unfold oneCount
  all_goals rw [entry_tabulate]; decide

theorem witness_RootOfBuiltTree :
    (buildTree (treed idle).freq = .ok (mergedTree threeCounts 3) ∧ (treed idle).tree = some (mergedTree threeCounts 3) ∧
      2 ≤ (present (treed idle).freq).length) ∧
    ∃ s : State, buildTree s.freq = .ok (singleTree 0x41#8) ∧ s.tree = some (singleTree 0x41#8) ∧ present s.freq = [0x41#8] :=
  ⟨⟨build_threeCounts, rfl, by show 2 ≤ (present threeCounts).length; rw [present_threeCounts]; decide⟩,
    { idle with freq := oneCount 3#32, tree := some (singleTree 0x41#8) }, build_oneCount, rfl, present_oneCount⟩

theorem witness_SingleSymbolTree :
    ∃ s : State, entry s.freq 0x41#8 ≠ 0#32 ∧ ∀ y, y ≠ 0x41#8 → entry s.freq y = 0#32 := by
  refine ⟨{ idle with freq := oneCount 3#32 }, ?_, fun y hy => ?_⟩
  · show entry (oneCount 3#32) _ ≠ _
    unfold oneCount; rw [entry_tabulate]; decide
  · show entry (oneCount 3#32) _ = _
    unfold oneCount; rw [entry_tabulate, if_neg hy]

/-! ### Witnesses: the encoder -/

/-- The tree of T-B1, the source 00 01 00 02 and a window that its container fills to the last byte. -/
def tight : State := { treed fourBytes with dstCap := 1029#32 }

theorem source_tight : sourceBytes tight = [0#8, 1#8, 0#8, 2#8] := source_fourBytes rfl rfl rfl

theorem code_tight (x : Byte) : tight.code x = codeIn [(0#8, [false]), (1#8, [true, false]), (2#8, [true, true])] x :=
  codes_threeCounts x

theorem bits_tight : (encodedBits tight).length = 6 := by
  unfold encodedBits
  rw [source_tight, show tight.code = _ from funext code_tight]
  rfl

theorem coded_tight : ∀ x ∈ sourceBytes tight, tight.code x ≠ [] := by
  rw [source_tight, show tight.code = _ from funext code_tight]
  decide

theorem fits_tight : SourceFits tight ∧ WindowFits tight :=
  ⟨by show 0x1000 + 4 ≤ 2 ^ 32; omega, by show 0x2000 + 1029 ≤ 2 ^ 32; omega⟩

theorem witness_EncodeWritesContainer :
    HazardFree .encode tight ∧ SourceFits tight ∧ WindowFits tight ∧ SourceReadable tight tight.srcLen.toNat ∧
    (∀ x ∈ sourceBytes tight, tight.code x ≠ []) ∧ 1028 + ceil8 (encodedBits tight).length ≤ tight.dstCap.toNat ∧
    WindowWritable tight (1028 + ceil8 (encodedBits tight).length) :=
  ⟨by unfold HazardFree; decide, fits_tight.1, fits_tight.2, readable rfl _, coded_tight, by rw [bits_tight]; decide, writable rfl _⟩

/-- The last bit of the payload and the first filler bit. -/
theorem witness_ContainerLayout :
    5 < (sourceBits tight.code (sourceBytes tight)).length ∧
    (sourceBits tight.code (sourceBytes tight)).length ≤ 6 ∧ 6 < 8 * ceil8 (sourceBits tight.code (sourceBytes tight)).length := by
  have h : (sourceBits tight.code (sourceBytes tight)).length = 6 := bits_tight
  rw [h]; decide

/-- A window that wraps, one byte too long. -/
def windowWraps : State := { fourBytes with dstAddr := 0xFFFFFFFF#32, dstCap := 2#32 }

/-- A window one byte shorter than a header. -/
def shortWindow : State := { fourBytes with dstCap := 1027#32 }

/-- The last header byte does not write. -/
def badHeaderByte : State := { fourBytes with platform := platformWith .writeFails 0x2403 1 }

theorem writable_badHeaderByte :
    WindowWritable badHeaderByte 1027 ∧
      memWOk badHeaderByte.platform (badHeaderByte.dstAddr + BitVec.ofNat 32 1027) = false :=
  ⟨writable_below (base := 0x2403) rfl (by decide) (by omega), by decide⟩

theorem witness_EncodeErrors :
    (HazardFree .encode wrapping ∧ ¬ SourceFits wrapping) ∧
    (HazardFree .encode windowWraps ∧ SourceFits windowWraps ∧ ¬ WindowFits windowWraps) ∧
    (HazardFree .encode shortWindow ∧ SourceFits shortWindow ∧ WindowFits shortWindow ∧ shortWindow.dstCap.toNat < 1028 ∧
      WindowWritable shortWindow shortWindow.dstCap.toNat) ∧
    (HazardFree .encode badHeaderByte ∧ SourceFits badHeaderByte ∧ WindowFits badHeaderByte ∧
      1027 < badHeaderByte.dstCap.toNat ∧ WindowWritable badHeaderByte 1027 ∧
      memWOk badHeaderByte.platform (badHeaderByte.dstAddr + BitVec.ofNat 32 1027) = false) ∧
    (HazardFree .encode fourBytes ∧ SourceFits fourBytes ∧ WindowFits fourBytes ∧ 1028 ≤ fourBytes.dstCap.toNat ∧
      WindowWritable fourBytes 1028 ∧ 0 < fourBytes.srcLen.toNat ∧ memROk fourBytes.platform fourBytes.srcAddr = true ∧
      fourBytes.treeValid = false) :=
  ⟨⟨by unfold HazardFree; decide, wraps_wrapping⟩,
    ⟨by unfold HazardFree; decide, by show 0x1000 + 4 ≤ 2 ^ 32; omega, by show ¬ 0xFFFFFFFF + 2 ≤ 2 ^ 32; omega⟩,
    ⟨by unfold HazardFree; decide, by show 0x1000 + 4 ≤ 2 ^ 32; omega, by show 0x2000 + 1027 ≤ 2 ^ 32; omega, by decide,
      writable rfl _⟩,
    ⟨by unfold HazardFree; decide, by show 0x1000 + 4 ≤ 2 ^ 32; omega, by show 0x2000 + 0x1000 ≤ 2 ^ 32; omega, by decide,
      writable_badHeaderByte⟩,
    by unfold HazardFree; decide, fits_fourBytes.1, fits_fourBytes.2, by decide, writable rfl _, by decide, rfl, rfl⟩

/-- The bytes 00 03 at 0x1100: the second one has no code (vector T-E8). -/
def unknownSecond : State := { tight with mem := [(0x1101, 0x03#8)], srcAddr := 0x1100#32, srcLen := 2#32 }

theorem code_unknownSecond (x : Byte) :
    unknownSecond.code x = codeIn [(0#8, [false]), (1#8, [true, false]), (2#8, [true, true])] x := codes_threeCounts x

/-- The source 00 01 00 02 under the tree of T-B1, on a platform and with a window of its own. -/
def tightWith (p : Platform) (c : Word) : State := { treed fourBytes with platform := p, dstCap := c }

theorem code_tightWith (p : Platform) (c : Word) (x : Byte) :
    (tightWith p c).code x = codeIn [(0#8, [false]), (1#8, [true, false]), (2#8, [true, true])] x := codes_threeCounts x

theorem bytes_tightWith (p : Platform) (c : Word) :
    bytesAt (tightWith p c).mem (tightWith p c).srcAddr 4 = [0#8, 1#8, 0#8, 2#8] ∧
    bytesAt (tightWith p c).mem (tightWith p c).srcAddr 2 = [0#8, 1#8] :=
  (by decide : bytesAt fourBytes.mem fourBytes.srcAddr 4 = [0#8, 1#8, 0#8, 2#8] ∧ bytesAt fourBytes.mem fourBytes.srcAddr 2 = [0#8, 1#8])

theorem written_tightWith (p : Platform) (c : Word) : writtenAfter (tightWith p c) 4 = 1029 ∧ writtenAfter (tightWith p c) 2 = 1028 := by
  unfold writtenAfter
  rw [(bytes_tightWith p c).1, (bytes_tightWith p c).2, show (tightWith p c).code = _ from funext (code_tightWith p c),
    show (tightWith p c).srcLen = 4#32 from rfl]
  decide

theorem coded_tightWith (p : Platform) (c : Word) :
    (∀ x ∈ bytesAt (tightWith p c).mem (tightWith p c).srcAddr 4, (tightWith p c).code x ≠ []) ∧
    ∀ x ∈ bytesAt (tightWith p c).mem (tightWith p c).srcAddr 2, (tightWith p c).code x ≠ [] := by
  rw [(bytes_tightWith p c).1, (bytes_tightWith p c).2, show (tightWith p c).code = _ from funext (code_tightWith p c)]
  decide

/-- The third source byte does not read. -/
def tightBadThird : State := tightWith (platformWith .readFails 0x1002 1) 1029#32

/-- T-E9: no room for the final byte. -/
def tightShort : State := tightWith plainPlatform 1028#32

/-- The final byte does not write. -/
def tightBadLast : State := tightWith (platformWith .writeFails 0x2404 1) 1029#32

theorem fits_tightWith (p : Platform) {c : Word} (h : c.toNat ≤ 1029) : SourceFits (tightWith p c) ∧ WindowFits (tightWith p c) :=
  ⟨by show 0x1000 + 4 ≤ 2 ^ 32; omega, by show 0x2000 + c.toNat ≤ 2 ^ 32; omega⟩

/-- One clause each: a byte without a code (T-E8), a byte that does not read, no room for the final byte (T-E9), and a
final byte that does not write. -/
theorem witness_EncodeReportsFirstError :
    (HazardFree .encode unknownSecond ∧ (SourceFits unknownSecond ∧ WindowFits unknownSecond) ∧
      1 ≤ unknownSecond.srcLen.toNat ∧ SourceReadable unknownSecond 1 ∧
      (∀ x ∈ bytesAt unknownSecond.mem unknownSecond.srcAddr 1, unknownSecond.code x ≠ []) ∧
      1 < unknownSecond.srcLen.toNat ∧ writtenAfter unknownSecond 1 ≤ unknownSecond.dstCap.toNat ∧
      WindowWritable unknownSecond (writtenAfter unknownSecond 1) ∧
      memROk unknownSecond.platform (unknownSecond.srcAddr + BitVec.ofNat 32 1) = true ∧
      unknownSecond.code (readMem unknownSecond.mem (unknownSecond.srcAddr + BitVec.ofNat 32 1)) = []) ∧
    (HazardFree .encode tightBadThird ∧ (SourceFits tightBadThird ∧ WindowFits tightBadThird) ∧
      2 < tightBadThird.srcLen.toNat ∧ SourceReadable tightBadThird 2 ∧
      (∀ x ∈ bytesAt tightBadThird.mem tightBadThird.srcAddr 2, tightBadThird.code x ≠ []) ∧
      writtenAfter tightBadThird 2 ≤ tightBadThird.dstCap.toNat ∧ WindowWritable tightBadThird (writtenAfter tightBadThird 2) ∧
      memROk tightBadThird.platform (tightBadThird.srcAddr + BitVec.ofNat 32 2) = false) ∧
    (HazardFree .encode tightShort ∧ (SourceFits tightShort ∧ WindowFits tightShort) ∧ 4 ≤ tightShort.srcLen.toNat ∧
      SourceReadable tightShort 4 ∧
      (∀ x ∈ bytesAt tightShort.mem tightShort.srcAddr 4, tightShort.code x ≠ []) ∧
      tightShort.dstCap.toNat < writtenAfter tightShort 4 ∧ WindowWritable tightShort tightShort.dstCap.toNat) ∧
    (HazardFree .encode tightBadLast ∧ (SourceFits tightBadLast ∧ WindowFits tightBadLast) ∧
      4 ≤ tightBadLast.srcLen.toNat ∧ SourceReadable tightBadLast 4 ∧
      (∀ x ∈ bytesAt tightBadLast.mem tightBadLast.srcAddr 4, tightBadLast.code x ≠ []) ∧
      1028 < writtenAfter tightBadLast 4 ∧ 1028 < tightBadLast.dstCap.toNat ∧ WindowWritable tightBadLast 1028 ∧
      memWOk tightBadLast.platform (tightBadLast.dstAddr + BitVec.ofNat 32 1028) = false) := by
  have hb : bytesAt unknownSecond.mem unknownSecond.srcAddr 1 = [0#8] := by decide
  have hr : readMem unknownSecond.mem (unknownSecond.srcAddr + BitVec.ofNat 32 1) = 3#8 := by decide
  refine ⟨?_, ?_, ?_, ?_⟩
  · unfold writtenAfter
    rw [hb, hr, show unknownSecond.code = _ from funext code_unknownSecond]
    exact ⟨by unfold HazardFree; decide, ⟨by show 0x1100 + 2 ≤ 2 ^ 32; omega, by show 0x2000 + 1029 ≤ 2 ^ 32; omega⟩, by decide,
      readable rfl _, by decide, by decide, by decide, writable rfl _, by decide, by decide⟩
  · exact ⟨by unfold HazardFree; decide, fits_tightWith _ (by decide), by decide,
      readable_below (base := 0x1002) rfl (by decide) (by omega), (coded_tightWith _ _).2,
      by rw [tightBadThird, (written_tightWith _ _).2]; decide, writable_readFails (base := 0x1002) rfl _, by decide⟩
  · exact ⟨by unfold HazardFree; decide, fits_tightWith _ (by decide), by decide, readable rfl _, (coded_tightWith _ _).1,
      by rw [tightShort, (written_tightWith _ _).1]; decide, writable rfl _⟩
  · exact ⟨by unfold HazardFree; decide, fits_tightWith _ (by decide), by decide,
      readable_writeFails (base := 0x2404) rfl _, (coded_tightWith _ _).1,
      by rw [tightBadLast, (written_tightWith _ _).1]; omega, by decide,
      writable_below (base := 0x2404) rfl (by decide) (by omega), by decide⟩

/-- Nine bytes 0x00 at 0x1100 and the window that their container fills. -/
def nineZeros : State := { idle with srcAddr := 0x1100#32, srcLen := 9#32, dstAddr := 0x2000#32, dstCap := 1030#32 }

theorem source_nineZeros : sourceBytes nineZeros = List.replicate 9 0#8 := by decide

theorem witness_CompressOneRepeatedByte :
    HazardFree .compress nineZeros ∧ SourceFits nineZeros ∧ WindowFits nineZeros ∧
    SourceReadable nineZeros nineZeros.srcLen.toNat ∧ 0 < nineZeros.srcLen.toNat ∧
    sourceBytes nineZeros = List.replicate nineZeros.srcLen.toNat 0#8 ∧
    1028 + ceil8 nineZeros.srcLen.toNat ≤ nineZeros.dstCap.toNat ∧ WindowWritable nineZeros (1028 + ceil8 nineZeros.srcLen.toNat) :=
  ⟨by unfold HazardFree; decide, by show 0x1100 + 9 ≤ 2 ^ 32; omega, by show 0x2000 + 1030 ≤ 2 ^ 32; omega, readable rfl _,
    by decide, source_nineZeros, by decide, writable rfl _⟩

theorem build_nineZeros : buildTree (countBytes (sourceBytes nineZeros)) = .ok (singleTree 0#8) := by
  refine build_single (present_single ?_ fun y hy => ?_) <;> unfold countBytes <;> rw [entry_tabulate, source_nineZeros]
  · decide
  · rw [List.count_replicate, if_neg (by simpa using fun e => hy e.symm)]

theorem code_nineZeros : entry (singleTree 0#8).code 0#8 = [false] := by unfold singleTree; rw [entry_tabulate, if_pos rfl]

theorem length_nineZeros : (sourceBits (entry (singleTree 0#8).code) (sourceBytes nineZeros)).length = 9 := by
  rw [source_nineZeros, sourceBits, List.flatMap_replicate, code_nineZeros]; rfl

theorem witness_CompressWritesContainer :
    ∃ T, HazardFree .compress nineZeros ∧ SourceFits nineZeros ∧ WindowFits nineZeros ∧
    SourceReadable nineZeros nineZeros.srcLen.toNat ∧ 0 < nineZeros.srcLen.toNat ∧
    buildTree (countBytes (sourceBytes nineZeros)) = .ok T ∧
    1028 + ceil8 (sourceBits (entry T.code) (sourceBytes nineZeros)).length ≤ nineZeros.dstCap.toNat ∧
    WindowWritable nineZeros (1028 + ceil8 (sourceBits (entry T.code) (sourceBytes nineZeros)).length) :=
  ⟨singleTree 0#8, by unfold HazardFree; decide, by show 0x1100 + 9 ≤ 2 ^ 32; omega,
    by show 0x2000 + 1030 ≤ 2 ^ 32; omega, readable rfl _, by decide, build_nineZeros,
    by rw [length_nineZeros]; decide, writable rfl _⟩

/-- A source of no bytes and the window that a header fills. -/
def noBytes : State := { treed idle with dstAddr := 0x2000#32, dstCap := 1028#32 }

theorem witness_EmptySourceGivesHeaderOnly :
    noBytes.srcLen = 0#32 ∧ WindowFits noBytes ∧ 1028 ≤ noBytes.dstCap.toNat ∧ WindowWritable noBytes 1028 ∧
    HazardFree .encode noBytes ∧ HazardFree .compress noBytes :=
  ⟨rfl, by show 0x2000 + 1028 ≤ 2 ^ 32; omega, by decide, writable rfl _, by unfold HazardFree; decide,
    by unfold HazardFree; decide⟩

theorem exec_free {i : Instr} {s : State} (h : HazardFree i s) : exec i s = .next (doneState i s) := exec_next.2 ⟨h, rfl⟩

theorem error_badThird : (compressDone badThird).err = 1#4 ∧ (compressDone badThird).errSub = 1#4 := by
  rcases compressDone_cases badThird with ⟨h, -⟩ | ⟨-, h, -⟩ | ⟨-, -, k, -, -, -, h⟩ | ⟨-, -, h, -⟩
  · exact absurd fits_fourBytes.1 h
  · exact absurd fits_fourBytes.2 h
  · rw [h]; exact ⟨rfl, rfl⟩
  · exact absurd (h 2 (by decide)) (by rw [bad_third.2]; decide)

theorem witness_CompressAlwaysHasCodes :
    (SourceFits nineZeros ∧ 0 < nineZeros.srcLen.toNat) ∧ (∃ t, exec .compress nineZeros = .next t) ∧
    ∃ t, exec .compress badThird = .next t ∧ (t.err, t.errSub) = (1#4, 1#4) :=
  ⟨⟨by show 0x1100 + 9 ≤ 2 ^ 32; omega, by decide⟩, ⟨_, exec_free (by unfold HazardFree; decide)⟩,
    compressDone badThird, exec_free (by unfold HazardFree; decide), Prod.ext error_badThird.1 error_badThird.2⟩

theorem failed_of_short {s : State} (hc : s.dstCap.toNat < 1028) : (compressDone s).err ≠ 0#4 := by
  intro h
  rcases compressDone_cases s with ⟨-, e⟩ | ⟨-, -, e⟩ | ⟨-, -, k, -, -, -, e⟩ | ⟨-, -, -, e⟩ <;> rw [e] at h
  · exact failWindow_err h
  · exact failWindow_err h
  · exact failWindow_err h
  · obtain ⟨k, hk, -, -⟩ := finish_success h
    have h1 := hk.fits
    rw [length_encodedBytes, (compressTables_keeps s).2.2.2.1] at h1
    omega

/-- Nine bytes 0x00 and a window of one byte too few for their container. -/
def nineShort : State := { nineZeros with dstCap := 1029#32 }

/-- Nine bytes 0x00 whose last container byte does not write. -/
def nineBadLast : State := { nineZeros with platform := platformWith .writeFails 0x2405 1 }

theorem length_nine {s : State} (hb : sourceBytes s = sourceBytes nineZeros) (h : s.srcLen ≠ 0#32) : CompressedLength s 1030 :=
  .inr ⟨h, singleTree 0#8, by rw [hb]; exact build_nineZeros, by rw [hb, length_nineZeros]; rfl⟩

/-- One clause each: the two ranges, the read, and a failure in the encode stage of a source that is not empty and of an
empty one. -/
theorem witness_CompressFailureSurvivors :
    (HazardFree .compress wrapping ∧ ¬ SourceFits wrapping) ∧
    (HazardFree .compress windowWraps ∧ SourceFits windowWraps ∧ ¬ WindowFits windowWraps) ∧
    (HazardFree .compress badThird ∧ SourceFits badThird ∧ WindowFits badThird ∧ 2 < badThird.srcLen.toNat ∧
      SourceReadable badThird 2 ∧ memROk badThird.platform (badThird.srcAddr + BitVec.ofNat 32 2) = false) ∧
    (∃ t, exec .compress shortWindow = .next t ∧ t.err ≠ 0#4 ∧ SourceFits shortWindow ∧ WindowFits shortWindow ∧
      SourceReadable shortWindow shortWindow.srcLen.toNat ∧ shortWindow.srcLen ≠ 0#32) ∧
    ∃ t, exec .compress idle = .next t ∧ t.err ≠ 0#4 ∧ SourceFits idle ∧ WindowFits idle ∧
      SourceReadable idle idle.srcLen.toNat ∧ idle.srcLen = 0#32 :=
  ⟨⟨by unfold HazardFree; decide, wraps_wrapping⟩,
    ⟨by unfold HazardFree; decide, by show 0x1000 + 4 ≤ 2 ^ 32; omega, by show ¬ 0xFFFFFFFF + 2 ≤ 2 ^ 32; omega⟩,
    ⟨by unfold HazardFree; decide, fits_fourBytes.1, fits_fourBytes.2, by decide, bad_third⟩,
    ⟨compressDone shortWindow, exec_free (by unfold HazardFree; decide), failed_of_short (by decide), by show 0x1000 + 4 ≤ 2 ^ 32; omega,
      by show 0x2000 + 1027 ≤ 2 ^ 32; omega, readable rfl _, by decide⟩,
    ⟨compressDone idle, exec_free (by unfold HazardFree; decide), failed_of_short (by decide), by show 0 + 0 ≤ 2 ^ 32; omega,
      by show 0 + 0 ≤ 2 ^ 32; omega, readable rfl _, rfl⟩⟩

/-- Its clauses on the encode stage: no room for the last container byte, the same for an empty source, and a last
container byte that does not write. -/
theorem witness_CompressFailureSurvivors_encode :
    (HazardFree .compress nineShort ∧ SourceFits nineShort ∧ WindowFits nineShort ∧
      SourceReadable nineShort nineShort.srcLen.toNat ∧ CompressedLength nineShort 1030 ∧ nineShort.dstCap.toNat < 1030 ∧
      WindowWritable nineShort nineShort.dstCap.toNat) ∧
    (HazardFree .compress idle ∧ SourceFits idle ∧ WindowFits idle ∧ SourceReadable idle idle.srcLen.toNat ∧
      CompressedLength idle 1028 ∧ idle.dstCap.toNat < 1028 ∧ WindowWritable idle idle.dstCap.toNat) ∧
    (HazardFree .compress nineBadLast ∧ SourceFits nineBadLast ∧ WindowFits nineBadLast ∧
      SourceReadable nineBadLast nineBadLast.srcLen.toNat ∧ CompressedLength nineBadLast 1030 ∧ 1029 < 1030 ∧
      1029 < nineBadLast.dstCap.toNat ∧ WindowWritable nineBadLast 1029 ∧
      memWOk nineBadLast.platform (nineBadLast.dstAddr + BitVec.ofNat 32 1029) = false) :=
  ⟨⟨by unfold HazardFree; decide, by show 0x1100 + 9 ≤ 2 ^ 32; omega, by show 0x2000 + 1029 ≤ 2 ^ 32; omega, readable rfl _,
      length_nine rfl (by decide), by decide, writable rfl _⟩,
    ⟨by unfold HazardFree; decide, by show 0 + 0 ≤ 2 ^ 32; omega, by show 0 + 0 ≤ 2 ^ 32; omega, readable rfl _,
      .inl ⟨rfl, rfl⟩, by decide, writable rfl _⟩,
    by unfold HazardFree; decide, by show 0x1100 + 9 ≤ 2 ^ 32; omega, by show 0x2000 + 1030 ≤ 2 ^ 32; omega,
    readable_writeFails (base := 0x2405) rfl _, length_nine rfl (by decide), by omega, by decide,
    writable_below (base := 0x2405) rfl (by decide) (by omega), by decide⟩

/-! ### Witnesses: the decoder -/

/-- 00 01 00 02 under the tree of T-B1: six payload bits. -/
theorem bits_four :
    sourceBits (entry (mergedTree threeCounts 3).code) [0#8, 1#8, 0#8, 2#8] = [false, true, false, false, true, true] := by
  rw [show entry (mergedTree threeCounts 3).code = _ from funext codes_threeCounts]; rfl

theorem coded_four : ∀ x ∈ [0#8, 1#8, 0#8, 2#8], entry (mergedTree threeCounts 3).code x ≠ [] := by
  rw [show entry (mergedTree threeCounts 3).code = _ from funext codes_threeCounts]; decide

theorem length_header_append (n : Word) (f : Table Word) (l : List Byte) : (headerBytes n f ++ l).length = 1028 + l.length := by
  rw [List.length_append, length_headerBytes]

/-- The container of T-D1 with its filler bits set, in memory: payload byte 4F. -/
def withFiller : State := holding (headerBytes (BitVec.ofNat 32 4) threeCounts ++ [0x4F#8])

/-- The same with one byte more. -/
def withSurplus : State := holding (headerBytes (BitVec.ofNat 32 4) threeCounts ++ [0x4F#8, 0x00#8])

/-- What a state that holds the bytes `l` meets. -/
theorem ready_holding {l : List Byte} (h : l.length ≤ 0x10000) (n : Nat) :
    HazardFree .decode (holding l) ∧ SourceFits (holding l) ∧ WindowFits (holding l) ∧ SourceReadable (holding l) n ∧
      sourceBytes (holding l) = l :=
  ⟨hazardFree_holding h, fits_holding h, window_holding l, readable rfl n, source_holding h⟩

theorem short_header (n : Word) (f : Table Word) {l : List Byte} (h : l.length ≤ 1000) :
    (headerBytes n f ++ l).length ≤ 0x10000 := by
  rw [length_header_append]; omega

theorem witness_DecodeReadsSymbolsBack :
    (HazardFree .decode withFiller ∧ SourceFits withFiller ∧ WindowFits withFiller ∧
      SourceReadable withFiller withFiller.srcLen.toNat ∧
      sourceBytes withFiller = headerBytes (BitVec.ofNat 32 [0#8, 1#8, 0#8, 2#8].length) threeCounts ++ [0x4F#8]) ∧
    [0#8, 1#8, 0#8, 2#8] ≠ [] ∧ [0#8, 1#8, 0#8, 2#8].length ≤ withFiller.dstCap.toNat ∧
    WindowWritable withFiller [0#8, 1#8, 0#8, 2#8].length ∧
    buildTree threeCounts = .ok (mergedTree threeCounts 3) ∧
    (∀ x ∈ [0#8, 1#8, 0#8, 2#8], entry (mergedTree threeCounts 3).code x ≠ []) ∧
    [0x4F#8].length = ceil8 (sourceBits (entry (mergedTree threeCounts 3).code) [0#8, 1#8, 0#8, 2#8]).length ∧
    ∀ i, i < (sourceBits (entry (mergedTree threeCounts 3).code) [0#8, 1#8, 0#8, 2#8]).length →
      streamBit ([0x4F#8].getD (i / 8) 0#8) (i % 8) =
        (sourceBits (entry (mergedTree threeCounts 3).code) [0#8, 1#8, 0#8, 2#8]).getD i false := by
  rw [bits_four]
  exact ⟨ready_holding (short_header _ _ (by decide)) _, by decide, by decide, writable rfl _, build_threeCounts, coded_four,
    by decide, by decide⟩

theorem witness_DecodeRejectsSurplusBytes :
    (HazardFree .decode withSurplus ∧ SourceFits withSurplus ∧ WindowFits withSurplus ∧
      SourceReadable withSurplus withSurplus.srcLen.toNat ∧
      sourceBytes withSurplus =
        headerBytes (BitVec.ofNat 32 [0#8, 1#8, 0#8, 2#8].length) threeCounts ++ [0x4F#8, 0x00#8]) ∧
    [0#8, 1#8, 0#8, 2#8] ≠ [] ∧ [0#8, 1#8, 0#8, 2#8].length ≤ withSurplus.dstCap.toNat ∧
    WindowWritable withSurplus [0#8, 1#8, 0#8, 2#8].length ∧
    buildTree threeCounts = .ok (mergedTree threeCounts 3) ∧
    (∀ x ∈ [0#8, 1#8, 0#8, 2#8], entry (mergedTree threeCounts 3).code x ≠ []) ∧
    ceil8 (sourceBits (entry (mergedTree threeCounts 3).code) [0#8, 1#8, 0#8, 2#8]).length < [0x4F#8, 0x00#8].length ∧
    ∀ i, i < (sourceBits (entry (mergedTree threeCounts 3).code) [0#8, 1#8, 0#8, 2#8]).length →
      streamBit ([0x4F#8, 0x00#8].getD (i / 8) 0#8) (i % 8) =
        (sourceBits (entry (mergedTree threeCounts 3).code) [0#8, 1#8, 0#8, 2#8]).getD i false := by
  rw [bits_four]
  exact ⟨ready_holding (short_header _ _ (by decide)) _, by decide, by decide, writable rfl _, build_threeCounts, coded_four,
    by decide, by decide⟩

/-- A header of which the third byte does not read. -/
def badHeader : State :=
  { idle with
    platform := platformWith .readFails 0x1002 1, srcAddr := 0x1000#32, srcLen := 1028#32, dstAddr := 0x2000#32, dstCap := 16#32 }

/-- One clause each: a source that wraps, a window that wraps, 1027 bytes, and a header byte that does not read. -/
theorem witness_DecodeStopsBeforeHeaderIsRead :
    (HazardFree .decode wrapping ∧ ¬ SourceFits wrapping) ∧
    (HazardFree .decode windowWraps ∧ SourceFits windowWraps ∧ ¬ WindowFits windowWraps) ∧
    (∃ s : State, HazardFree .decode s ∧ SourceFits s ∧ WindowFits s ∧ s.srcLen.toNat = 1027) ∧
    (HazardFree .decode badHeader ∧ SourceFits badHeader ∧ WindowFits badHeader ∧ 1028 ≤ badHeader.srcLen.toNat ∧ 2 < 1028 ∧
      SourceReadable badHeader 2 ∧ memROk badHeader.platform (badHeader.srcAddr + BitVec.ofNat 32 2) = false) := by
  refine ⟨⟨by unfold HazardFree; decide, wraps_wrapping⟩,
    ⟨by unfold HazardFree; decide, by show 0x1000 + 4 ≤ 2 ^ 32; omega, by show ¬ 0xFFFFFFFF + 2 ≤ 2 ^ 32; omega⟩,
    ⟨{ badHeader with srcLen := 1027#32 }, by unfold HazardFree; decide, by show 0x1000 + 1027 ≤ 2 ^ 32; omega,
      by show 0x2000 + 16 ≤ 2 ^ 32; omega, rfl⟩,
    by unfold HazardFree; decide, by show 0x1000 + 1028 ≤ 2 ^ 32; omega, by show 0x2000 + 16 ≤ 2 ^ 32; omega, by decide,
    by decide, fun k hk => ?_, by decide⟩
  have : k = 0 ∨ k = 1 := by omega
  rcases this with rfl | rfl <;> decide

/-- One clause each: the empty container, with a surplus byte, a header whose sum is 2^32, an empty table with a
symbol count, and a symbol count one past the capacity. -/
theorem witness_DecodeChecksDescriptor :
    (∃ s : State, (HazardFree .decode s ∧ SourceFits s ∧ WindowFits s ∧ SourceReadable s 1028 ∧
      sourceBytes s = headerBytes 0#32 zeroTable ++ [])) ∧
    (∃ s : State, (HazardFree .decode s ∧ SourceFits s ∧ WindowFits s ∧ SourceReadable s 1028 ∧
      sourceBytes s = headerBytes 0#32 zeroTable ++ [0xAA#8])) ∧
    (∃ s : State, (HazardFree .decode s ∧ SourceFits s ∧ WindowFits s ∧ SourceReadable s 1028 ∧
      sourceBytes s = headerBytes 1#32 overflowing ++ []) ∧ freqSum overflowing > 2 ^ 32 - 1) ∧
    (∃ s : State, (HazardFree .decode s ∧ SourceFits s ∧ WindowFits s ∧ SourceReadable s 1028 ∧
      sourceBytes s = headerBytes 1#32 zeroTable ++ []) ∧ ∀ x, entry zeroTable x = 0#32) ∧
    ∃ s : State, (HazardFree .decode s ∧ SourceFits s ∧ WindowFits s ∧ SourceReadable s 1028 ∧
      sourceBytes s = headerBytes 0x1001#32 threeCounts ++ [0x4C#8]) ∧
      buildTree threeCounts = .ok (mergedTree threeCounts 3) ∧ s.dstCap.toNat < (0x1001#32 : Word).toNat :=
  ⟨⟨_, ready_holding (short_header _ _ (by decide)) _⟩, ⟨_, ready_holding (short_header _ _ (by decide)) _⟩,
    ⟨_, ready_holding (short_header _ _ (by decide)) _, by rw [sum_overflowing]; omega⟩,
    ⟨_, ready_holding (short_header _ _ (by decide)) _, entry_tabulate _⟩,
    _, ready_holding (short_header _ _ (by decide)) _, build_threeCounts, by show 0x1000 < 0x1001; omega⟩

/-- The container of 41 41 41 with its last payload bit inverted. -/
def oneBitWrong : State := holding (headerBytes 3#32 (oneCount 3#32) ++ [0x20#8])

theorem witness_DecodeSingleSymbolRejectsOneBit :
    (HazardFree .decode oneBitWrong ∧ SourceFits oneBitWrong ∧ WindowFits oneBitWrong ∧
      SourceReadable oneBitWrong oneBitWrong.srcLen.toNat ∧
      sourceBytes oneBitWrong = headerBytes 3#32 (oneCount 3#32) ++ [0x20#8]) ∧
    present (oneCount 3#32) = [0x41#8] ∧ (3#32 : Word).toNat ≤ oneBitWrong.dstCap.toNat ∧ WindowWritable oneBitWrong 2 ∧
    2 < (3#32 : Word).toNat ∧ 2 < 8 * [0x20#8].length ∧
    (∀ i, i < 2 → streamBit ([0x20#8].getD (i / 8) 0#8) (i % 8) = false) ∧
    streamBit ([0x20#8].getD (2 / 8) 0#8) (2 % 8) = true :=
  ⟨ready_holding (short_header _ _ (by decide)) _, present_oneCount, by decide, writable rfl _, by decide, by decide, by decide,
    by decide⟩

/-- The container C1 of T-D1 with symbol count `n` on a platform of its own, payload byte 4C. -/
def onPlatform (p : Platform) (n : Word) : State := moved p (holding (headerBytes n threeCounts ++ [0x4C#8]))

theorem ready_onPlatform {p : Platform} (hb : p.huffBase = 0x80000000#32) (hr : ∀ r ∈ p.regions, r.kind ≠ .sideEffects) (n : Word) :
    HazardFree .decode (onPlatform p n) ∧ SourceFits (onPlatform p n) ∧ WindowFits (onPlatform p n) ∧
      sourceBytes (onPlatform p n) = headerBytes n threeCounts ++ [0x4C#8] :=
  have hl := short_header n threeCounts (l := [0x4C#8]) (by decide)
  have hm := moved_keeps p (holding (headerBytes n threeCounts ++ [0x4C#8]))
  ⟨hazardFree_holding_on hl hb hr, hm.2.1 (fits_holding hl), hm.2.2 (window_holding _), hm.1.trans (source_holding hl)⟩

theorem kind_platformWith {kind : RegionKind} (h : kind ≠ .sideEffects) {base size : Nat} :
    ∀ r ∈ (platformWith kind base size).regions, r.kind ≠ .sideEffects := by simp [platformWith, h]

/-- T-D22: output byte 2 does not write. -/
def badThirdOutput : State := onPlatform (platformWith .writeFails 0x40000002 1) 4#32

/-- T-D20: the payload byte does not read. -/
def badPayload : State := onPlatform (platformWith .readFails 0x2404 1) 4#32

/-- T-D10: seven symbols are declared and the payload holds six. -/
def sixOfSeven : State := onPlatform plainPlatform 7#32

theorem code_sub {l : List Byte} (h : ∀ x ∈ l, x ∈ [0#8, 1#8, 2#8]) : ∀ x ∈ l, entry (mergedTree threeCounts 3).code x ≠ [] := by
  have : ∀ x ∈ [0#8, 1#8, 2#8], entry (mergedTree threeCounts 3).code x ≠ [] := by
    rw [show entry (mergedTree threeCounts 3).code = _ from funext codes_threeCounts]; decide
  exact fun x hx => this x (h x hx)

/-- One clause each, with the vectors' states. -/
theorem witness_DecodeWalkErrors :
    (buildTree threeCounts = .ok (mergedTree threeCounts 3)) ∧
    ((HazardFree .decode badThirdOutput ∧ SourceFits badThirdOutput ∧ WindowFits badThirdOutput ∧
        sourceBytes badThirdOutput = headerBytes 4#32 threeCounts ++ [0x4C#8]) ∧ SourceReadable badThirdOutput 1028 ∧
      (4#32 : Word).toNat ≤ badThirdOutput.dstCap.toNat ∧ [0#8, 1#8].length < (4#32 : Word).toNat ∧
      (∀ y ∈ [0#8, 1#8] ++ [0#8], entry (mergedTree threeCounts 3).code y ≠ []) ∧ WindowWritable badThirdOutput 2 ∧
      (sourceBits (entry (mergedTree threeCounts 3).code) ([0#8, 1#8] ++ [0#8])).length ≤ 8 * [0x4C#8].length ∧
      SourceReadable badThirdOutput
        (1028 + ceil8 (sourceBits (entry (mergedTree threeCounts 3).code) ([0#8, 1#8] ++ [0#8])).length) ∧
      PayloadBegins [0x4C#8] (sourceBits (entry (mergedTree threeCounts 3).code) ([0#8, 1#8] ++ [0#8]))
        (sourceBits (entry (mergedTree threeCounts 3).code) ([0#8, 1#8] ++ [0#8])).length ∧
      memWOk badThirdOutput.platform (badThirdOutput.dstAddr + BitVec.ofNat 32 2) = false) ∧
    ((HazardFree .decode badPayload ∧ SourceFits badPayload ∧ WindowFits badPayload ∧
        sourceBytes badPayload = headerBytes 4#32 threeCounts ++ [0x4C#8]) ∧ SourceReadable badPayload 1028 ∧
      (4#32 : Word).toNat ≤ badPayload.dstCap.toNat ∧ ([] : List Byte).length < (4#32 : Word).toNat ∧
      (∀ y ∈ [] ++ [0#8], entry (mergedTree threeCounts 3).code y ≠ []) ∧ WindowWritable badPayload 0 ∧
      0 < [0x4C#8].length ∧ (sourceBits (entry (mergedTree threeCounts 3).code) []).length ≤ 8 * 0 ∧
      8 * 0 < (sourceBits (entry (mergedTree threeCounts 3).code) ([] ++ [0#8])).length ∧
      SourceReadable badPayload (1028 + 0) ∧
      PayloadBegins [0x4C#8] (sourceBits (entry (mergedTree threeCounts 3).code) ([] ++ [0#8])) (8 * 0) ∧
      memROk badPayload.platform (badPayload.srcAddr + BitVec.ofNat 32 (1028 + 0)) = false) ∧
    ((HazardFree .decode sixOfSeven ∧ SourceFits sixOfSeven ∧ WindowFits sixOfSeven ∧
        sourceBytes sixOfSeven = headerBytes 7#32 threeCounts ++ [0x4C#8]) ∧
      SourceReadable sixOfSeven 1028 ∧ (7#32 : Word).toNat ≤ sixOfSeven.dstCap.toNat ∧
      [0#8, 1#8, 0#8, 2#8, 0#8, 0#8].length < (7#32 : Word).toNat ∧
      (∀ y ∈ [0#8, 1#8, 0#8, 2#8, 0#8, 0#8] ++ [0#8], entry (mergedTree threeCounts 3).code y ≠ []) ∧
      WindowWritable sixOfSeven [0#8, 1#8, 0#8, 2#8, 0#8, 0#8].length ∧
      (sourceBits (entry (mergedTree threeCounts 3).code) [0#8, 1#8, 0#8, 2#8, 0#8, 0#8]).length ≤ 8 * [0x4C#8].length ∧
      8 * [0x4C#8].length <
        (sourceBits (entry (mergedTree threeCounts 3).code) ([0#8, 1#8, 0#8, 2#8, 0#8, 0#8] ++ [0#8])).length ∧
      SourceReadable sixOfSeven sixOfSeven.srcLen.toNat ∧
      PayloadBegins [0x4C#8] (sourceBits (entry (mergedTree threeCounts 3).code) ([0#8, 1#8, 0#8, 2#8, 0#8, 0#8] ++ [0#8]))
        (8 * [0x4C#8].length)) := by
  unfold PayloadBegins
  refine ⟨build_threeCounts,
    ⟨ready_onPlatform rfl (kind_platformWith (by decide)) 4#32, readable_writeFails (base := 0x40000002) rfl _, by decide, by decide,
      code_sub (by decide), writable_below (base := 0x40000002) rfl (by decide) (by omega), ?_,
      readable_writeFails (base := 0x40000002) rfl _, ?_, by decide⟩,
    ⟨ready_onPlatform rfl (kind_platformWith (by decide)) 4#32, readable_below (base := 0x2404) rfl (by decide) (by omega),
      by decide, by decide, code_sub (by decide), fun k hk => absurd hk (by omega), by decide, by decide, ?_,
      readable_below (base := 0x2404) rfl (by decide) (by omega), fun i hi => absurd hi (by omega), by decide⟩,
    ready_onPlatform rfl (fun _ hr => absurd hr List.not_mem_nil) 7#32, readable rfl _, by decide, by decide,
    code_sub (by decide), writable rfl _, ?_, ?_, readable rfl _, ?_⟩ <;>
    rw [show entry (mergedTree threeCounts 3).code = _ from funext codes_threeCounts] <;> decide

/-- The container of 00 01 00 02 without its last byte, and an empty container without its last byte. -/
def truncated : State :=
  holding (container (BitVec.ofNat 32 4) threeCounts (entry (mergedTree threeCounts 3).code) [0#8, 1#8, 0#8, 2#8]).dropLast

theorem length_dropLast_container (n : Word) (f : Table Word) {code : Byte → Code} {data : List Byte}
    (h : (sourceBits code data).length ≤ 1000) : (container n f code data).dropLast.length ≤ 0x10000 := by
  rw [List.length_dropLast, container, List.length_append, length_headerBytes, length_packBits]
  unfold ceil8
  omega

theorem witness_TruncationIsDetected :
    ((HazardFree .decode truncated ∧ SourceFits truncated ∧ WindowFits truncated ∧
        SourceReadable truncated truncated.srcLen.toNat ∧
        sourceBytes truncated = (container (BitVec.ofNat 32 [0#8, 1#8, 0#8, 2#8].length) threeCounts
          (entry (mergedTree threeCounts 3).code) [0#8, 1#8, 0#8, 2#8]).dropLast) ∧
      [0#8, 1#8, 0#8, 2#8] ≠ [] ∧ [0#8, 1#8, 0#8, 2#8].length < 2 ^ 32 ∧
      [0#8, 1#8, 0#8, 2#8].length ≤ truncated.dstCap.toNat ∧ WindowWritable truncated [0#8, 1#8, 0#8, 2#8].length ∧
      buildTree threeCounts = .ok (mergedTree threeCounts 3) ∧
      ∀ x ∈ [0#8, 1#8, 0#8, 2#8], entry (mergedTree threeCounts 3).code x ≠ []) ∧
    ∃ s : State, HazardFree .decode s ∧ SourceFits s ∧ WindowFits s ∧
      sourceBytes s = (container 0#32 threeCounts (fun _ => []) []).dropLast := by
  have h0 := length_dropLast_container 0#32 threeCounts (code := fun _ => []) (data := []) (by decide)
  exact ⟨⟨ready_holding (length_dropLast_container _ _ (by rw [bits_four]; decide)) _, by decide, by decide, by decide,
    writable rfl _, build_threeCounts, coded_four⟩,
    _, hazardFree_holding h0, fits_holding h0, window_holding _, source_holding h0⟩

/-- A state that holds `n` bytes of another memory. -/
theorem ready_copy (m : Memory) (a : Word) {n : Nat} (h : n ≤ 0x10000) :
    ∃ u : State, u.srcLen = BitVec.ofNat 32 n ∧ sourceBytes u = bytesAt m a n ∧ HazardFree .decode u ∧ SourceFits u ∧
      WindowFits u ∧ SourceReadable u u.srcLen.toNat ∧ u.dstCap = 0x1000#32 ∧ ∀ j, WindowWritable u j := by
  have hb : (bytesAt m a n).length ≤ 0x10000 := by rw [length_bytesAt]; exact h
  refine ⟨holding (bytesAt m a n), ?_, source_holding hb, hazardFree_holding hb, fits_holding hb, window_holding _,
    readable rfl _, rfl, fun j => writable rfl j⟩
  show BitVec.ofNat 32 (bytesAt m a n).length = _
  rw [length_bytesAt]

/-- ENCODE of `tight`, and a state that holds what it wrote. -/
theorem witness_RoundTrip :
    TreeMatchesFreq tight ∧ ∃ t, exec .encode tight = .next t ∧ t.err = 0#4 ∧
      ∃ u : State, u.srcLen = t.outLen ∧ sourceBytes u = bytesAt t.mem tight.dstAddr t.outLen.toNat ∧
        HazardFree .decode u ∧ SourceFits u ∧ WindowFits u ∧ SourceReadable u u.srcLen.toNat ∧
        tight.srcLen.toNat ≤ u.dstCap.toNat ∧ WindowWritable u tight.srcLen.toNat := by
  obtain ⟨h0, h1, h2, h3, h4, h5, h6⟩ := witness_EncodeWritesContainer
  obtain ⟨k, hk, -⟩ := finish_ok tight h3 h4 h5 h6
  have hd : encodeDone tight = encodeFinish tight := by
    rcases encodeDone_cases tight with ⟨h, -⟩ | ⟨-, h, -⟩ | ⟨-, -, h⟩
    · exact absurd h1 h
    · exact absurd h2 h
    · exact h
  rw [bits_tight] at hk
  obtain ⟨u, u1, u2, u3, u4, u5, u6, u7, u8⟩ := ready_copy k.mem tight.dstAddr (n := 1029) (by omega)
  exact ⟨fun t ht => by cases ht; exact build_threeCounts,
    (tight.withMem k.mem).succeed 1029#32 6#64, exec_next.2 ⟨h0, (hd.trans hk).symm⟩, rfl, u, u1, u2, u3, u4, u5, u6,
    by rw [u7]; decide, u8 _⟩

/-- COMPRESS of `nineZeros`, and a state that holds what it wrote. -/
theorem witness_RoundTrip_compress :
    TreeMatchesFreq nineZeros ∧ ∃ t, exec .compress nineZeros = .next t ∧ t.err = 0#4 ∧
      ∃ u : State, u.srcLen = t.outLen ∧ sourceBytes u = bytesAt t.mem nineZeros.dstAddr t.outLen.toNat ∧
        HazardFree .decode u ∧ SourceFits u ∧ WindowFits u ∧ SourceReadable u u.srcLen.toNat ∧
        nineZeros.srcLen.toNat ≤ u.dstCap.toNat ∧ WindowWritable u nineZeros.srcLen.toNat := by
  have hc := compressTables_built (s := nineZeros) (by decide) build_nineZeros
  obtain ⟨hsa, hsl, hda, hdc, hpl, hme⟩ := compressTables_keeps nineZeros
  have hsrc : sourceBytes (compressTables nineZeros) = sourceBytes nineZeros := by unfold sourceBytes; rw [hsa, hsl, hme]
  have hcode : (compressTables nineZeros).code = entry (singleTree 0#8).code := by rw [hc]; rfl
  have hbits : (encodedBits (compressTables nineZeros)).length = 9 := by
    unfold encodedBits; rw [hsrc, hcode]; exact length_nineZeros
  obtain ⟨k, hk, -⟩ := finish_ok (compressTables nineZeros) (readable hpl _)
    (by rw [hsrc, hcode, source_nineZeros]; intro x hx; rw [List.eq_of_mem_replicate hx, code_nineZeros]; simp)
    (by rw [hbits, hdc]; decide) (writable hpl _)
  have hd : compressDone nineZeros = encodeFinish (compressTables nineZeros) := by
    rcases compressDone_cases nineZeros with ⟨h, -⟩ | ⟨-, h, -⟩ | ⟨-, -, j, -, -, h, -⟩ | ⟨-, -, -, h⟩
    · exact absurd (by show 0x1100 + 9 ≤ 2 ^ 32; omega) h
    · exact absurd (by show 0x2000 + 1030 ≤ 2 ^ 32; omega) h
    · exact absurd h (by rw [readable rfl (j + 1) j (Nat.lt_succ_self j)]; simp)
    · exact h
  rw [hbits] at hk
  obtain ⟨u, u1, u2, u3, u4, u5, u6, u7, u8⟩ := ready_copy k.mem nineZeros.dstAddr (n := 1030) (by omega)
  exact ⟨fun t ht => (by cases ht), ((compressTables nineZeros).withMem k.mem).succeed 1030#32 9#64,
    exec_next.2 ⟨by unfold HazardFree; decide, (hd.trans hk).symm⟩, rfl, u, u1, u2, u3, u4, u5, u6, by rw [u7]; decide, u8 _⟩

/-! ### Witnesses: whole-machine rules -/

/-- For ErrorsEachCommandCanRaise, CommandEndsInCompletion, CommandsWriteOnlyTheirWindow and CommandsFaultExactlyOnHazards:
every command answers a next state somewhere, and one whose ranges share a byte faults. -/
theorem witness_commands :
    (∀ i, ∃ t, exec i fourBytes = .next t) ∧
    (∃ t, exec .encode tight = .next t ∧ t.err = 0#4) ∧ (∃ t, exec .compress badThird = .next t ∧ t.err ≠ 0#4) ∧
    fourBytes.busy = false ∧ ∃ s : State, exec .compress s = .fault (.hazardViolation .rangesOverlap) := by
  obtain ⟨-, t, h1, h2, -⟩ := witness_RoundTrip
  refine ⟨fun i => ⟨_, exec_free ?_⟩, ⟨t, h1, h2⟩,
    ⟨compressDone badThird, exec_free (by unfold HazardFree; decide), by rw [error_badThird.1]; decide⟩, rfl,
    { fourBytes with dstAddr := 0x1003#32 }, by
      rw [exec_eq]
      unfold runUnlessHazard
      rw [show commandHazard .compress { fourBytes with dstAddr := 0x1003#32 } = some .rangesOverlap by decide]⟩
  unfold HazardFree
  cases i <;> decide

/-- Another memory with the same source bytes. -/
theorem witness_CommandsDependOnlyOnTheirSource :
    (∀ a, inSource fourBytes a = true →
      readMem (fourBytes.mem ++ [(0x5000, 1#8)]) a = readMem fourBytes.mem a) ∧
    readMem (fourBytes.mem ++ [(0x5000, 1#8)]) 0x5000#32 ≠ readMem fourBytes.mem 0x5000#32 ∧
    ∃ t, exec .compress fourBytes = .next t := by
  refine ⟨fun a ha => ?_, by decide, witness_commands.1 .compress⟩
  have hm : fourBytes.mem = [(0x1001, 0x01#8), (0x1003, 0x02#8)] := rfl
  have hne : ¬ 0x5000 = a.toNat := by
    unfold inSource at ha
    simp only [Bool.and_eq_true, decide_eq_true_eq] at ha
    have : fourBytes.srcAddr.toNat = 0x1000 := rfl
    have : fourBytes.srcLen.toNat = 4 := rfl
    omega
  rw [hm]
  simp only [List.cons_append, List.nil_append, readMem, if_neg hne]

/-- FREQ_CLEAR of a table that is not clear. -/
theorem witness_OnlyTheseStepsChangeCounters :
    ∃ s t : State, step s = .next t ∧ t.freq ≠ s.freq := by
  refine ⟨load { idle with freq := oneCount 3#32 } .freqClear, _, (step_due ⟨rfl, .inl rfl⟩).trans rfl, fun h => ?_⟩
  have h1 : entry (oneCount 3#32) 0x41#8 = entry zeroTable 0x41#8 := by
    rw [show oneCount 3#32 = zeroTable from h.symm]
  unfold oneCount zeroTable at h1
  rw [entry_tabulate, entry_tabulate] at h1
  exact absurd h1 (by decide)

/-- An error record on show and its acknowledgement queued. -/
def acknowledging : State :=
  { idle with done := true, err := 5#4, errSub := 1#4, lastCmd := 0xFF#8, inputs := [wr .status 0x00000002#32] }

theorem witness_ErrorRecordPersists :
    ∃ s t : State, step s = .next t ∧ (∀ w, ¬ Due s w) ∧ s.err = 5#4 ∧ s.inputs.head? = some (wr .status 0x00000002#32) ∧
      (∀ off v, regOfAccess off 4 = some .cmd → s.busy = false → s.inputs.head? ≠ some (.regWrite off 4 v)) ∧
      (∀ off v, regOfAccess off 4 = some .ctrl → v.getLsbD 1 = true → s.inputs.head? ≠ some (.regWrite off 4 v)) ∧
      s.inputs.head? ≠ some .hardReset := by
  have hn : ∀ w, ¬ Due acknowledging w := fun w h => by cases h.1
  refine ⟨acknowledging, (acknowledging.takeInput []).acknowledge 0x00000002#32, (step_host hn rfl).trans rfl, hn, rfl, rfl,
    ?_, ?_, fun h => by cases h⟩
  · intro off v ho _ h
    cases h
    exact absurd ho (by decide)
  · intro off v ho _ h
    cases h
    exact absurd ho (by decide)

/-! ### Witnesses: reset, hazards, liveness and the invariant -/

/-- For ResetState and ResetTouchesOnlyAbandonedWindow: a hardware reset of an idle block, one that abandons a FREQ_COUNT,
and one that abandons a COMPRESS. -/
theorem witness_ResetState :
    (∃ t, hostStep .hardReset idle = .next t) ∧ (0x00000003#32 : Word).getLsbD 1 = true ∧ idle.busy = false ∧
    RunningIsHazardFree (load fourBytes .compress) ∧
    (∃ t, hostStep .hardReset (load fourBytes .compress) = .next t ∧
      runningCommand (load fourBytes .compress) = some .compress) ∧
    ∃ t, hostStep .hardReset (load fourBytes .freqCount) = .next t ∧
      runningCommand (load fourBytes .freqCount) = some .freqCount ∧ usesWindow .freqCount = false :=
  ⟨⟨idle.resetBlock, rfl⟩, rfl, rfl, fun i h => (by cases h; unfold HazardFree; decide),
    ⟨(load fourBytes .compress).spoilWindow.resetBlock,
      runUnlessHazard_of_free (i := .compress) (s := load fourBytes .compress) (by unfold HazardFree; decide), rfl⟩,
    (load fourBytes .freqCount).resetBlock,
    runUnlessHazard_of_free (i := .freqCount) (s := load fourBytes .freqCount) (by unfold HazardFree; decide), rfl, rfl⟩

/-- The first and last bytes of both ranges and of the register window, and the bytes next to them. -/
theorem witness_HostAccessHazards :
    (inRegisterWindow plainPlatform 0x1000#32 = false ∧ inRegisterWindow plainPlatform 0x7FFFFFFF#32 = false ∧
      inRegisterWindow plainPlatform 0x80000000#32 = true ∧ inRegisterWindow plainPlatform 0x80003FFF#32 = true ∧
      inRegisterWindow plainPlatform 0x80004000#32 = false) ∧
    (runningCommand (load fourBytes .compress) = some .compress ∧ usesSource .compress = true ∧ usesWindow .compress = true) ∧
    (inSource fourBytes 0x1000#32 = true ∧ inSource fourBytes 0x1003#32 = true ∧ inWindow fourBytes 0x2000#32 = true ∧
      inWindow fourBytes 0x2FFF#32 = true) ∧
    (inSource fourBytes 0x0FFF#32 = false ∧ inSource fourBytes 0x1004#32 = false ∧ inWindow fourBytes 0x1FFF#32 = false ∧
      inWindow fourBytes 0x3000#32 = false) ∧
    (∀ i, runningCommand idle = some i →
      ¬ (usesSource i = true ∧ inSource idle 0x1000#32 = true) ∧ ¬ (usesWindow i = true ∧ inWindow idle 0x1000#32 = true)) ∧
    ((2 : Nat) ≠ 4 ∨ (0x010#14 : BitVec 14).toNat % 4 ≠ 0) ∧ ((4 : Nat) ≠ 4 ∨ (0x011#14 : BitVec 14).toNat % 4 ≠ 0) :=
  ⟨by decide, ⟨rfl, rfl, rfl⟩, by decide, by decide, fun i h => (by cases h), by decide, by decide⟩

theorem witness_StartedCommandEnds : (load idle .build).busy = true := rfl

theorem witness_StepKeepsInvariant : Inv idle ∧ step idle = .next idle :=
  ⟨inv_idle, step_idle (fun w h => by cases h.1) rfl⟩

end Sys2Proof.Tests
end

section
/-! PROOFS. The register window: which offset names which register, and what the registers read while a command runs, after a
write of an operand, and of the tree (O5, O13, O14, O15, O9). -/

namespace Sys2Proof.Machine

/-- BUSY and the latched word are one pair (R31). -/
theorem busy_eq_false_iff (s : State) : s.busy = false ↔ s.pend = none := by simp [State.busy]

/-! ### The map of the window (R32) -/

theorem offsetOf_freq_toNat (x : Byte) : (offsetOf (.freq x)).toNat = 0x400 + 4 * x.toNat :=
  ofNat14_toNat _ (by have := x.isLt; omega)

theorem offsetOf_codeLen_toNat (x : Byte) : (offsetOf (.codeLen x)).toNat = 0x800 + 4 * x.toNat :=
  ofNat14_toNat _ (by have := x.isLt; omega)

theorem offsetOf_codeBits_toNat (x : Byte) (w : BitVec 3) :
    (offsetOf (.codeBits x w)).toNat = 0x1000 + 0x20 * x.toNat + 4 * w.toNat :=
  ofNat14_toNat _ (by have := x.isLt; have := w.isLt; omega)

theorem offsetOf_nodeChild_toNat (j : Fin 255) : (offsetOf (.nodeChild j)).toNat = 0x3000 + 4 * j.val :=
  ofNat14_toNat _ (by have := j.isLt; omega)

theorem offsetOf_nodeWeight_toNat (j : Fin 255) : (offsetOf (.nodeWeight j)).toNat = 0x3400 + 4 * j.val :=
  ofNat14_toNat _ (by have := j.isLt; omega)

/-- The registers below 0x040 stand in the order of `lowReg`, one word each. -/
theorem offsetOf_lowReg {k : Nat} (h : k < 16) : (offsetOf (lowReg k)).toNat = 4 * k := by
  revert k
  decide

/-- Every offset of the map that is not reserved is the offset of the register that stands there. -/
theorem regAt_reserved_or_offsetOf {n : Nat} (ha : n % 4 = 0) : regAt n = .reserved ∨ (offsetOf (regAt n)).toNat = n := by
  rw [regAt]
  split
  · exact .inr ((offsetOf_lowReg (by omega)).trans (by omega))
  split
  · exact .inl rfl
  split
  · exact .inr ((offsetOf_freq_toNat _).trans (by rw [BitVec.toNat_ofNat]; omega))
  split
  · exact .inr ((offsetOf_codeLen_toNat _).trans (by rw [BitVec.toNat_ofNat]; omega))
  split
  · exact .inl rfl
  split
  · exact .inr ((offsetOf_codeBits_toNat _ _).trans (by rw [BitVec.toNat_ofNat, BitVec.toNat_ofNat]; omega))
  split
  · exact .inr ((offsetOf_nodeChild_toNat _).trans (by rw [Fin.val_ofNat]; omega))
  split
  · exact .inl rfl
  split
  · exact .inr ((offsetOf_nodeWeight_toNat _).trans (by rw [Fin.val_ofNat]; omega))
  · exact .inl rfl

theorem regOfAccess_eq_none {off : BitVec 14} {bytes : Nat} :
    regOfAccess off bytes = none ↔ bytes ≠ 4 ∨ off.toNat % 4 ≠ 0 := by
  rw [regOfAccess, ite_eq_right_iff]
  simp only [reduceCtorEq, imp_false, not_and_or, ne_eq]

theorem regOfAccess_eq_some {off : BitVec 14} {bytes : Nat} {r : Reg} :
    regOfAccess off bytes = some r ↔ (bytes = 4 ∧ off.toNat % 4 = 0) ∧ regAt off.toNat = r := by
  rw [regOfAccess, Option.ite_none_right_eq_some, Option.some.injEq]

/-- Settles O5, row by row of R32. -/
theorem windowMapNamesEachOffsetOnce : Obligations.WindowMapNamesEachOffsetOnce := by
  refine ⟨regOfAccess_offsetOf, fun off r h hr => ?_, fun off bytes => regOfAccess_eq_none.symm, regOfAccess_any _,
    by decide, fun x => ⟨offsetOf_freq_toNat x, offsetOf_codeLen_toNat x, offsetOf_codeBits_toNat x⟩,
    fun j => ⟨offsetOf_nodeChild_toNat j, offsetOf_nodeWeight_toNat j⟩⟩
  obtain ⟨⟨-, ha⟩, rfl⟩ := regOfAccess_eq_some.1 h
  exact BitVec.eq_of_toNat_eq ((regAt_reserved_or_offsetOf ha).resolve_left hr).symm

/-! ### Busy reads (R57) -/

/-- A busy read of a table, TREE_ROOT or NSYM answers a draw and takes it (R57). -/
theorem readReg_draw {s : State} {r : Reg} (hb : s.busy = true) (hr : busyReadIsDraw r = true) (hs : r ≠ .status) :
    readReg r s = (s.answer (Config.freeWord s.draws)).drawn := by
  have hv : regValue s r = Config.freeWord s.draws := by
    unfold regValue busyValue
    rw [if_pos hb]
    split
    · exact absurd rfl hs
    · exact if_pos hr
  rw [readReg, hv, hb, hr]
  rfl

/-- A busy read of STATUS answers STATUS with a draw for TREE_VALID (R57). -/
theorem hostData_readReg_status {s : State} (hb : s.busy = true) :
    (readReg .status s).hostData = statusWith s ((Config.freeWord s.draws).getLsbD 3) := by
  simp only [readReg, regValue, busyValue, hb, busyReadIsDraw, Bool.and_self, if_true, State.drawn_hostData,
    State.answer_hostData]

/-- Settles O13, by the three kinds of registers of R57: no draw, STATUS, a draw. -/
theorem busyReads : Obligations.BusyReads := by
  intro s r h hb
  obtain ⟨hdone, herr, hsub, haddr, hdata, hlen, hbits⟩ := h.busy hb
  refine ⟨readReg r s, hostStep_rd s r, fun hr => ?_, fun hr => ?_, ?_, fun hr => ?_⟩
  · simp only [List.mem_cons, List.not_mem_nil, or_false] at hr
    rcases hr with rfl | rfl | rfl | rfl | rfl | rfl | rfl <;> rw [readReg_plain (.inr rfl), State.answer_hostData]
    · exact hlen
    · exact haddr
    · exact hdata
    · rw [idleValue, hbits]
      rfl
    · rw [idleValue, hbits]
      rfl
    · rfl
    · rfl
  · have hplain : busyReadIsDraw r = false := by
      simp only [List.mem_cons, List.not_mem_nil, or_false] at hr
      rcases hr with rfl | rfl | rfl | rfl | rfl | rfl | rfl <;> rfl
    rw [readReg_plain (.inr hplain), State.answer_hostData]
  · rintro rfl
    have hst := statusWith_toNat s ((Config.freeWord s.draws).getLsbD 3)
    rw [hb, hdone, herr, hsub] at hst
    rw [hostData_readReg_status hb, hst]
    have := Bool.toNat_lt s.busyWr
    have := Bool.toNat_lt ((Config.freeWord s.draws).getLsbD 3)
    simp only [Bool.toNat_true, Bool.toNat_false, BitVec.toNat_ofNat]
    omega
  · have hdraw : busyReadIsDraw r = true ∧ r ≠ .status := by
      simp only [List.mem_cons, List.not_mem_nil, or_false] at hr
      rcases hr with (rfl | rfl) | ⟨_, rfl⟩ | ⟨_, rfl⟩ | ⟨_, _, rfl⟩ | ⟨_, rfl⟩ | ⟨_, rfl⟩ <;> exact ⟨rfl, nofun⟩
    rw [readReg_draw hb hdraw.1 hdraw.2]
    exact ⟨rfl, rfl⟩

/-! ### The code words (R52, R118) -/

/-- Bit `31 - t` of a code word is the code's bit at index `32 * w + t`, 0 past its end. -/
theorem codeWord_getLsbD (c : Code) (w : Nat) {t : Nat} (ht : t < 32) :
    (codeWord c w).getLsbD (31 - t) = c.getD (32 * w + t) false := by
  have hb := bitsValue_testBit ((List.range 32).map fun t => c.getD (32 * w + t) false) t (by simpa using ht)
  rw [List.length_map, List.length_range] at hb
  have hlt : 31 - t < 32 := by omega
  rw [codeWord, BitVec.getLsbD_ofNat, decide_eq_true hlt, Bool.true_and, hb, List.getD_eq_getElem _ _ (by simpa using ht),
    List.getElem_map, List.getElem_range]

theorem decide_and_getD (c : Code) (i : Nat) : (decide (i < c.length) && c.getD i false) = c.getD i false := by
  by_cases h : i < c.length
  · rw [decide_eq_true h, Bool.true_and]
  · rw [List.getD_eq_default _ _ (by omega), Bool.and_false]

/-- Settles O14: the value of the 32 bits of a code word, bit by bit. -/
theorem codeWordsAreLeftJustified : Obligations.CodeWordsAreLeftJustified := by
  refine ⟨fun s x w t ht => ⟨offsetOf_codeBits_toNat x w, ?_⟩, fun s x h => ?_⟩
  · rw [decide_and_getD]
    exact codeWord_getLsbD (s.code x) w.toNat ht
  · rw [idleValue, toNat_append_add, BitVec.toNat_ofNat, BitVec.toNat_ofNat]
    omega

/-! ### The tree read back (R53 to R56) -/

theorem arenaEntry_of_tree_none {s : State} (h : s.tree = none) (j : Fin 255) : arenaEntry s j = none := by
  simp only [arenaEntry, h]

theorem arenaEntry_used {s : State} {t : Tree} {j : Fin 255} (h : s.tree = some t) (hj : j.val + 1 < t.nsym.toNat) :
    arenaEntry s j = some t.arena[j] := by
  simp only [arenaEntry, h, if_pos hj]
  rfl

theorem arenaEntry_unused {s : State} {t : Tree} {j : Fin 255} (h : s.tree = some t) (hj : t.nsym.toNat ≤ j.val + 1) :
    arenaEntry s j = none := by
  simp only [arenaEntry, h, if_neg (Nat.not_lt.2 hj)]

theorem code_of_tree_none {s : State} (h : s.tree = none) (x : Byte) : s.code x = [] := by simp only [State.code, h]

theorem codeWord_nil (w : Nat) : codeWord [] w = 0#32 := by
  simp only [codeWord, List.getD_nil]
  rfl

theorem idleValue_nodeChild_none {s : State} {j : Fin 255} (h : arenaEntry s j = none) :
    idleValue s (.nodeChild j) = 0#32 := by simp only [idleValue, nodeChildWord, h]

theorem idleValue_nodeWeight_none {s : State} {j : Fin 255} (h : arenaEntry s j = none) :
    idleValue s (.nodeWeight j) = 0#32 := by simp only [idleValue, nodeWeightWord, h]

/-- The registers that read back the tree (R46, R47, R51 to R56). -/
def ShowsTree (r : Reg) : Prop :=
  r ∈ [.treeRoot, .nsym] ∨ (∃ x, r = .codeLen x) ∨ (∃ x k, r = .codeBits x k) ∨ (∃ j, r = .nodeChild j) ∨
    ∃ j, r = .nodeWeight j

theorem idleValue_of_tree_none {s : State} (h : s.tree = none) {r : Reg} (hr : ShowsTree r) : idleValue s r = 0#32 := by
  simp only [ShowsTree, List.mem_cons, List.not_mem_nil, or_false] at hr
  rcases hr with (rfl | rfl) | ⟨x, rfl⟩ | ⟨x, k, rfl⟩ | ⟨j, rfl⟩ | ⟨j, rfl⟩
  · simp only [idleValue, treeRootWord, h]
  · simp only [idleValue, nsymWord, h]
  · rw [idleValue, code_of_tree_none h]
    rfl
  · rw [idleValue, code_of_tree_none h, codeWord_nil]
  · exact idleValue_nodeChild_none (arenaEntry_of_tree_none h j)
  · exact idleValue_nodeWeight_none (arenaEntry_of_tree_none h j)

/-- The format of NODE_CHILD (R117) as a number. -/
theorem nodeChildWord_toNat {s : State} {j : Fin 255} {n : ArenaNode} (h : arenaEntry s j = some n) :
    (nodeChildWord s j).toNat = n.left.toNat + 65536 * n.right.toNat := by
  simp only [nodeChildWord, h, toNat_append_add, BitVec.toNat_ofNat]
  omega

/-- Settles O15, by whether there is a tree and whether it uses the entry. -/
theorem arenaReadBack : Obligations.ArenaReadBack := by
  refine ⟨fun j => ⟨offsetOf_nodeChild_toNat j, offsetOf_nodeWeight_toNat j⟩, fun s r h hr => idleValue_of_tree_none h hr,
    fun s t j h hj => ?_, fun s t j h hj => ?_, fun s t h => ?_⟩
  · have hn := arenaEntry_used h hj
    exact ⟨nodeChildWord_toNat hn, by simp only [idleValue, nodeWeightWord, hn]⟩
  · have hn := arenaEntry_unused h hj
    exact ⟨idleValue_nodeChild_none hn, idleValue_nodeWeight_none hn⟩
  · simp only [idleValue, treeRootWord, nsymWord, h, toNat_append_add, BitVec.toNat_ofNat]
    omega

/-! ### Operand registers (R39 to R42) -/

/-- An operand write shows in no other register. -/
theorem idleValue_setOperand_ne {s : State} {r r' : Reg} (v : Word) (h : r' ≠ r) :
    idleValue (s.setOperand r v) r' = idleValue s r' := by
  cases r with
  | srcAddr => cases r' with
    | srcAddr => exact absurd rfl h
    | _ => rfl
  | srcLen => cases r' with
    | srcLen => exact absurd rfl h
    | _ => rfl
  | dstAddr => cases r' with
    | dstAddr => exact absurd rfl h
    | _ => rfl
  | dstCap => cases r' with
    | dstCap => exact absurd rfl h
    | _ => rfl
  | _ => rfl

theorem writeReg_operand {s : State} {r : Reg} (v : Word) (hb : s.busy = false)
    (hr : r ∈ [.srcAddr, .srcLen, .dstAddr, .dstCap]) :
    writeReg r v s = .next (s.setOperand r v) ∧ idleValue (s.setOperand r v) r = v := by
  simp only [List.mem_cons, List.not_mem_nil, or_false] at hr
  rcases hr with rfl | rfl | rfl | rfl <;> exact ⟨by rw [writeReg, hb]; rfl, rfl⟩

/-- Settles O9: the write is `State.setOperand`, which no other register shows. -/
theorem operandRegistersHoldWhatIsWritten : Obligations.OperandRegistersHoldWhatIsWritten := by
  intro s r v hb hr
  obtain ⟨hw, hv⟩ := writeReg_operand v hb hr
  refine ⟨s.setOperand r v, (hostStep_wr r v).trans hw, hv, fun r' => idleValue_setOperand_ne v, ?_⟩
  obtain ⟨a, n, d, c, e⟩ := s.setOperand_frame r v
  rw [e]
  exact ⟨(busy_eq_false_iff s).1 hb, rfl, rfl⟩

end Sys2Proof.Machine
end

section
/-! PROOFS. The invariant: what a host access can do to the state, and that every update of a step keeps the invariant (O60). -/

namespace Sys2Proof.Machine

/-! ### The running command -/

theorem runningCommand_eq_some {s : State} {i : Instr} :
    runningCommand s = some i ↔ ∃ w, s.pend = some w ∧ decode w = .ok i := by
  unfold runningCommand
  cases s.pend with
  | none => simp
  | some w => cases hw : decode w <;> simp [hw]

theorem runningCommand_of_pend_none {s : State} (h : s.pend = none) : runningCommand s = none := by
  simp only [runningCommand, h]

/-! ### What a host access can do -/

/-- A reset that goes on leaves the reset block, over the memory as it was or over the spoiled window (R320, R323). -/
theorem resetStep_next {s t : State} (h : resetStep s = .next t) : ∃ u, (u = s ∨ u = s.spoilWindow) ∧ t = u.resetBlock := by
  unfold resetStep at h
  split at h
  · cases h
    exact ⟨s, .inl rfl, rfl⟩
  · obtain ⟨-, rfl⟩ := runUnlessHazard_next.1 h
    split
    · exact ⟨_, .inr rfl, rfl⟩
    · exact ⟨_, .inl rfl, rfl⟩

/-- The state `t` that a host access to `s` can go on to: the table of R156, reads (R157), other agents (R5), resets. -/
inductive HostEffect (s : State) : HostOp → State → Prop where
  | read {off : BitVec 14} {r : Reg} (ha : regOfAccess off 4 = some r) : HostEffect s (.regRead off 4) (readReg r s)
  | memRead (a : Word) : HostEffect s (.memRead a) (s.answer (0#24 ++ readMem s.mem a))
  | memWrite (a : Word) (v : Byte) : HostEffect s (.memWrite a v) (s.withMem (writeMem s.mem a v))
  | hardReset {u : State} (hu : u = s ∨ u = s.spoilWindow) : HostEffect s .hardReset u.resetBlock
  | softReset {off : BitVec 14} {v : Word} {u : State} (ha : regOfAccess off 4 = some .ctrl) (hv : v.getLsbD 1 = true)
      (hu : u = s ∨ u = s.spoilWindow) : HostEffect s (.regWrite off 4 v) u.resetBlock
  | setIe {off : BitVec 14} {v : Word} (ha : regOfAccess off 4 = some .ctrl) (hv : v.getLsbD 1 = false) :
      HostEffect s (.regWrite off 4 v) (s.setIe (v.getLsbD 0))
  | acknowledge {off : BitVec 14} (v : Word) (ha : regOfAccess off 4 = some .status) :
      HostEffect s (.regWrite off 4 v) (s.acknowledge v)
  | start {off : BitVec 14} {w : Word} (ha : regOfAccess off 4 = some .cmd) (hb : s.busy = false)
      (hfree : ∀ i, decode w = .ok i → HazardFree i s) : HostEffect s (.regWrite off 4 w) (s.start w)
  | operand {off : BitVec 14} {r : Reg} (v : Word) (ha : regOfAccess off 4 = some r) (hb : s.busy = false) :
      HostEffect s (.regWrite off 4 v) (s.setOperand r v)
  | counter {off : BitVec 14} {x : Byte} (v : Word) (ha : regOfAccess off 4 = some (.freq x)) (hb : s.busy = false) :
      HostEffect s (.regWrite off 4 v) (s.withFreq (setEntry s.freq x v))
  | lost (off : BitVec 14) (v : Word) (hb : s.busy = true) : HostEffect s (.regWrite off 4 v) s.lostWrite
  | ignored (off : BitVec 14) (v : Word) : HostEffect s (.regWrite off 4 v) s

/-- A write of an operand register or of a counter: lost while busy, done while idle (R151). -/
theorem HostEffect.of_busy_or_idle {s t u : State} {off : BitVec 14} {v : Word}
    (hidle : s.busy = false → HostEffect s (.regWrite off 4 v) u)
    (h : (Host.Outcome.next (if s.busy then s.lostWrite else u) : Host.Outcome State Fault Refusal) = .next t) :
    HostEffect s (.regWrite off 4 v) t := by
  cases h
  cases hb : s.busy with
  | true => exact .lost off v hb
  | false => exact hidle hb

/-- The table of R156, row by row. -/
theorem writeReg_next {s t : State} {off : BitVec 14} {r : Reg} {v : Word} (ha : regOfAccess off 4 = some r)
    (h : writeReg r v s = .next t) : HostEffect s (.regWrite off 4 v) t := by
  cases r with
  | ctrl =>
    cases hv : v.getLsbD 1 with
    | true =>
      rw [writeReg, if_pos hv] at h
      obtain ⟨u, hu, rfl⟩ := resetStep_next h
      exact .softReset ha hv hu
    | false =>
      rw [writeReg, if_neg (Bool.eq_false_iff.1 hv)] at h
      cases h
      exact .setIe ha hv
  | status =>
    cases h
    exact .acknowledge v ha
  | cmd =>
    cases hb : s.busy with
    | true =>
      rw [writeReg, if_pos hb] at h
      cases h
      exact .lost off v hb
    | false =>
      rw [writeReg, if_neg (Bool.eq_false_iff.1 hb)] at h
      rcases startCommand_cases v s with ⟨hfree, hs⟩ | ⟨i, hz, -, -, hs⟩ <;> rw [hs] at h <;> cases h
      exact .start ha hb hfree
  | srcAddr | srcLen | dstAddr | dstCap => exact .of_busy_or_idle (.operand v ha) h
  | freq x => exact .of_busy_or_idle (.counter v ha) h
  | _ =>
    cases h
    exact .ignored off v

/-- Everything a host access that goes on can do. -/
theorem hostStep_next {s t : State} {op : HostOp} (h : hostStep op s = .next t) : HostEffect s op t := by
  cases op with
  | regRead off bytes =>
    simp only [hostStep] at h
    split at h
    · cases h
    · next ha =>
      obtain ⟨⟨hbytes, -⟩, -⟩ := regOfAccess_eq_some.1 ha
      subst hbytes
      cases h
      exact .read ha
  | regWrite off bytes v =>
    simp only [hostStep] at h
    split at h
    · cases h
    · next ha =>
      obtain ⟨⟨hbytes, -⟩, -⟩ := regOfAccess_eq_some.1 ha
      subst hbytes
      exact writeReg_next ha h
  | memRead a =>
    simp only [hostStep, hostMemRead] at h
    split_ifs at h
    cases h
    exact .memRead a
  | memWrite a v =>
    simp only [hostStep, hostMemWrite] at h
    split_ifs at h
    cases h
    exact .memWrite a v
  | hardReset =>
    obtain ⟨u, hu, rfl⟩ := resetStep_next h
    exact .hardReset hu

/-! ### The updates of a step keep the invariant -/

/-- With no command latched the clauses of the invariant about a busy block say nothing. -/
theorem inv_of_pend_none {s : State} (hp : s.pend = none) (hm : Memory.wf s.mem) (hT : TreeMatchesFreq s)
    (he : ErrorsListed s) (hf : FailureHasNoOutput s) (hs : SuccessHasNoRecord s) : Inv s where
  memory := hm
  tree := hT
  busy hb := by rw [(busy_eq_false_iff s).2 hp] at hb; cases hb
  lastCmd w hw := by rw [hp] at hw; cases hw
  errors := he
  failure := hf
  success := hs
  hazard i hi := by rw [runningCommand_of_pend_none hp] at hi; cases hi

/-- The invariant speaks neither of CTRL.IE and BUSY_WR nor of the model's own fields, and DONE may be cleared. -/
theorem Inv.frame {s : State} (h : Inv s) {ie done busyWr : Bool} {inputs : List HostOp} {delay draws : Nat} {data : Word}
    (hd : s.done = false → done = false) :
    Inv { s with ie := ie, done := done, busyWr := busyWr, inputs := inputs, engineDelay := delay, hostData := data,
                 draws := draws } :=
  { h with busy := fun hb => ⟨hd (h.busy hb).1, (h.busy hb).2⟩ }

theorem inv_answer {s : State} (h : Inv s) (v : Word) : Inv (s.answer v) := h.frame id

theorem inv_takeInput {s : State} (h : Inv s) (rest : List HostOp) : Inv (s.takeInput rest) := h.frame id

theorem inv_acknowledge {s : State} (h : Inv s) (v : Word) : Inv (s.acknowledge v) :=
  h.frame fun hd => by rw [hd, Bool.false_and]

theorem inv_readReg {s : State} (h : Inv s) (r : Reg) : Inv (readReg r s) := by
  unfold readReg
  split
  · exact (inv_answer h _).frame id
  · exact inv_answer h _

theorem inv_withMem {s : State} (h : Inv s) {m : Memory} (hm : Memory.wf m) : Inv (s.withMem m) :=
  { h with memory := hm }

/-- A change of FREQ withdraws the tree (R53). -/
theorem inv_withFreq {s : State} (h : Inv s) (f : Table Word) : Inv (s.withFreq f) :=
  { h with tree := tmf_none rfl }

theorem inv_setOperand {s : State} (h : Inv s) (hb : s.busy = false) (r : Reg) (v : Word) : Inv (s.setOperand r v) := by
  obtain ⟨a, n, d, c, e⟩ := s.setOperand_frame r v
  rw [e]
  exact inv_of_pend_none ((busy_eq_false_iff s).1 hb) h.memory h.tree h.errors h.failure h.success

/-- A start clears the record and latches the word; its hazards were checked (R150, R339). -/
theorem inv_start {s : State} (h : Inv s) {w : Word} (hfree : ∀ i, decode w = .ok i → HazardFree i s) : Inv (s.start w) where
  memory := h.memory
  tree := h.tree
  busy _ := ⟨rfl, rfl, rfl, rfl, rfl, rfl, rfl⟩
  lastCmd v hv := by cases hv; rfl
  errors := List.mem_cons_self
  failure he := absurd rfl he
  success _ := ⟨rfl, rfl⟩
  hazard i hi := by
    obtain ⟨v, hv, hd⟩ := runningCommand_eq_some.1 hi
    cases hv
    exact hfree i hd

theorem inv_resetBlock {s : State} (hm : Memory.wf s.mem) : Inv s.resetBlock :=
  inv_of_pend_none rfl hm (tmf_none rfl) List.mem_cons_self (fun he => absurd rfl he) fun _ => ⟨rfl, rfl⟩

/-! ### Completion -/

theorem errNumber_ne_zero (c : ErrCause) : errNumber c ≠ 0#4 := by cases c <;> decide

theorem errNumber_listed (c : ErrCause) : (errNumber c, errSubNumber c) ∈ listedErrors := by cases c <;> decide

theorem inv_fail {u : State} (e : CmdError) (hm : Memory.wf u.mem) (hT : TreeMatchesFreq u) : Inv (u.fail e) :=
  inv_of_pend_none rfl hm hT (errNumber_listed e.cause) (fun _ => ⟨rfl, rfl⟩) fun h => absurd h (errNumber_ne_zero e.cause)

theorem inv_succeed {u : State} (o : Word) (b : BitVec 64) (hm : Memory.wf u.mem) (hT : TreeMatchesFreq u) :
    Inv (u.succeed o b) :=
  inv_of_pend_none rfl hm hT List.mem_cons_self (fun he => absurd rfl he) fun _ => ⟨rfl, rfl⟩

theorem inv_illegalCommand {s : State} (h : Inv s) (r : IllegalWord) (w : Word) : Inv (illegalCommand r w s) := by
  cases r with
  | unknownOpcode => exact inv_fail _ h.memory h.tree
  | reservedBits => exact inv_fail _ h.memory h.tree

/-- A command ends with canonical memory and with no tree or the one of the FREQ it leaves. -/
theorem inv_doneState {s : State} (h : Inv s) (i : Instr) : Inv (doneState i s) := by
  cases ends i s with
  | fail u e hu hw he ht hT hf =>
    rw [ht]
    exact inv_fail e (hu.mem ▸ h.memory) (hT h.tree)
  | failWindow u e hu hw he ht hT hf =>
    rw [ht]
    exact inv_fail e (wf_spoilWindow (hu.mem ▸ h.memory)) (hT h.tree)
  | ok u l k b o hu hw hk hwf ht ho hT hf =>
    rw [ht]
    exact inv_succeed o b (hk.wf h.memory) (hT h.tree)

/-! ### The invariant over a step -/

theorem inv_hostEffect {s t : State} {op : HostOp} (h : Inv s) (he : HostEffect s op t) : Inv t := by
  have hreset : ∀ u, (u = s ∨ u = s.spoilWindow) → Inv u.resetBlock := by
    rintro u (rfl | rfl)
    · exact inv_resetBlock h.memory
    · exact inv_resetBlock (wf_spoilWindow h.memory)
  cases he with
  | read ha => exact inv_readReg h _
  | memRead a => exact inv_answer h _
  | memWrite a v => exact inv_withMem h (wf_writeMem h.memory a v)
  | hardReset hu => exact hreset _ hu
  | softReset ha hv hu => exact hreset _ hu
  | setIe ha hv => exact h.frame id
  | acknowledge v ha => exact inv_acknowledge h v
  | start ha hb hfree => exact inv_start h hfree
  | operand v ha hb => exact inv_setOperand h hb _ v
  | counter v ha hb => exact inv_withFreq h _
  | lost off v hb => exact h.frame id
  | ignored off v => exact h

/-- Settles O60, by the branches of a step: a command's completion, an illegal word, a host access, or a wait. -/
theorem stepKeepsInvariant : Obligations.StepKeepsInvariant := by
  intro s t h hs
  rcases step_cases s with ⟨w, i, -, -, e⟩ | ⟨w, r, -, -, e⟩ | ⟨op, rest, -, -, e⟩ | ⟨-, -, e⟩ <;> rw [e] at hs
  · obtain ⟨-, rfl⟩ := exec_next.1 hs
    exact inv_doneState h i
  · cases hs
    exact inv_illegalCommand h r w
  · exact inv_hostEffect (inv_takeInput h rest) (hostStep_next hs)
  · cases hs
    exact h

end Sys2Proof.Machine
end

section
/-! PROOFS. Reset and the counters: what a reset leaves (O59, O54), and which steps change FREQ (O52). -/

namespace Sys2Proof.Machine

/-! ### Reset -/

/-- The state after reset is a reset block, its counters draw 0. -/
theorem reset_eq_resetBlock : State.reset = { State.reset with draws := 0 }.resetBlock := rfl

/-- Settles O59: a reset block over the empty memory meets the invariant. -/
theorem resetMeetsInvariant : Obligations.ResetMeetsInvariant := by
  rw [Obligations.ResetMeetsInvariant, reset_eq_resetBlock]
  exact inv_resetBlock wf_reset

/-- Every register but ID, VERSION and the counters reads 0 after a reset (R63). -/
theorem idleValue_resetBlock (u : State) (r : Reg) (hid : r ≠ .id) (hver : r ≠ .version) (hfreq : ∀ x, r ≠ .freq x) :
    idleValue u.resetBlock r = 0#32 := by
  cases r with
  | id => exact absurd rfl hid
  | version => exact absurd rfl hver
  | freq x => exact absurd rfl (hfreq x)
  | treeRoot | nsym | codeLen | codeBits | nodeChild | nodeWeight =>
    exact idleValue_of_tree_none rfl (by simp [ShowsTree])
  | ctrl => exact show (0#30 ++ 0#1 ++ BitVec.ofBool false : Word) = 0#32 by decide
  | status => exact BitVec.eq_of_toNat_eq (statusWith_toNat u.resetBlock false)
  | bitsHi => exact show (0#64).extractLsb' 32 32 = 0#32 by decide
  | _ => rfl

theorem resetStep_completes {s : State} (h : s.busy = false ∨ RunningIsHazardFree s) : ∃ t, resetStep s = .next t := by
  unfold resetStep
  cases hr : runningCommand s with
  | none => exact ⟨_, rfl⟩
  | some i =>
    rcases h with hb | hfree
    · rw [runningCommand_of_pend_none ((busy_eq_false_iff s).1 hb)] at hr
      cases hr
    · exact ⟨_, runUnlessHazard_of_free (hfree i hr)⟩

/-- Settles O54: a reset leaves a reset block, whatever it did to the window. -/
theorem resetState : Obligations.ResetState := by
  refine ⟨fun s t h => ?_, fun s v hv => ?_, fun s => resetStep_completes, rfl, rfl, rfl, fun r h1 h2 h3 => ?_⟩
  · obtain ⟨u, hu, rfl⟩ := resetStep_next h
    have hu' : s.draws ≤ u.draws ∧ u.platform = s.platform ∧ u.inputs = s.inputs := by
      rcases hu with rfl | rfl
      · exact ⟨le_rfl, rfl, rfl⟩
      · exact ⟨Nat.le_succ _, rfl, rfl⟩
    obtain ⟨hdraws, hplat, hinputs⟩ := hu'
    refine ⟨rfl, rfl, idleValue_resetBlock u, rfl, rfl, rfl, ⟨u.draws, hdraws, Nat.lt_succ_self _, fun x => ?_⟩, hplat,
      hinputs⟩
    rw [State.resetBlock_freq, entry_tabulate]
  · rw [hostStep_wr, writeReg, if_pos hv]
    rfl
  · rw [reset_eq_resetBlock]
    exact idleValue_resetBlock _ r h1 h2 h3

/-! ### The counters -/

/-- The decoder accepts the seven command words only (R111). -/
theorem eq_encode_of_decode_ok {w : Word} {i : Instr} (h : decode w = .ok i) : w = encode i := by
  unfold decode at h
  split at h
  · cases h
  · next j hj =>
    split_ifs at h with hrsv
    cases h
    have hopc := (commandOfOpc_eq_some _ _).1 hj
    apply BitVec.eq_of_toNat_eq
    rw [encode, toNat_append_add, ← hopc, opcField_toNat]
    have := (rsvField_eq_zero w).1 hrsv
    simp only [BitVec.toNat_ofNat]
    omega

theorem doneState_freq {i : Instr} (hi : i = .build ∨ i = .encode) (s : State) : (doneState i s).freq = s.freq := by
  cases ends i s with
  | fail u e hu hw he ht hT hf => rw [ht, State.fail_freq, hf hi]
  | failWindow u e hu hw he ht hT hf => rw [ht]; exact hf hi
  | ok u l k b o hu hw hk hwf ht ho hT hf => rw [ht, State.succeed_freq, State.withMem_freq, hf hi]

theorem illegalCommand_freq (r : IllegalWord) (w : Word) (s : State) : (illegalCommand r w s).freq = s.freq := by
  cases r <;> rfl

theorem readReg_freq (r : Reg) (s : State) : (readReg r s).freq = s.freq := by
  unfold readReg
  split <;> rfl

theorem setOperand_freq (s : State) (r : Reg) (v : Word) : (s.setOperand r v).freq = s.freq := by
  obtain ⟨a, n, d, c, e⟩ := s.setOperand_frame r v
  rw [e]

/-- A host access that changes FREQ is a reset or a write of a counter while idle. -/
theorem HostEffect.freq_changed {s t : State} {op : HostOp} (he : HostEffect s op t) (hf : t.freq ≠ s.freq) :
    op = .hardReset ∨ (∃ off v, op = .regWrite off 4 v ∧ regOfAccess off 4 = some .ctrl ∧ v.getLsbD 1 = true) ∨
      (s.busy = false ∧ ∃ off v x, op = .regWrite off 4 v ∧ regOfAccess off 4 = some (.freq x)) := by
  cases he with
  | read ha => exact absurd (readReg_freq _ s) hf
  | operand v ha hb => exact absurd (setOperand_freq s _ v) hf
  | hardReset hu => exact .inl rfl
  | softReset ha hv hu => exact .inr (.inl ⟨_, _, rfl, ha, hv⟩)
  | counter v ha hb => exact .inr (.inr ⟨hb, _, v, _, rfl, ha⟩)
  | memRead | memWrite | setIe | acknowledge | start | lost | ignored => exact absurd rfl hf

/-- Settles O52: of the commands BUILD and ENCODE keep FREQ, of the host accesses all but three kinds. -/
theorem onlyTheseStepsChangeCounters : Obligations.OnlyTheseStepsChangeCounters := by
  intro s t hs hf
  rcases step_cases s with ⟨w, i, hd, hw, e⟩ | ⟨w, r, -, -, e⟩ | ⟨op, rest, hn, hi, e⟩ | ⟨-, -, e⟩ <;> rw [e] at hs
  · obtain ⟨-, rfl⟩ := exec_next.1 hs
    refine .inl ⟨i, eq_encode_of_decode_ok hw ▸ hd, ?_⟩
    cases i with
    | build => exact absurd (doneState_freq (.inl rfl) s) hf
    | encode => exact absurd (doneState_freq (.inr rfl) s) hf
    | freqClear | freqCount | freqAccum | compress | decode => decide
  · cases hs
    exact absurd (illegalCommand_freq r w s) hf
  · exact .inr ⟨hn, op, rest, hi, (hostStep_next hs).freq_changed hf⟩
  · cases hs
    exact absurd rfl hf

end Sys2Proof.Machine
end

section
/-! PROOFS. Memory: what the end of a command leaves of the bytes outside and inside its window (O50). -/

namespace Sys2Proof.Machine

/-! ### The window of a command -/

/-- The commands without a window are the four that write no memory (R86, R177). -/
theorem usesWindow_eq_false_iff {i : Instr} :
    usesWindow i = false ↔ i ∈ [.freqClear, .freqCount, .freqAccum, .build] := by cases i <;> decide

theorem usesWindow_eq_true_iff {i : Instr} : usesWindow i = true ↔ i ∈ [.encode, .compress, .decode] := by
  cases i <;> decide

theorem Pre.inWindow_eq {s u : State} (hu : Pre s u) (a : Word) : inWindow u a = inWindow s a := by
  unfold inWindow
  rw [hu.ck.dstAddr, hu.ck.dstCap]

/-! ### What the end of a command leaves in memory -/

section
variable {i : Instr} {s t : State}

theorem Ends.memKept (h : Ends i s t) : MemoryKeptOutsideWindow s t := by
  cases h with
  | fail u e hu hw he ht hT hf => exact memKept_refl (by rw [ht, State.fail_mem, hu.mem])
  | failWindow u e hu hw he ht hT hf => rw [ht]; exact memKept_pre hu e
  | ok u l k b o hu hw hk hwf ht ho hT hf =>
    have hmem : t.mem = k.mem := by rw [ht, State.succeed_mem, State.withMem_mem]
    by_cases hl : l = []
    · subst hl
      intro a _
      rw [hmem]
      exact hk.outside a fun j hj => absurd hj (Nat.not_lt_zero j)
    · exact memKept_sink (hwf hl) hk t hmem

theorem Ends.mem_eq (h : Ends i s t) (hi : usesWindow i = false) : t.mem = s.mem := by
  cases h with
  | fail u e hu hw he ht hT hf => rw [ht, State.fail_mem, hu.mem]
  | failWindow u e hu hw he ht hT hf => exact absurd (hi.symm.trans hw) Bool.false_ne_true
  | ok u l k b o hu hw hk hwf ht ho hT hf => rw [ht, State.succeed_mem, State.withMem_mem, (hw hi).2]

/-- A success wrote the first OUT_LEN bytes of the window and no other (R226, R262). -/
theorem Ends.memKeptPast (h : Ends i s t) (herr : t.err = 0#4) : MemoryKeptPast s t t.outLen.toNat := by
  cases h with
  | fail u e hu hw he ht hT hf =>
    rw [ht, State.fail_err] at herr
    exact absurd herr (errNumber_ne_zero e.cause)
  | failWindow u e hu hw he ht hT hf =>
    rw [ht] at herr
    exact absurd herr failWindow_err
  | ok u l k b o hu hw hk hwf ht ho hT hf =>
    have hout : t.outLen.toNat = l.length := by rw [ht, State.succeed_outLen, ho]
    rw [hout]
    exact memoryKeptPast_of hk t (by rw [ht, State.succeed_mem, State.withMem_mem])

/-- A failure of a command with a window takes draw number `s.draws` for each writable byte of it (R88, R159). -/
theorem Ends.window_drawn (h : Ends i s t) (herr : t.err ≠ 0#4) (hi : usesWindow i = true) :
    t.draws = s.draws + 1 ∧ ∀ a, inWindow s a = true → memWOk s.platform a = true →
      readMem t.mem a = Config.freeByte s.draws a := by
  cases h with
  | fail u e hu hw he ht hT hf => exact absurd (hw.symm.trans hi) Bool.false_ne_true
  | failWindow u e hu hw he ht hT hf =>
    subst ht
    refine ⟨?_, fun a hin hwok => ?_⟩
    · rw [State.failWindow, State.fail_draws, State.spoilWindow_draws, hu.draws]
    · rw [← hu.inWindow_eq] at hin
      rw [← hu.ck.platform] at hwok
      rw [State.failWindow, State.fail_mem, readMem_spoilWindow, if_pos ⟨hin, hwok⟩, hu.draws]
  | ok u l k b o hu hw hk hwf ht ho hT hf => exact absurd (by rw [ht, State.succeed_err]) herr

end

/-- Settles O50, by what a command can end in: a failure without a window, a spoiled window, or a written front of it. -/
theorem commandsWriteOnlyTheirWindow : Obligations.CommandsWriteOnlyTheirWindow := by
  intro i s t hs
  obtain ⟨-, rfl⟩ := exec_next.1 hs
  have h := ends i s
  refine ⟨h.memKept, fun hi => h.mem_eq (usesWindow_eq_false_iff.2 hi), h.memKeptPast, fun herr hi => ?_⟩
  obtain ⟨hdraws, hbytes⟩ := h.window_drawn herr (usesWindow_eq_true_iff.2 hi)
  exact ⟨s.draws, le_rfl, by omega, hbytes⟩

end Sys2Proof.Machine
end

section
/-! PROOFS. The formats (spec/30_encoding.md): the decoder on every word, STATUS and CTRL, and the container byte by byte
(O2, O3, O4, O12, O31). -/

namespace Sys2Proof.Machine

/-! ### The command word (R110 to R114) -/

theorem opcField_encode (i : Instr) : opcField (encode i) = opcOf i := by
  have := (opcOf i).isLt
  rw [← BitVec.toNat_inj, opcField_toNat, encode, toNat_append_add, BitVec.toNat_ofNat]
  omega

theorem rsvField_encode (i : Instr) : rsvField (encode i) = 0#24 := by
  have := (opcOf i).isLt
  rw [rsvField_eq_zero, encode, toNat_append_add, BitVec.toNat_ofNat]
  omega

theorem decode_encode (i : Instr) : decode (encode i) = .ok i := by
  simp only [decode, opcField_encode, rsvField_encode, (commandOfOpc_eq_some _ i).2 rfl, if_true]

/-- A table row holds the word itself, so the decoder of the table reads the same command. -/
theorem decodeTableWord_encode (i : Instr) : decodeTableWord 32 (encode i).toNat = some i := by
  simp only [decodeTableWord, Nat.mod_eq_of_lt (encode i).isLt, BitVec.ofNat_toNat, BitVec.setWidth_eq, decode_encode]

theorem decode_ok_iff (w : Word) (i : Instr) : decode w = .ok i ↔ w = encode i :=
  ⟨eq_encode_of_decode_ok, fun h => h ▸ decode_encode i⟩

/-- The two checks of R154 in their order, by the fields of the word as numbers. -/
theorem decode_cases (w : Word) :
    ((w.toNat % 256 = 0 ∨ 8 ≤ w.toNat % 256) ∧ decode w = .error .unknownOpcode) ∨
    ((1 ≤ w.toNat % 256 ∧ w.toNat % 256 ≤ 7) ∧ w.toNat / 256 ≠ 0 ∧ decode w = .error .reservedBits) ∨
    ((1 ≤ w.toNat % 256 ∧ w.toNat % 256 ≤ 7) ∧ w.toNat / 256 = 0 ∧ ∃ i, decode w = .ok i) := by
  have hnone := commandOfOpc_eq_none (opcField w)
  rw [opcField_toNat] at hnone
  cases hc : commandOfOpc (opcField w) with
  | none => exact .inl ⟨hnone.1 hc, by rw [decode, hc]⟩
  | some i =>
    have hopc : ¬ (w.toNat % 256 = 0 ∨ 8 ≤ w.toNat % 256) := fun h => by simp [hnone.2 h] at hc
    have hbounds : 1 ≤ w.toNat % 256 ∧ w.toNat % 256 ≤ 7 := by omega
    by_cases hr : rsvField w = 0#24
    · exact .inr (.inr ⟨hbounds, (rsvField_eq_zero w).1 hr, i, by simp only [decode, hc, if_pos hr]⟩)
    · exact .inr (.inl ⟨hbounds, mt (rsvField_eq_zero w).2 hr, by simp only [decode, hc, if_neg hr]⟩)

/-- The check of R111, by the fields of the word as numbers. -/
theorem legalWord_iff (w : Word) :
    legalWord w = true ↔ (1 ≤ w.toNat % 256 ∧ w.toNat % 256 ≤ 7) ∧ w.toNat / 256 = 0 := by
  rw [legalWord, Bool.and_eq_true, decide_eq_true_eq, decide_eq_true_eq, rsvField_eq_zero, opcField_toNat, and_comm]

/-- Settles O2: the three cases of the decoder exclude each other by the fields. -/
theorem everyWordIsACommandOrIllegal : Obligations.EveryWordIsACommandOrIllegal := by
  refine ⟨decode_ok_iff, fun w => ?_, fun w => ?_, fun w => ?_⟩
  · rcases decode_cases w with ⟨ho, h⟩ | ⟨ho, hr, h⟩ | ⟨ho, hr, i, h⟩ <;> simp [h] <;> omega
  · rcases decode_cases w with ⟨ho, h⟩ | ⟨ho, hr, h⟩ | ⟨ho, hr, i, h⟩ <;> simp [h] <;> omega
  · rw [legalWord_iff]
    rcases decode_cases w with ⟨ho, h⟩ | ⟨ho, hr, h⟩ | ⟨ho, hr, i, h⟩ <;> simp [h] <;> omega

/-- Settles O3: the seven numbers are the words of the seven commands. -/
theorem commandWordsDecode : Obligations.CommandWordsDecode :=
  ⟨decode_encode .freqClear, decode_encode .freqCount, decode_encode .freqAccum, decode_encode .build,
    decode_encode .encode, decode_encode .compress, decode_encode .decode⟩

/-- Settles O4, from the fields of the encoded word. -/
theorem decodeAfterEncode : Obligations.DecodeAfterEncode :=
  fun i _ => ⟨decode_encode i, decodeTableWord_encode i⟩

/-! ### STATUS and CTRL (R115) -/

theorem ctrl_toNat (s : State) : s.ctrl.toNat = s.ie.toNat := by
  simp only [State.ctrl, toNat_append_add, ofBool_toNat, BitVec.toNat_ofNat]
  omega

/-- Settles O12: both words are the weighted sums of their fields. -/
theorem statusAndControlFormats : Obligations.StatusAndControlFormats := by
  refine ⟨ctrl_toNat, fun s => statusWith_toNat s s.treeValid, fun s hbusy hdone hwr htree herr hsub hcmd => ?_⟩
  apply BitVec.eq_of_toNat_eq
  rw [State.status, statusWith_toNat, hbusy, hdone, hwr, htree, herr, hsub, hcmd]
  rfl

/-! ### The container (R125 to R131) -/

/-- Zeros that fill the last byte leave the payload bytes as they are (R131). -/
theorem packBits_append_replicate (bits : Code) (k : Nat) (h : ceil8 (bits.length + k) = ceil8 bits.length) :
    packBits (bits ++ List.replicate k false) = packBits bits := by
  have hget : ∀ i, (bits ++ List.replicate k false).getD i false = bits.getD i false := by
    intro i
    by_cases hi : i < bits.length
    · exact List.getD_append _ _ _ _ hi
    · rw [List.getD_append_right _ _ _ _ (by omega), List.getD_eq_getElem?_getD,
        List.getElem?_getD_replicate_default_eq, List.getD_eq_default _ _ (by omega)]
  simp only [packBits, List.length_append, List.length_replicate, h, hget]

/-- The bits past the last one in the final byte are 0 (R131). -/
theorem streamBit_packBits_filler (bits : Code) (i : Nat) (hge : bits.length ≤ i) (hlt : i < 8 * ceil8 bits.length) :
    streamBit ((packBits bits).getD (i / 8) 0#8) (i % 8) = false := by
  have hfill : ceil8 (bits.length + (i + 1 - bits.length)) = ceil8 bits.length := by
    unfold ceil8 at hlt ⊢
    omega
  rw [← packBits_append_replicate bits _ hfill, streamBit_packBits _ _ (by simp; omega),
    List.getD_append_right _ _ _ _ hge, List.getD_replicate _ (by omega)]

theorem getD_container_payload (n : Word) (f : Table Word) (code : Byte → Code) (src : List Byte) (q : Nat) :
    (container n f code src).getD (1028 + q) 0#8 = (packBits (sourceBits code src)).getD q 0#8 :=
  getD_append_add (length_headerBytes n f) q

theorem length_container (n : Word) (f : Table Word) (code : Byte → Code) (src : List Byte) :
    (container n f code src).length = 1028 + ceil8 (sourceBits code src).length := by
  rw [container, List.length_append, length_headerBytes, length_packBits]

/-- Settles O31: the header read back, and the packed bits and their filler behind it. -/
theorem containerLayout : Obligations.ContainerLayout := by
  intro n f code src
  refine ⟨length_container n f code src, header_count n f _, header_freq n f _, fun i hi => ?_, fun i hge hlt => ?_⟩
  · rw [getD_container_payload]
    exact streamBit_packBits _ i hi
  · rw [getD_container_payload]
    exact streamBit_packBits_filler _ i hge hlt

end Sys2Proof.Machine
end

section
/-! PROOFS. The command interface (spec/40_command_interface.md): whose turn a step is, the start and the end of a command,
illegal words, and what host writes and reads do (O1, O7, O6, O49, O8, O11). -/

namespace Sys2Proof.Machine

/-! ### Steps and starts (R150, R152) -/

/-- The word `withFetchWord` loads is latched, with no delay left. -/
theorem due_withFetchWord (s : State) (w : Word) : Due (s.withFetchWord 32 w.toNat) w := by
  have hw : (s.withFetchWord 32 w.toNat).pend = some w := by
    simp only [State.withFetchWord, State.startWith_pend, Nat.mod_eq_of_lt w.isLt, BitVec.ofNat_toNat, BitVec.setWidth_eq]
  exact ⟨hw, .inl rfl⟩

/-- Settles O1: each clause is one case of a step. -/
theorem stepRunsDecodedCommand : Obligations.StepRunsDecodedCommand := by
  refine ⟨fun s w i hd hw => ?_, fun s w r hd hw => ?_, fun s op rest => step_host, fun s => step_idle,
    fun s i => due_withFetchWord s (encode i)⟩
  · rw [step_due hd, hw]
  · rw [step_due hd, hw]

/-- A host write that reaches a register is the write of that register (R156). -/
theorem hostStep_regWrite {off : BitVec 14} {r : Reg} (h : regOfAccess off 4 = some r) (v : Word) (s : State) :
    hostStep (.regWrite off 4 v) s = writeReg r v s := by
  simp only [hostStep, h]

/-- A write to CMD while idle starts the word where it is illegal or its command breaks no hazard rule. -/
theorem startCommand_of_free {s : State} {w : Word} (h : ∀ i, decode w = .ok i → HazardFree i s) :
    startCommand w s = .next (s.start w) := by
  rcases startCommand_cases w s with ⟨-, hs⟩ | ⟨i, hz, hw, hbad, -⟩
  · exact hs
  · exact absurd ((h i hw).symm.trans hbad) nofun

/-- Settles O7: the write is `State.start`. -/
theorem commandStart : Obligations.CommandStart := by
  intro s w hb hfree
  have hstart : writeReg .cmd w s = .next (s.start w) := by
    rw [writeReg, if_neg (Bool.eq_false_iff.1 hb), startCommand_of_free hfree]
  have hirq : (s.start w).irq = false := Bool.and_false s.ie
  exact ⟨s.start w, (hostStep_wr .cmd w).trans hstart, rfl, rfl, hirq, rfl, rfl, rfl, rfl, rfl, rfl, rfl, rfl, rfl, rfl, ⟨rfl, rfl⟩, rfl, rfl, rfl,
    rfl, rfl, rfl, rfl, rfl⟩

/-! ### Illegal words (R154) -/

/-- The cause an illegal word is reported with, by its OPC as a number (R112, R154). -/
theorem illegalCommand_of_not_legal {w : Word} (h : legalWord w = false) (s : State) :
    ∃ r, decode w = .error r ∧ illegalCommand r w s =
      s.fail ⟨if 1 ≤ w.toNat % 256 ∧ w.toNat % 256 ≤ 7 then .reservedBits else .unknownOpcode, 0#32, w⟩ := by
  rcases decode_cases w with ⟨ho, hd⟩ | ⟨ho, -, hd⟩ | ⟨ho, hr, -⟩
  · exact ⟨_, hd, by rw [if_neg (by omega)]; rfl⟩
  · exact ⟨_, hd, by rw [if_pos ho]; rfl⟩
  · rw [(legalWord_iff w).2 ⟨ho, hr⟩] at h
    cases h

/-- STATUS after an error, as a number: DONE, the error's two numbers, and what the error keeps (R115, R285). -/
theorem status_fail_toNat (s : State) (e : CmdError) :
    (s.fail e).status.toNat = 2 + 4 * s.busyWr.toNat + 8 * s.treeValid.toNat + 256 * (errNumber e.cause).toNat +
      4096 * (errSubNumber e.cause).toNat + 65536 * s.lastCmd.toNat := by
  rw [State.status, statusWith_toNat, State.fail_busy, State.fail_done, State.fail_busyWr, State.fail_treeValid,
    State.fail_err, State.fail_errSub, State.fail_lastCmd, Bool.toNat_true, Bool.toNat_false]

/-- Settles O6: the step is `State.fail` with the cause the fields of the word give. -/
theorem illegalWordOnlyReports : Obligations.IllegalWordOnlyReports := by
  intro s w hd hw
  obtain ⟨r, hdec, hill⟩ := illegalCommand_of_not_legal hw s
  refine ⟨_, by rw [step_due hd, hdec], ?_⟩
  rw [hill]
  refine ⟨completedWith_fail s _, ?_, fun hl => hl w hd.1, ⟨rfl, rfl⟩, rfl, controlKept_fail s _, ?_⟩
  · rw [State.fail_err]
    split <;> rfl
  · rintro hl rfl htree hwr
    have hcause : ¬ (1 ≤ (0x000000FF#32).toNat % 256 ∧ (0x000000FF#32).toNat % 256 ≤ 7) := by decide
    have hcmd : s.lastCmd = 0xFF#8 := hl _ hd.1
    apply BitVec.eq_of_toNat_eq
    rw [if_neg hcause, status_fail_toNat, htree, hwr, hcmd, errNumber, errSubNumber]
    simp only [Bool.toNat_false, BitVec.toNat_ofNat]

/-! ### Completion (R152, R285) -/

/-- Settles O49, by what a command can end in: `State.fail`, with or without a spoiled window, or `State.succeed`. -/
theorem commandEndsInCompletion : Obligations.CommandEndsInCompletion := by
  intro i s t hs
  obtain ⟨-, rfl⟩ := exec_next.1 hs
  cases ends i s with
  | fail u e hu hw he ht hT hf =>
    rw [ht]
    exact ⟨rfl, rfl, (Bool.and_true u.ie).trans hu.ck.ie, hu.ck.trans (controlKept_fail u e), fun _ => ⟨rfl, rfl⟩,
      fun h => absurd h (errNumber_ne_zero e.cause)⟩
  | failWindow u e hu hw he ht hT hf =>
    rw [ht]
    exact ⟨rfl, rfl, (Bool.and_true u.ie).trans hu.ck.ie, hu.ck.trans (controlKept_failWindow u e), fun _ => ⟨rfl, rfl⟩,
      fun h => absurd h failWindow_err⟩
  | ok u l k b o hu hw hk hwf ht ho hT hf =>
    rw [ht]
    exact ⟨rfl, rfl, (Bool.and_true u.ie).trans hu.ck.ie,
      (hu.ck.trans (controlKept_withMem u k.mem)).trans (controlKept_succeed _ o b), fun h => absurd rfl h,
      fun _ => ⟨rfl, rfl, rfl⟩⟩

/-! ### Host writes (R151, R156) -/

/-- A write while busy to CMD, an operand register or a counter is lost (R151). -/
theorem writeReg_busy {s : State} {r : Reg} (v : Word) (hb : s.busy = true)
    (hr : r ∈ [.cmd, .srcAddr, .srcLen, .dstAddr, .dstCap] ∨ ∃ x, r = .freq x) :
    writeReg r v s = .next s.lostWrite := by
  simp only [List.mem_cons, List.not_mem_nil, or_false] at hr
  rcases hr with (rfl | rfl | rfl | rfl | rfl) | ⟨x, rfl⟩ <;> rw [writeReg, if_pos hb]

/-- A write of a read-only or reserved register changes nothing (R156). -/
theorem writeReg_readOnly {r : Reg} (v : Word) (s : State)
    (hr : r ∈ [.id, .version, .outLen, .errAddr, .errData, .treeRoot, .nsym, .bitsLo, .bitsHi, .reserved] ∨
      (∃ x, r = .codeLen x) ∨ (∃ x k, r = .codeBits x k) ∨ (∃ j, r = .nodeChild j) ∨ ∃ j, r = .nodeWeight j) :
    writeReg r v s = .next s := by
  simp only [List.mem_cons, List.not_mem_nil, or_false] at hr
  rcases hr with (rfl | rfl | rfl | rfl | rfl | rfl | rfl | rfl | rfl | rfl) | ⟨x, rfl⟩ | ⟨x, k, rfl⟩ | ⟨j, rfl⟩ |
    ⟨j, rfl⟩ <;> rfl

/-- Settles O8, by the rows of R156: lost, ignored, CTRL without and with its reset bit, STATUS. -/
theorem writeWhileBusy : Obligations.WriteWhileBusy := by
  obtain ⟨-, hsoft, -⟩ := resetState
  refine ⟨fun s r v hb hr => ?_, fun s off r v ha hr => ?_, fun s v hv => ?_, hsoft, fun s v => ?_⟩
  · rw [hostStep_wr, writeReg_busy v hb hr]
    rfl
  · rw [hostStep_regWrite ha, writeReg_readOnly v s hr]
  · rw [hostStep_wr, writeReg, if_neg (Bool.eq_false_iff.1 hv)]
    rfl
  · rw [hostStep_wr]
    rfl

/-! ### Host reads (R157) -/

/-- A read changes the bus value and the count of draws, and the count only while busy. -/
theorem readReg_frame (r : Reg) (s : State) :
    { readReg r s with hostData := s.hostData, draws := s.draws } = s ∧ (s.busy = false → (readReg r s).draws = s.draws) := by
  unfold readReg
  cases hb : s.busy && busyReadIsDraw r with
  | true =>
    refine ⟨rfl, fun h => ?_⟩
    rw [h, Bool.false_and] at hb
    cases hb
  | false => exact ⟨rfl, fun _ => rfl⟩

/-- An aligned read while idle, or of a register that R57 does not name, puts the idle value of the register on the bus. -/
theorem hostStep_read_plain {s : State} {off : BitVec 14} {r : Reg} (ha : regOfAccess off 4 = some r)
    (h : s.busy = false ∨ busyReadIsDraw r = false) :
    hostStep (.regRead off 4) s = .next { s with hostData := idleValue s r } := by
  simp only [hostStep, ha, readReg_plain h]
  rfl

/-- BITS is its two halves, BITS_HI above BITS_LO (R48). -/
theorem bits_toNat_halves (b : BitVec 64) :
    b.toNat = (b.extractLsb' 0 32).toNat + 2 ^ 32 * (b.extractLsb' 32 32).toNat := by
  have := b.isLt
  simp only [BitVec.extractLsb'_toNat, Nat.shiftRight_eq_div_pow]
  omega

/-- Settles O11: an answered read is `readReg`, which answers the idle value where it takes no draw. -/
theorem readsChangeNothing : Obligations.ReadsChangeNothing := by
  refine ⟨fun s t off bytes h => ?_, fun s off ha => ⟨_, hostStep_read s ha⟩, fun s => ?_, fun s off ha hr => ?_,
    fun s hb => ?_, fun s x off hb ho => ?_⟩
  · cases hostStep_next h with
    | read ha =>
      obtain ⟨hframe, hdraws⟩ := readReg_frame _ s
      exact ⟨hframe, hdraws, _, ha, fun hb => by rw [readReg_plain (.inl hb), State.answer_hostData]⟩
  · exact ⟨hostStep_read_plain (regOfAccess_any .id) (.inr rfl), hostStep_read_plain (regOfAccess_any .version) (.inr rfl),
      hostStep_read_plain (regOfAccess_any .cmd) (.inr rfl)⟩
  · have hres : regOfAccess off 4 = some .reserved := by
      rw [regOfAccess_aligned ha, regAt_reserved (by omega)]
    exact hostStep_read_plain hres (.inr rfl)
  · have hread : ∀ r, hostStep (.regRead (offsetOf r) 4) s = .next { s with hostData := idleValue s r } :=
      fun r => hostStep_read_plain (regOfAccess_any r) (.inl hb)
    exact ⟨hread .srcAddr, hread .srcLen, hread .dstAddr, hread .dstCap, hread .outLen, hread .errAddr, hread .errData,
      _, _, hread .bitsLo, hread .bitsHi, bits_toNat_halves s.bits⟩
  · have hoff : off = offsetOf (.freq x) := BitVec.eq_of_toNat_eq (ho.trans (offsetOf_freq_toNat x).symm)
    subst hoff
    exact hostStep_read_plain (regOfAccess_any (.freq x)) (.inl hb)

end Sys2Proof.Machine
end

section
/-! PROOFS. A command on another memory with the same source bytes (R153, R86): it reads no byte outside its source range, so
it ends alike and writes alike (O51). -/

namespace Sys2Proof.Machine

/-! ### Two runs that write alike -/

/-- From `x₀` and from `y₀` the same writes led to `x` and to `y`: a byte is the same in both, or as it was in both. -/
def WroteAlike (x₀ y₀ x y : Memory) : Prop :=
  ∀ a, readMem y a = readMem x a ∨ (readMem y a = readMem y₀ a ∧ readMem x a = readMem x₀ a)

theorem wroteAlike_refl (x₀ y₀ : Memory) : WroteAlike x₀ y₀ x₀ y₀ := fun _ => .inr ⟨rfl, rfl⟩

/-- Two runs of a stage end in the same error, or in results that `R` relates. -/
inductive StopAlike {α : Type} (R : α → α → Prop) : Except CmdError α → Except CmdError α → Prop where
  | error (e : CmdError) : StopAlike R (.error e) (.error e)
  | ok {a b : α} (h : R a b) : StopAlike R (.ok a) (.ok b)

/-- Two runs of a command end in the same state but for memory, and wrote alike. -/
structure EndAlike (x₀ y₀ : Memory) (t t' : State) : Prop where
  state  : t'.withMem t.mem = t
  memory : WroteAlike x₀ y₀ t.mem t'.mem

section
variable {x₀ y₀ x y : Memory}

theorem WroteAlike.writeMem (h : WroteAlike x₀ y₀ x y) (a : Word) (v : Byte) :
    WroteAlike x₀ y₀ (writeMem x a v) (writeMem y a v) := by
  intro b
  rw [readMem_writeMem, readMem_writeMem]
  split
  · exact .inl rfl
  · exact h b

theorem endAlike_succeed (h : WroteAlike x₀ y₀ x y) (u : State) (o : Word) (b : BitVec 64) :
    EndAlike x₀ y₀ ((u.withMem x).succeed o b) ((u.withMem y).succeed o b) := ⟨rfl, h⟩

end

/-- A command that writes no memory leaves both memories alone. -/
theorem endAlike_withMem {t : State} {x₀ : Memory} (h : t.mem = x₀) (m : Memory) : EndAlike x₀ m t (t.withMem m) :=
  ⟨rfl, by rw [h]; exact wroteAlike_refl x₀ m⟩

/-- Two failed runs draw the same bytes in the window (R88, R159). -/
theorem endAlike_failWindow (u : State) (m : Memory) (e : CmdError) :
    EndAlike u.mem m (u.failWindow e) ((u.withMem m).failWindow e) := by
  refine ⟨rfl, fun a => ?_⟩
  show readMem (u.withMem m).spoilWindow.mem a = readMem u.spoilWindow.mem a ∨
    (readMem (u.withMem m).spoilWindow.mem a = _ ∧ readMem u.spoilWindow.mem a = _)
  rw [readMem_spoilWindow, readMem_spoilWindow]
  by_cases h : inWindow u a = true ∧ memWOk u.platform a = true
  · rw [if_pos h]
    exact .inl (if_pos h)
  · rw [if_neg h]
    exact .inr ⟨if_neg h, rfl⟩

/-! ### Reads of the source -/

/-- `m` holds the bytes of the source range of `s`. -/
def SourceAgrees (s : State) (m : Memory) : Prop :=
  ∀ k, k < s.srcLen.toNat → readMem m (s.srcAddr + BitVec.ofNat 32 k) = readMem s.mem (s.srcAddr + BitVec.ofNat 32 k)

theorem inSource_addr {s : State} (hf : SourceFits s) {k : Nat} (hk : k < s.srcLen.toNat) :
    inSource s (s.srcAddr + BitVec.ofNat 32 k) = true := by
  unfold SourceFits at hf
  have := s.srcLen.isLt
  have e : (s.srcAddr + BitVec.ofNat 32 k).toNat = s.srcAddr.toNat + k := by
    rw [BitVec.toNat_add, BitVec.toNat_ofNat, Nat.mod_eq_of_lt (a := k) (by omega), Nat.mod_eq_of_lt (by omega)]
  rw [inSource, e, Bool.and_eq_true, decide_eq_true_eq, decide_eq_true_eq]
  omega

theorem sourceAgrees_of_inSource {s : State} {m : Memory} (hf : SourceFits s)
    (h : ∀ a, inSource s a = true → readMem m a = readMem s.mem a) : SourceAgrees s m :=
  fun _ hk => h _ (inSource_addr hf hk)

section
variable {s : State} {m : Memory}

theorem memRead_withMem {a : Word} (h : readMem m a = readMem s.mem a) : memRead (s.withMem m) a = memRead s a := by
  simp only [memRead, State.withMem_platform, State.withMem_mem, h]

theorem readBytes_withMem {a : Word} {n : Nat}
    (h : ∀ k, k < n → readMem m (a + BitVec.ofNat 32 k) = readMem s.mem (a + BitVec.ofNat 32 k)) :
    readBytes (s.withMem m) a n = readBytes s a n := by
  induction n generalizing a with
  | zero => rfl
  | succ n ih =>
    have h0 : readMem m a = readMem s.mem a := by simpa using h 0 (by omega)
    have hrest := ih (a := a + 1#32) fun k hk => by rw [← add_ofNat_succ]; exact h (k + 1) (by omega)
    simp only [readBytes, memRead_withMem h0, hrest]

theorem localCount_withMem (h : SourceAgrees s m) : localCount (s.withMem m) = localCount s := by
  simp only [localCount, countRange, State.withMem_srcAddr, State.withMem_srcLen, readBytes_withMem h]

end

/-! ### The commands without a window -/

theorem freqCountDone_withMem {s : State} {m : Memory} (h : SourceFits s → SourceAgrees s m) :
    freqCountDone (s.withMem m) = (freqCountDone s).withMem m := by
  have hc : checkSrc (s.withMem m) = checkSrc s := rfl
  unfold freqCountDone
  rw [hc]
  by_cases hf : SourceFits s
  · rw [checkSrc_of_fits hf, localCount_withMem (h hf)]
    cases localCount s <;> rfl
  · rw [checkSrc_of_wraps hf]
    rfl

theorem freqAccumDone_withMem {s : State} {m : Memory} (h : SourceFits s → SourceAgrees s m) :
    freqAccumDone (s.withMem m) = (freqAccumDone s).withMem m := by
  have hc : checkSrc (s.withMem m) = checkSrc s := rfl
  unfold freqAccumDone
  rw [hc]
  by_cases hf : SourceFits s
  · rw [checkSrc_of_fits hf, localCount_withMem (h hf), State.withMem_freq]
    cases localCount s with
    | error e => rfl
    | ok l =>
      dsimp only
      cases firstOverflow s.freq l <;> rfl
  · rw [checkSrc_of_wraps hf]
    rfl

theorem buildDone_withMem (s : State) (m : Memory) : buildDone (s.withMem m) = (buildDone s).withMem m := by
  unfold buildDone
  rw [State.withMem_freq]
  cases buildTree s.freq <;> rfl

/-! ### The encode stage -/

/-- Two sinks as far on, written alike. -/
structure SinkAlike (x₀ y₀ : Memory) (k k' : Sink) : Prop where
  offset : k'.offset = k.offset
  memory : WroteAlike x₀ y₀ k.mem k'.mem

section
variable {s : State} {m x₀ y₀ : Memory} {k k' : Sink}

theorem memWrite_alike {x y : Memory} (h : WroteAlike x₀ y₀ x y) (a : Word) (v : Byte) :
    StopAlike (WroteAlike x₀ y₀) (memWrite s x a v) (memWrite (s.withMem m) y a v) := by
  show StopAlike _ (memWrite s x a v) (memWrite s y a v)
  unfold memWrite
  split
  · exact .ok (h.writeMem a v)
  · exact .error _

theorem emit_alike (h : SinkAlike x₀ y₀ k k') (v : Byte) :
    StopAlike (SinkAlike x₀ y₀) (emit s k v) (emit (s.withMem m) k' v) := by
  have hv := memWrite_alike (s := s) (m := m) h.memory (s.dstAddr + BitVec.ofNat 32 k.offset) v
  unfold emit
  rw [h.offset, State.withMem_dstCap, State.withMem_dstAddr]
  split
  · exact .error _
  · generalize memWrite s k.mem _ v = r, memWrite (s.withMem m) k'.mem _ v = r' at hv
    cases hv with
    | error e => exact .error e
    | ok hm => exact .ok ⟨rfl, hm⟩

theorem emitAll_alike (h : SinkAlike x₀ y₀ k k') (bs : List Byte) :
    StopAlike (SinkAlike x₀ y₀) (emitAll s k bs) (emitAll (s.withMem m) k' bs) := by
  induction bs generalizing k k' with
  | nil => exact .ok h
  | cons v rest ih =>
    have hv := emit_alike (s := s) (m := m) h v
    rw [emitAll, emitAll]
    generalize emit s k v = r, emit (s.withMem m) k' v = r' at hv
    cases hv with
    | error e => exact .error e
    | ok hk => exact ih hk

theorem payloadLoop_alike {n : Nat} {a : Word}
    (hsrc : ∀ i, i < n → readMem m (a + BitVec.ofNat 32 i) = readMem s.mem (a + BitVec.ofNat 32 i)) (acc : Code) (b : Nat)
    (h : SinkAlike x₀ y₀ k k') :
    StopAlike (fun r r' => SinkAlike x₀ y₀ r.1 r'.1 ∧ r'.2 = r.2) (payloadLoop s n a acc b k)
      (payloadLoop (s.withMem m) n a acc b k') := by
  induction n generalizing a acc b k k' with
  | zero =>
    have hv := emit_alike (s := s) (m := m) h (finalByte acc)
    rw [payloadLoop, payloadLoop]
    split
    · exact .ok ⟨h, rfl⟩
    · generalize emit s k (finalByte acc) = r, emit (s.withMem m) k' (finalByte acc) = r' at hv
      cases hv with
      | error e => exact .error e
      | ok hk => exact .ok ⟨hk, rfl⟩
  | succ n ih =>
    have h0 : readMem m a = readMem s.mem a := by simpa using hsrc 0 (by omega)
    have hrest : ∀ i, i < n → readMem m (a + 1#32 + BitVec.ofNat 32 i) = readMem s.mem (a + 1#32 + BitVec.ofNat 32 i) :=
      fun i hi => by rw [← add_ofNat_succ]; exact hsrc (i + 1) (by omega)
    rw [payloadLoop, payloadLoop, memRead_withMem h0, State.withMem_code]
    cases memRead s a with
    | error e => exact .error e
    | ok x =>
      dsimp only
      split
      · exact .error _
      · have hv := emitAll_alike (s := s) (m := m) h (fullBytes (acc ++ s.code x))
        generalize emitAll s k (fullBytes (acc ++ s.code x)) = r,
          emitAll (s.withMem m) k' (fullBytes (acc ++ s.code x)) = r' at hv
        cases hv with
        | error e => exact .error e
        | ok hk => exact ih hrest _ _ hk

theorem encodeStage_alike (h : SourceAgrees s m) :
    StopAlike (fun r r' => SinkAlike s.mem m r.1 r'.1 ∧ r'.2 = r.2) (encodeStage s) (encodeStage (s.withMem m)) := by
  have hv := emitAll_alike (s := s) (m := m) (k := ⟨0, s.mem⟩) (k' := ⟨0, m⟩) ⟨rfl, wroteAlike_refl s.mem m⟩
    (headerBytes s.srcLen s.freq)
  unfold encodeStage
  rw [State.withMem_srcLen, State.withMem_freq, State.withMem_mem, State.withMem_srcAddr]
  generalize emitAll s ⟨0, s.mem⟩ (headerBytes s.srcLen s.freq) = r,
    emitAll (s.withMem m) ⟨0, m⟩ (headerBytes s.srcLen s.freq) = r' at hv
  cases hv with
  | error e => exact .error e
  | ok hk => exact payloadLoop_alike h [] 0 hk

theorem encodeFinish_alike (h : SourceAgrees s m) :
    EndAlike s.mem m (encodeFinish s) (encodeFinish (s.withMem m)) := by
  have hv := encodeStage_alike h
  unfold encodeFinish
  generalize encodeStage s = r, encodeStage (s.withMem m) = r' at hv
  cases hv with
  | error e => exact endAlike_failWindow s m e
  | @ok a b hk =>
    obtain ⟨⟨hoff, hmem⟩, hb⟩ := hk
    dsimp only
    rw [hoff, hb]
    exact endAlike_succeed hmem s _ _

/-! ### ENCODE and COMPRESS -/

theorem checkRanges_withMem (s : State) (m : Memory) : checkRanges (s.withMem m) = checkRanges s := rfl

theorem encodeDone_alike (h : SourceFits s → SourceAgrees s m) :
    EndAlike s.mem m (encodeDone s) (encodeDone (s.withMem m)) := by
  unfold encodeDone
  rw [checkRanges_withMem]
  rcases checkRanges_cases s with ⟨-, hc⟩ | ⟨-, -, hc⟩ | ⟨hf, -, hc⟩ <;> rw [hc]
  · exact endAlike_failWindow s m _
  · exact endAlike_failWindow s m _
  · exact encodeFinish_alike (h hf)

theorem commitBuild_withMem (u : State) (m : Memory) : commitBuild (u.withMem m) = (commitBuild u).withMem m := by
  unfold commitBuild
  rw [State.withMem_freq]
  cases buildTree u.freq <;> rfl

/-- The build step of COMPRESS changes neither memory nor what the source range is. -/
theorem encodeFinish_commitBuild_alike (h : SourceAgrees s m) :
    EndAlike s.mem m (encodeFinish (commitBuild s)) (encodeFinish (commitBuild (s.withMem m))) := by
  rw [commitBuild_withMem]
  rcases commitBuild_cases s with hu | ⟨t, -, hu⟩ <;> rw [hu]
  · exact encodeFinish_alike h
  · exact encodeFinish_alike (s := s.withTree t) h

theorem compressDone_alike (h : SourceFits s → SourceAgrees s m) :
    EndAlike s.mem m (compressDone s) (compressDone (s.withMem m)) := by
  unfold compressDone
  rw [checkRanges_withMem]
  rcases checkRanges_cases s with ⟨-, hc⟩ | ⟨-, -, hc⟩ | ⟨hf, -, hc⟩ <;> rw [hc]
  · exact endAlike_failWindow s m _
  · exact endAlike_failWindow s m _
  · rw [localCount_withMem (h hf), State.withMem_srcLen]
    cases localCount s with
    | error e => exact endAlike_failWindow s m e
    | ok l =>
      dsimp only
      split
      · exact encodeFinish_alike (s := s.withFreq l) (h hf)
      · exact encodeFinish_commitBuild_alike (s := s.withFreq l) (h hf)

/-! ### DECODE -/

/-- The payload bytes are bytes of the source range, behind its header (R250). -/
theorem payloadBit_withMem (h : SourceAgrees s m) {pos : Nat} (hp : pos < payloadBits s) :
    payloadBit (s.withMem m) pos = payloadBit s pos := by
  have haddr : payloadBase s + BitVec.ofNat 32 (pos / 8) = s.srcAddr + BitVec.ofNat 32 (1028 + pos / 8) := by
    rw [payloadBase, BitVec.ofNat_add, BitVec.add_assoc]
  have hread := h (1028 + pos / 8) (by unfold payloadBits at hp; omega)
  rw [← haddr] at hread
  have hbase : payloadBase (s.withMem m) = payloadBase s := rfl
  simp only [payloadBit, hbase, State.withMem_platform, State.withMem_mem, hread]

theorem walk_withMem (h : SourceAgrees s m) (t : Tree) (j : Nat) {left pos : Nat} (n : NodeId)
    (hl : ∀ i, i < left → pos + i < payloadBits s) :
    walk (s.withMem m) t j left pos n = walk s t j left pos n := by
  induction left generalizing pos n with
  | zero => rw [walk, walk]; rfl
  | succ left ih =>
    rw [walk, walk, payloadBit_withMem h (show pos < payloadBits s from hl 0 (by omega))]
    cases payloadBit s pos with
    | error e => rfl
    | ok bit => dsimp only; rw [ih _ fun i hi => by have := hl (i + 1) (by omega); omega]

theorem decodeSymbol_withMem (h : SourceAgrees s m) (t : Tree) (j pos : Nat) :
    decodeSymbol (s.withMem m) t j pos = decodeSymbol s t j pos := by
  have hbits : payloadBits (s.withMem m) = payloadBits s := rfl
  unfold decodeSymbol
  rw [hbits, walk_withMem h t j t.root fun i hi => by omega]
  split
  · unfold singleStep
    rw [hbits]
    split
    · rfl
    · rw [payloadBit_withMem h (by omega)]
      rfl
  · rfl

theorem decodeLoop_alike (h : SourceAgrees s m) (t : Tree) {n j pos : Nat} {x y : Memory} (hw : WroteAlike x₀ y₀ x y) :
    StopAlike (fun r r' => r'.1 = r.1 ∧ WroteAlike x₀ y₀ r.2 r'.2) (decodeLoop s t n j pos x)
      (decodeLoop (s.withMem m) t n j pos y) := by
  induction n generalizing j pos x y with
  | zero => exact .ok ⟨rfl, hw⟩
  | succ n ih =>
    rw [decodeLoop, decodeLoop, decodeSymbol_withMem h]
    cases decodeSymbol s t j pos with
    | error e => exact .error e
    | ok r =>
      have hv := memWrite_alike (s := s) (m := m) hw (s.dstAddr + BitVec.ofNat 32 j) r.2
      dsimp only
      rw [State.withMem_dstAddr]
      generalize memWrite s x _ r.2 = q, memWrite (s.withMem m) y _ r.2 = q' at hv
      cases hv with
      | error e => exact .error e
      | ok hm => exact ih hm

theorem decodePayload_alike (h : SourceAgrees s m) (t : Tree) (n : Word) :
    EndAlike s.mem m (decodePayload s t n) (decodePayload (s.withMem m) t n) := by
  have hv := decodeLoop_alike h t (n := n.toNat) (j := 0) (pos := 0) (wroteAlike_refl s.mem m)
  unfold decodePayload
  rw [State.withMem_dstCap, State.withMem_mem]
  split
  · exact endAlike_failWindow s m _
  · generalize decodeLoop s t n.toNat 0 0 s.mem = r, decodeLoop (s.withMem m) t n.toNat 0 0 m = r' at hv
    cases hv with
    | error e => exact endAlike_failWindow s m e
    | @ok a b hk =>
      obtain ⟨hpos, hmem⟩ := hk
      dsimp only
      rw [hpos, State.withMem_srcLen]
      split
      · exact endAlike_failWindow s m _
      · exact endAlike_succeed hmem s _ _

theorem decodeContainer_alike (h : SourceAgrees s m) (hd : List Byte) :
    EndAlike s.mem m (decodeContainer s hd) (decodeContainer (s.withMem m) hd) := by
  have hu : SourceAgrees (s.withFreq (headerTable hd)) m := h
  have hmem : s.mem = (s.withFreq (headerTable hd)).mem := rfl
  have hcomm : (s.withMem m).withFreq (headerTable hd) = (s.withFreq (headerTable hd)).withMem m := rfl
  have hbase : payloadBase (s.withMem m) = payloadBase s := rfl
  unfold decodeContainer
  rw [hcomm, hmem, hbase]
  generalize s.withFreq (headerTable hd) = u at hu
  by_cases hn : headerWord hd 0 = 0#32
  · rw [if_pos hn, if_pos hn, State.withMem_srcLen]
    split
    · exact endAlike_failWindow u m _
    · exact endAlike_succeed (wroteAlike_refl u.mem m) u _ _
  · rw [if_neg hn, if_neg hn, State.withMem_freq]
    cases buildTree u.freq with
    | overflow => exact endAlike_failWindow u m _
    | empty => exact endAlike_failWindow u m _
    | ok t => exact decodePayload_alike (s := u.withTree t) hu t _

theorem decodeDone_alike (h : SourceFits s → SourceAgrees s m) :
    EndAlike s.mem m (decodeDone s) (decodeDone (s.withMem m)) := by
  unfold decodeDone
  rw [checkRanges_withMem, State.withMem_srcLen, State.withMem_srcAddr]
  rcases checkRanges_cases s with ⟨-, hc⟩ | ⟨-, -, hc⟩ | ⟨hf, -, hc⟩ <;> rw [hc]
  · exact endAlike_failWindow s m _
  · exact endAlike_failWindow s m _
  · dsimp only
    split
    · exact endAlike_failWindow s m _
    · rw [readBytes_withMem fun k hk => h hf k (by omega)]
      cases readBytes s s.srcAddr 1028 with
      | error e => exact endAlike_failWindow s m e
      | ok hd => exact decodeContainer_alike (h hf) hd

end

/-! ### Every command -/

theorem doneState_alike (i : Instr) {s : State} {m : Memory} (h : SourceFits s → SourceAgrees s m) :
    EndAlike s.mem m (doneState i s) (doneState i (s.withMem m)) := by
  have hquiet : usesWindow i = false → doneState i (s.withMem m) = (doneState i s).withMem m →
      EndAlike s.mem m (doneState i s) (doneState i (s.withMem m)) := fun hi e => by
    rw [e]
    exact endAlike_withMem ((ends i s).mem_eq hi) m
  cases i with
  | freqClear => exact hquiet rfl rfl
  | freqCount => exact hquiet rfl (freqCountDone_withMem h)
  | freqAccum => exact hquiet rfl (freqAccumDone_withMem h)
  | build => exact hquiet rfl (buildDone_withMem s m)
  | encode => exact encodeDone_alike h
  | compress => exact compressDone_alike h
  | decode => exact decodeDone_alike h

/-- Settles O51: a command passes its range checks before it reads, and then reads its source range alone. -/
theorem commandsDependOnlyOnTheirSource : Obligations.CommandsDependOnlyOnTheirSource := by
  intro i s t m hm hs
  obtain ⟨hfree, rfl⟩ := exec_next.1 hs
  have hfree' : HazardFree i (s.withMem m) := hfree
  obtain ⟨hstate, hmem⟩ := doneState_alike i fun hf => sourceAgrees_of_inSource hf hm
  exact ⟨_, exec_next.2 ⟨hfree', rfl⟩, hstate, hmem⟩

end Sys2Proof.Machine
end

section
/-! PROOFS. The frequency counter (spec/41_frequency_counter.md): the host's write of a counter (O10), FREQ_CLEAR,
FREQ_COUNT and FREQ_ACCUM (O17, O18, O19), the sum of the counters (O20), and the count in parts (O21). -/

namespace Sys2Proof.Machine

/-! ### How a counter command ends -/

/-- A command without a window keeps memory and the control registers (R58, R86, R177). -/
theorem exec_windowless {i : Instr} {s : State} (hw : usesWindow i = false) (hfree : HazardFree i s) :
    exec i s = .next (doneState i s) ∧ (doneState i s).mem = s.mem ∧ ControlKept s (doneState i s) := by
  have hex : exec i s = .next (doneState i s) := exec_next.2 ⟨hfree, rfl⟩
  obtain ⟨-, -, -, hck, -⟩ := commandEndsInCompletion i s _ hex
  exact ⟨hex, (ends i s).mem_eq hw, hck⟩

/-- A failure reports its record and keeps the tables (R285, R291). -/
theorem fail_reports (s : State) (e : CmdError) : CompletedWith (s.fail e) e ∧ TablesKept s (s.fail e) :=
  ⟨completedWith_fail s e, s.fail_freq e, s.fail_tree e⟩

/-- A counter command that succeeds leaves its table, no tree and no results. -/
theorem withFreq_succeed_completes (s : State) (f : Table Word) :
    CompletedOk ((s.withFreq f).succeed 0#32 0#64) 0#32 0#64 ∧ ((s.withFreq f).succeed 0#32 0#64).treeValid = false ∧
      ((s.withFreq f).succeed 0#32 0#64).freq = f :=
  ⟨completedOk_succeed _ _ _, rfl, rfl⟩

/-! ### Tables of counters -/

theorem entry_addTables (f g : Table Word) (x : Byte) : entry (addTables f g) x = entry f x + entry g x := by
  rw [addTables, entry_tabulate]

theorem entry_addTables_toNat {f g : Table Word} {x : Byte} (h : (entry f x).toNat + (entry g x).toNat ≤ 2 ^ 32 - 1) :
    (entry (addTables f g) x).toNat = (entry f x).toNat + (entry g x).toNat := by
  rw [entry_addTables, BitVec.toNat_add, Nat.mod_eq_of_lt (by omega)]

theorem addTables_comm (f g : Table Word) : addTables f g = addTables g f :=
  table_ext fun x => by rw [entry_addTables, entry_addTables, BitVec.add_comm]

theorem addTables_assoc (f g h : Table Word) : addTables (addTables f g) h = addTables f (addTables g h) :=
  table_ext fun x => by simp only [entry_addTables, BitVec.add_assoc]

/-- The sum of the counters is additive where no counter overflows. -/
theorem freqSum_addTables {f g : Table Word} (h : ∀ x, (entry f x).toNat + (entry g x).toNat ≤ 2 ^ 32 - 1) :
    freqSum (addTables f g) = freqSum f + freqSum g := by
  rw [freqSum_eq _ _ fun x => entry_addTables_toNat (h x), List.sum_map_add]
  rfl

/-- The counters of the source range, as numbers. -/
theorem count_sourceBytes (s : State) (x : Byte) :
    (entry (countBytes (sourceBytes s)) x).toNat = (sourceBytes s).count x :=
  count_countBytes (length_sourceBytes_lt s) x

theorem freqSum_sourceBytes (s : State) : freqSum (countBytes (sourceBytes s)) = s.srcLen.toNat := by
  rw [freqSum_countBytes _ (length_sourceBytes_lt s), length_sourceBytes]

/-- Of the symbols with a property only one is least (R173's overflowing symbol is determined). -/
theorem least_symbol_unique {p : Byte → Prop} {x y : Byte} (hx : p x) (hy : p y)
    (hx' : ∀ z, z.toNat < x.toNat → ¬ p z) (hy' : ∀ z, z.toNat < y.toNat → ¬ p z) : x = y := by
  have hxy : ¬ x.toNat < y.toNat := fun h => hy' x h hx
  have hyx : ¬ y.toNat < x.toNat := fun h => hx' y h hy
  exact BitVec.eq_of_toNat_eq (by omega)

/-! ### The host's write of a counter (R174) -/

/-- Settles O10: idle the write is `State.withFreq`, which withdraws the tree; busy it is lost. -/
theorem hostWritesCounter : Obligations.HostWritesCounter := by
  intro s x v
  refine ⟨offsetOf_freq_toNat x, fun hb => ?_, fun hb => ?_⟩
  · refine ⟨s.withFreq (setEntry s.freq x v), ?_, ?_, fun y hy => ?_, rfl, fun y => ?_, rfl, rfl, rfl, rfl,
      controlKept_withFreq s _⟩
    · rw [hostStep_wr, writeReg, if_neg (Bool.eq_false_iff.1 hb)]
    · rw [State.withFreq_freq, entry_setEntry, if_pos rfl]
    · rw [State.withFreq_freq, entry_setEntry, if_neg hy]
    · exact idleValue_of_tree_none rfl (.inr (.inl ⟨y, rfl⟩))
  · rw [hostStep_wr, writeReg_busy v hb (.inr ⟨x, rfl⟩)]
    rfl

/-! ### FREQ_CLEAR (R171) -/

theorem entry_zeroTable (x : Byte) : entry zeroTable x = 0#32 := by rw [zeroTable, entry_tabulate]

/-- STATUS after a success, as a number: DONE and what the success keeps (R115, R152). -/
theorem status_succeed_toNat (s : State) (o : Word) (b : BitVec 64) :
    (s.succeed o b).status.toNat = 2 + 4 * s.busyWr.toNat + 8 * s.treeValid.toNat + 65536 * s.lastCmd.toNat := by
  rw [State.status, statusWith_toNat, State.succeed_busy, State.succeed_done, State.succeed_busyWr,
    State.succeed_treeValid, State.succeed_err, State.succeed_errSub, State.succeed_lastCmd]
  simp

/-- Settles O17: FREQ_CLEAR uses no range, so it ends in the zero table from every state. -/
theorem freqClearZeroes : Obligations.FreqClearZeroes := by
  intro s
  obtain ⟨hex, hmem, hck⟩ := exec_windowless rfl (hazardFree_freqClear s)
  obtain ⟨hok, htree, hfreq⟩ := withFreq_succeed_completes s zeroTable
  refine ⟨_, hex, fun x => ?_, htree, hok, hmem, hck, fun hcmd hwr => ?_⟩
  · exact (congrArg (entry · x) hfreq).trans (entry_zeroTable x)
  · apply BitVec.eq_of_toNat_eq
    rw [doneState, status_succeed_toNat, State.withFreq_busyWr, State.withFreq_treeValid, State.withFreq_lastCmd, hwr, hcmd]
    rfl

/-! ### FREQ_COUNT and FREQ_ACCUM (R172, R173) -/

/-- Settles O18, by the three ends of FREQ_COUNT; the premises of the other clauses fail in each. -/
theorem freqCountCounts : Obligations.FreqCountCounts := by
  intro s hfree
  obtain ⟨hex, hmem, hck⟩ := exec_windowless rfl hfree
  refine ⟨_, hex, hmem, hck, ?_⟩
  rw [doneState]
  rcases freqCountDone_cases s with ⟨hwrap, h⟩ | ⟨hfits, j, hj, hlow, hbad, h⟩ | ⟨hfits, hread, h⟩ <;> rw [h]
  · exact ⟨fun hf => absurd hf hwrap, fun _ => fail_reports s _, fun _ hf => absurd hf hwrap⟩
  · refine ⟨fun _ hr => absurd hr (not_readable hj hbad), fun hw => absurd hfits hw, fun k _ _ hlow' hbad' => ?_⟩
    obtain rfl := lowest_unreadable hlow hbad hlow' hbad'
    exact fail_reports s _
  · obtain ⟨hok, htree, hfreq⟩ := withFreq_succeed_completes s (countBytes (sourceBytes s))
    refine ⟨fun _ _ => ⟨hok, htree, fun x => ?_⟩, fun hw => absurd hfits hw,
      fun k _ hk _ hbad => absurd hread (not_readable hk hbad)⟩
    rw [hfreq, count_sourceBytes]

/-- Settles O19, by the four ends of FREQ_ACCUM; the premises of the other clauses fail in each. -/
theorem freqAccumAdds : Obligations.FreqAccumAdds := by
  intro s hfree
  obtain ⟨hex, hmem, hck⟩ := exec_windowless rfl hfree
  refine ⟨_, hex, hmem, hck, ?_⟩
  rw [doneState]
  rcases freqAccumDone_cases s with ⟨hwrap, h⟩ | ⟨hfits, j, hj, hlow, hbad, h⟩ | ⟨hfits, hread, x, hx, hleast, h⟩ |
    ⟨hfits, hread, hsum, h⟩ <;> rw [h]
  · exact ⟨fun hf => absurd hf hwrap, fun _ hf => absurd hf hwrap, fun _ => fail_reports s _, fun _ hf => absurd hf hwrap⟩
  · refine ⟨fun _ hr => absurd hr (not_readable hj hbad), fun _ _ hr => absurd hr (not_readable hj hbad),
      fun hw => absurd hfits hw, fun k _ _ hlow' hbad' => ?_⟩
    obtain rfl := lowest_unreadable hlow hbad hlow' hbad'
    exact fail_reports s _
  · refine ⟨fun _ _ hsum => absurd (hsum x) (Nat.not_le.2 hx), fun y _ _ hy hleast' => ?_, fun hw => absurd hfits hw,
      fun k _ hk _ hbad => absurd hread (not_readable hk hbad)⟩
    obtain rfl := least_symbol_unique hx hy (fun z hz => Nat.not_lt.2 (hleast z hz)) fun z hz => Nat.not_lt.2 (hleast' z hz)
    exact fail_reports s _
  · obtain ⟨hok, htree, hfreq⟩ := withFreq_succeed_completes s (addTables s.freq (countBytes (sourceBytes s)))
    refine ⟨fun _ _ _ => ⟨hok, htree, fun x => ?_⟩, fun x _ _ hx => absurd (hsum x) (Nat.not_le.2 hx),
      fun hw => absurd hfits hw, fun k _ hk _ hbad => absurd hread (not_readable hk hbad)⟩
    rw [hfreq, entry_addTables_toNat (by rw [count_sourceBytes]; exact hsum x), count_sourceBytes]

/-! ### The sum of the counters (R175) -/

/-- A failed command has an error number. -/
theorem fail_err_ne_zero (s : State) (e : CmdError) : (s.fail e).err ≠ 0#4 := errNumber_ne_zero e.cause

/-- Settles O20: without an error only the last end of each counter command is left. -/
theorem countersSumToBytesScanned : Obligations.CountersSumToBytesScanned := by
  refine ⟨fun s t hs herr => ?_, fun s t hs => ?_, fun s t hs herr => ?_⟩ <;> obtain ⟨-, rfl⟩ := exec_next.1 hs
  · rw [doneState] at herr ⊢
    rcases freqCountDone_cases s with ⟨-, h⟩ | ⟨-, k, -, -, -, h⟩ | ⟨-, -, h⟩ <;> rw [h] at herr ⊢
    · exact absurd herr (fail_err_ne_zero s _)
    · exact absurd herr (fail_err_ne_zero s _)
    · rw [State.succeed_freq, State.withFreq_freq, freqSum_sourceBytes]
  · rw [doneState, State.succeed_freq, State.withFreq_freq, freqSum_eq_zero entry_zeroTable]
  · rw [doneState] at herr ⊢
    rcases freqAccumDone_cases s with ⟨-, h⟩ | ⟨-, k, -, -, -, h⟩ | ⟨-, -, x, -, -, h⟩ | ⟨-, -, hsum, h⟩ <;>
      rw [h] at herr ⊢
    · exact absurd herr (fail_err_ne_zero s _)
    · exact absurd herr (fail_err_ne_zero s _)
    · exact absurd herr (fail_err_ne_zero s _)
    · rw [State.succeed_freq, State.withFreq_freq,
        freqSum_addTables fun x => by rw [count_sourceBytes]; exact hsum x, freqSum_sourceBytes]

/-! ### The count in parts (R176) -/

/-- The count of a range is the merge of the counts of its two parts, the first error included. -/
theorem mergeCounts_countRange (s : State) (a : Word) (i j : Nat) :
    mergeCounts (countRange s a i) (countRange s (a + BitVec.ofNat 32 i) j) = countRange s a (i + j) := by
  simp only [countRange, readBytes_append]
  cases readBytes s a i with
  | error e => rfl
  | ok l =>
    cases readBytes s (a + BitVec.ofNat 32 i) j with
    | error e => rfl
    | ok r => exact congrArg Except.ok (countBytes_append l r)

/-- The recursive count, by induction on its depth: each split is merged back. -/
theorem parallelCount_eq_countRange (s : State) (threshold fuel : Nat) (a : Word) (n : Nat) :
    parallelCount s threshold fuel a n = countRange s a n := by
  induction fuel generalizing a n with
  | zero => rfl
  | succ fuel ih =>
    rw [parallelCount]
    split
    · rfl
    · rw [ih, ih, mergeCounts_countRange, Nat.add_sub_cancel' (Nat.div_le_self n 2)]

/-- Settles O21: both parallel forms and the merge of tables. -/
theorem parallelCountIsSequential : Obligations.ParallelCountIsSequential :=
  ⟨mergeCounts_countRange, parallelCount_eq_countRange, addTables_comm, addTables_assoc⟩

end Sys2Proof.Machine
end

section
/-! PROOFS. The tree builder (spec/42_tree_builder.md): BUILD (O22, O25), the merge steps and the root (O23, O24), and the
codes of a built table (O26 to O29). -/

namespace Sys2Proof.Machine

/-! ### What BuildTree built (R204) -/

/-- The two shapes of a built tree: one leaf, or the merge of two or more. -/
theorem builtTree_cases {f : Table Word} {T : Tree} (hb : buildTree f = .ok T) :
    (∃ x, present f = [x] ∧ T = singleTree x) ∨
    (freqSum f ≤ 2 ^ 32 - 1 ∧ 2 ≤ (present f).length ∧ T = mergedTree f (present f).length) := by
  rcases buildTree_cases f with ⟨-, h⟩ | ⟨-, -, h⟩ | ⟨-, x, hx, h⟩ | ⟨hs, hk, h⟩ <;> rw [hb] at h <;> cases h
  · exact .inl ⟨x, hx, rfl⟩
  · exact .inr ⟨hs, hk, rfl⟩

theorem not_two_le_of_one {f : Table Word} {x : Byte} (hx : present f = [x]) : ¬ 2 ≤ (present f).length := by
  rw [hx, List.length_singleton]
  omega

/-- Two or more symbols give the merged tree, and their sum is no overflow. -/
theorem builtTree_of_two {f : Table Word} {T : Tree} (hb : buildTree f = .ok T) (hk : 2 ≤ (present f).length) :
    freqSum f ≤ 2 ^ 32 - 1 ∧ T = mergedTree f (present f).length := by
  rcases builtTree_cases hb with ⟨x, hx, -⟩ | ⟨hs, -, hT⟩
  · exact absurd hk (not_two_le_of_one hx)
  · exact ⟨hs, hT⟩

/-- One symbol gives its lone leaf (R196). -/
theorem builtTree_of_one {f : Table Word} {T : Tree} {x : Byte} (hb : buildTree f = .ok T) (hx : present f = [x]) :
    T = singleTree x :=
  BuildResult.ok.inj (hb.symm.trans (build_single hx))

/-! ### The merge steps (R192, R193, R194) -/

/-- The queue of R193 before step `j`. -/
def mergeQueue (f : Table Word) (j : Nat) : List QueueNode := queueAfter j 0 (initialQueue f)

theorem mergeQueue_succ (f : Table Word) (j : Nat) : mergeQueue f (j + 1) = mergeStep j (mergeQueue f j) := by
  rw [mergeQueue, queueAfter_succ, Nat.zero_add, mergeQueue]

/-- Before step `j` the queue is in key order, one node shorter for each step, and of the total weight of the counters. -/
theorem mergeQueue_inv {f : Table Word} {j : Nat} (hj : j < (present f).length) :
    Ordered (mergeQueue f j) ∧ (mergeQueue f j).length = (present f).length - j ∧
      ((mergeQueue f j).map QueueNode.weight).sum = freqSum f := by
  have hle := length_present_le f
  rw [← length_initialQueue f] at hj hle ⊢
  obtain ⟨hinv, hlen, hsum⟩ := queueAfter_inv (initialQueue_inv f) (show j + 0 ≤ 255 by omega) hj
  exact ⟨hinv.ordered, hlen, hsum.trans (initialQueue_weight f)⟩

/-- The arena entry of internal node `256 + j` (R60). -/
theorem childNode_internal (arena : Vector ArenaNode 255) (j : Fin 255) :
    childNode arena (BitVec.ofNat 9 (256 + j.val)) = arena[j] := by
  have hid : (BitVec.ofNat 9 (256 + j.val)).toNat - 256 = j.val := by rw [BitVec.toNat_ofNat]; omega
  rw [childNode, hid, Vector.getElem?_eq_getElem j.isLt]
  rfl

/-- Step `j` takes the two nodes at the front of the queue and makes arena entry `j` of them. -/
theorem mergeQueue_step {f : Table Word} {j : Nat} (hj : j < (present f).length - 1) :
    ∃ a b rest, mergeQueue f j = a :: b :: rest ∧
      mergeQueue f (j + 1) = insertNode ⟨a.weight + b.weight, BitVec.ofNat 9 (256 + j)⟩ rest ∧
      childNode (mergedTree f (present f).length).arena (BitVec.ofNat 9 (256 + j)) =
        ⟨a.id, b.id, BitVec.ofNat 32 (a.weight + b.weight)⟩ := by
  have hle := length_present_le f
  have hlen : (initialQueue f).length = (present f).length - 1 + 1 := by rw [length_initialQueue]; omega
  obtain ⟨a, b, rest, hq, hentry⟩ := mergeLoop_getElem (j := 0) hlen hj
  have hloop := length_mergeLoop (j := 0) hlen
  refine ⟨a, b, rest, hq, ?_, ?_⟩
  · rw [mergeQueue_succ, mergeQueue, hq, mergeStep]
  · rw [mergedTree, childNode_arenaOf (by omega) (hloop.symm ▸ hj)]
    exact (List.getElem_eq_iff _).2 hentry

/-- The nodes at the front of an ordered queue are the two of least key. -/
theorem least_two_of_ordered {a b : QueueNode} {rest : List QueueNode} (h : Ordered (a :: b :: rest)) :
    keyBefore a b = true ∧ ∀ c ∈ rest, keyBefore b c = true := by
  obtain ⟨ha, hrest⟩ := List.pairwise_cons.1 h
  exact ⟨ha b List.mem_cons_self, (List.pairwise_cons.1 hrest).1⟩

/-- The last step joins the last two nodes, so its sum is the sum of the counters (R193, R195). -/
theorem mergeQueue_last {f : Table Word} (hk : 2 ≤ (present f).length) :
    mergeQueue f ((present f).length - 1) = [⟨freqSum f, BitVec.ofNat 9 (256 + (present f).length - 2)⟩] ∧
      (childNode (mergedTree f (present f).length).arena (mergedTree f (present f).length).root).weight =
        BitVec.ofNat 32 (freqSum f) := by
  obtain ⟨k, hk'⟩ : ∃ k, (present f).length = k + 2 := ⟨(present f).length - 2, by omega⟩
  obtain ⟨a, b, rest, hq, hnext, hentry⟩ := mergeQueue_step (f := f) (j := k) (by omega)
  obtain ⟨-, hlen, hsum⟩ := mergeQueue_inv (f := f) (j := k) (by omega)
  obtain rfl : rest = [] := by
    rw [hq, hk', Nat.add_sub_cancel_left] at hlen
    exact List.length_eq_zero_iff.1 (by simpa using hlen)
  have hw : a.weight + b.weight = freqSum f := by simpa [hq] using hsum
  rw [hw] at hnext hentry
  constructor
  · rw [hk']
    exact hnext
  · have hroot : (mergedTree f (present f).length).root = BitVec.ofNat 9 (256 + k) := by rw [hk']; rfl
    rw [hroot, hentry]

/-- Settles O23: the queues are those of `mergeQueue`, whose order puts the two nodes of least key first. -/
theorem mergeStepsTakeLeastNodes : Obligations.MergeStepsTakeLeastNodes := by
  intro f T hb hk
  obtain ⟨-, rfl⟩ := builtTree_of_two hb hk
  refine ⟨mergeQueue f, initialQueue_perm f, (mergeQueue_last hk).1, fun j hj => ?_⟩
  obtain ⟨a, b, rest, hq, hnext, hentry⟩ := mergeQueue_step hj
  obtain ⟨hord, -, hsum⟩ := mergeQueue_inv (f := f) (j := j.val) (by omega)
  rw [hq] at hord hsum
  obtain ⟨hab, hrest⟩ := least_two_of_ordered hord
  simp only [List.map_cons, List.sum_cons] at hsum
  refine ⟨a, b, rest, .of_eq hq, hab, hrest, by omega, ?_, ?_⟩
  · rw [← childNode_internal, hentry]
  · rw [hnext]
    exact insertNode_perm _ rest

/-! ### The root (R195) -/

/-- TREE_ROOT and NSYM read the root and the size of the tree (R46, R47). -/
theorem tree_readBack {s : State} {T : Tree} (h : s.tree = some T) :
    (idleValue s .treeRoot).toNat = T.root.toNat ∧ (idleValue s .nsym).toNat = T.nsym.toNat := by
  obtain ⟨-, -, -, -, hread⟩ := arenaReadBack
  exact hread s T h

/-- Settles O24, by the number of symbols; the weight of an internal root is that of the last merge step. -/
theorem rootOfBuiltTree : Obligations.RootOfBuiltTree := by
  intro s T hb hT
  obtain ⟨hroot, hnsym⟩ := tree_readBack hT
  rw [hroot, hnsym]
  rcases builtTree_cases hb with ⟨x, hx, rfl⟩ | ⟨hs, hk, rfl⟩
  · refine ⟨by rw [hx]; rfl, fun y hy => ?_, fun hk => absurd hk (not_two_le_of_one hx)⟩
    obtain rfl : x = y := List.singleton_inj.1 (hx.symm.trans hy)
    exact leafId_toNat x
  · have hle := length_present_le s.freq
    refine ⟨?_, fun y hy => absurd hk (not_two_le_of_one hy), fun _ => ⟨?_, ?_⟩⟩
    · rw [mergedTree, BitVec.toNat_ofNat]
      omega
    · rw [mergedTree, BitVec.toNat_ofNat]
      omega
    · rw [(mergeQueue_last hk).2, BitVec.toNat_ofNat]
      omega

/-! ### BUILD (R190, R196) -/

/-- An empty table does not overflow: R204's two failures exclude each other. -/
theorem freqSum_le_of_zero {f : Table Word} (h : ∀ x, entry f x = 0#32) : freqSum f ≤ 2 ^ 32 - 1 := by
  rw [freqSum_eq_zero h]
  omega

/-- Settles O22, by the three ends of BUILD; the premises of the other clauses fail in each. -/
theorem buildCompletes : Obligations.BuildCompletes := by
  intro s
  obtain ⟨hex, hmem, hck⟩ := exec_windowless rfl (hazardFree_build s)
  refine ⟨_, hex, doneState_freq (.inl rfl) s, hmem, hck, ?_⟩
  rw [doneState]
  rcases buildDone_cases s with ⟨hover, h⟩ | ⟨hzero, h⟩ | ⟨hsum, ⟨x, hx⟩, T, hb, h⟩ <;> rw [h]
  · exact ⟨fun _ => ⟨completedWith_fail _ _, rfl⟩, fun hzero => absurd (freqSum_le_of_zero hzero) (Nat.not_le.2 hover),
      fun hsum => absurd hsum (Nat.not_le.2 hover)⟩
  · exact ⟨fun hover => absurd (freqSum_le_of_zero hzero) (Nat.not_le.2 hover), fun _ => ⟨completedWith_fail _ _, rfl⟩,
      fun _ ⟨x, hx⟩ => absurd (hzero x) hx⟩
  · refine ⟨fun hover => absurd hsum (Nat.not_le.2 hover), fun hzero => absurd (hzero x) hx, fun _ _ =>
      ⟨completedOk_succeed _ _ _, rfl, ⟨T, hb, rfl⟩, fun hvalid hmatch => ?_⟩⟩
    obtain ⟨T', hT'⟩ := Option.isSome_iff_exists.1 hvalid
    obtain rfl : T = T' := BuildResult.ok.inj (hb.symm.trans (hmatch T' hT'))
    exact hT'.symm

/-- BUILD of a table that builds holds its tree. -/
theorem buildDone_tree {s : State} {T : Tree} (hb : buildTree s.freq = .ok T) : (buildDone s).tree = some T := by
  unfold buildDone
  rw [hb]
  exact State.withTree_tree s T

/-- Settles O25: BUILD holds the lone leaf, whose size 1 leaves no arena entry in use. -/
theorem singleSymbolTree : Obligations.SingleSymbolTree := by
  intro s x hx hother
  have hp := present_single hx hother
  have hT : (doneState .build s).tree = some (singleTree x) := by
    rw [doneState]
    exact buildDone_tree (build_single hp)
  have hcode : ∀ y, (doneState .build s).code y = if y = x then [false] else [] := fun y => by
    simp only [State.code, hT, singleTree, entry_tabulate]
  obtain ⟨hroot, hnsym⟩ := tree_readBack hT
  refine ⟨_, (exec_windowless rfl (hazardFree_build s)).1, ?_, fun y hy => ?_, ?_, BitVec.eq_of_toNat_eq hnsym, fun j => ?_⟩
  · rw [hcode, if_pos rfl]
  · rw [hcode, if_neg hy]
  · exact hroot.trans (leafId_toNat x)
  · have hj := arenaEntry_unused (j := j) hT (Nat.le_add_left 1 j.val)
    exact ⟨idleValue_nodeChild_none hj, idleValue_nodeWeight_none hj⟩

/-! ### The codes of two or more symbols (R197) -/

/-- The strict tree behind a built table: the arena unfolds to it, its leaves are the present symbols, and its paths are
the codes. -/
structure BuiltFrom (f : Table Word) (T : Tree) (t : HTree) : Prop where
  unfolds : Unfolds T.arena T.root t
  leaves  : (leavesOf t).Perm (present f)
  codes   : CodesFrom f T (pathsOf t [])

theorem exists_builtFrom {f : Table Word} {T : Tree} (hb : buildTree f = .ok T) (hk : 2 ≤ (present f).length) :
    ∃ t, BuiltFrom f T t := by
  obtain ⟨-, rfl⟩ := builtTree_of_two hb hk
  obtain ⟨t, hu, hp⟩ := mergedTree_unfolds hk
  exact ⟨t, hu, hp, mergedTree_codes hu hp⟩

/-- A strict tree of `k` leaves is at most `k - 1` deep (R200). -/
theorem BuiltFrom.depth_le {f : Table Word} {T : Tree} {t : HTree} (h : BuiltFrom f T t) :
    depthOf t ≤ (present f).length - 1 := by
  have hlt := depthOf_lt t
  rw [h.leaves.length_eq] at hlt
  omega

/-- Settles O26: a code is a path of the tree that the arena unfolds to. -/
theorem codesArePathsFromRoot : Obligations.CodesArePathsFromRoot := by
  intro f T hb hk x
  obtain ⟨t, ht⟩ := exists_builtFrom hb hk
  exact ⟨fun hx => descend_path ht.unfolds (ht.codes.mem hx), fun hx => ht.codes.absent hx⟩

/-! ### The code as a whole (R199, R200, R202) -/

/-- Settles O27: paths to two leaves of one tree part; of one symbol there are no two. -/
theorem noCodeBeginsAnother : Obligations.NoCodeBeginsAnother := by
  intro f T hb
  refine ⟨fun x hx => List.length_pos_iff.2 (present_code hb hx), fun x y hne hx hy => ?_⟩
  rcases builtTree_cases hb with ⟨z, hz, -⟩ | ⟨-, hk, -⟩
  · rw [← mem_present, hz, List.mem_singleton] at hx hy
    exact absurd (hx.trans hy.symm) hne
  · obtain ⟨t, ht⟩ := exists_builtFrom hb hk
    exact path_begins_no_other (ht.codes.mem hx) (ht.codes.mem hy) hne

/-- The one code of a table of one symbol is "0" (R196). -/
theorem code_of_one {f : Table Word} {T : Tree} {x : Byte} (hb : buildTree f = .ok T) (hx : present f = [x]) :
    entry T.code x = [false] := by
  rw [builtTree_of_one hb hx, singleTree, entry_tabulate, if_pos rfl]

/-- Settles O28: a path is no longer than the tree is deep. -/
theorem codeLengthBound : Obligations.CodeLengthBound := by
  intro f T hb x hx
  refine ⟨fun hk => ?_, fun hone => ?_⟩
  · obtain ⟨t, ht⟩ := exists_builtFrom hb hk
    have hle := length_present_le f
    obtain ⟨hdepth, -⟩ := length_path (ht.codes.mem hx)
    exact ⟨List.length_pos_iff.2 (present_code hb hx), hdepth.trans ht.depth_le, by omega⟩
  · obtain ⟨y, hy⟩ := List.length_eq_one_iff.1 hone
    obtain rfl : x = y := by rwa [← mem_present, hy, List.mem_singleton] at hx
    rw [code_of_one hb hy]
    rfl

/-- A sum over the present symbols and their codes is one over the recorded paths. -/
theorem CodesFrom.sum_codes {f : Table Word} {T : Tree} {paths : List (Byte × Code)} (h : CodesFrom f T paths)
    (g : Code → Nat) : ((present f).map fun x => g (entry T.code x)).sum = (paths.map fun p => g p.2).sum := by
  have hcode : ∀ p ∈ paths, g (entry T.code p.1) = g p.2 := fun p hp => by
    rw [h.code, codeIn_of_mem (h.symbols.nodup_iff.2 (nodup_present f)) hp]
  rw [← (h.symbols.map _).sum_eq, List.map_map]
  exact congrArg List.sum (List.map_congr_left hcode)

/-- Settles O29: the Kraft sum is that of the tree's paths, and 255 bits are at least as many as the tree is deep. -/
theorem kraftSum : Obligations.KraftSum := by
  intro f T hb
  refine ⟨fun hk => ?_, fun hone => ?_⟩
  · obtain ⟨t, ht⟩ := exists_builtFrom hb hk
    have hle := length_present_le f
    have hdepth := ht.depth_le
    refine ⟨?_, fun bits hbits => descend_reaches ht.unfolds (by omega)⟩
    rw [ht.codes.sum_codes fun c => 2 ^ (256 - c.length)]
    exact kraft_paths t [] 256 (by rw [List.length_nil]; omega)
  · obtain ⟨y, hy⟩ := List.length_eq_one_iff.1 hone
    rw [hy, List.map_singleton, List.sum_singleton, code_of_one hb hy]
    rfl

end Sys2Proof.Machine
end

section
/-! PROOFS. The encoder (spec/43_encoder.md): what ENCODE and COMPRESS write (O30, O35, O38, O39), which error they report
first and what it leaves (O32, O33, O36, O37), and the payload in chunks (O34). -/

namespace Sys2Proof.Machine

/-! ### A state with its tables changed

COMPRESS runs the encode stage on such a state, while its statements speak of the state before it. -/

section
variable {s u : State}

theorem Pre.sourceReadable (hu : Pre s u) {n : Nat} (h : SourceReadable s n) : SourceReadable u n := by
  unfold SourceReadable
  rwa [hu.ck.platform, hu.ck.srcAddr]

theorem Pre.windowWritable (hu : Pre s u) {n : Nat} (h : WindowWritable s n) : WindowWritable u n := by
  unfold WindowWritable
  rwa [hu.ck.platform, hu.ck.dstAddr]

theorem Pre.sourceBytes_eq (hu : Pre s u) : sourceBytes u = sourceBytes s := by
  rw [sourceBytes, hu.mem, hu.ck.srcAddr, hu.ck.srcLen, sourceBytes]

theorem Pre.encodedBits_eq (hu : Pre s u) : encodedBits u = sourceBits u.code (sourceBytes s) := by
  rw [encodedBits, hu.sourceBytes_eq]

theorem Pre.encodedBytes_eq (hu : Pre s u) : encodedBytes u = container s.srcLen u.freq u.code (sourceBytes s) := by
  rw [encodedBytes, hu.sourceBytes_eq, hu.ck.srcLen]

theorem Pre.stopsAt (hu : Pre s u) {p : Nat} {e : CmdError} (h : StopsAt s p e) : StopsAt u p e where
  below := hu.windowWritable h.below
  stop := by
    rw [hu.ck.dstCap, hu.ck.dstAddr, hu.ck.platform]
    exact h.stop

end

/-! ### The encode stage under some tables (R220, R226) -/

/-- `t` is a completion without an error: the container of the source range of `s` under the counters `f` and the codes
`code` stands at the front of the window, and the other bytes of memory are those of `s` (R226). -/
structure WroteContainer (s t : State) (f : Table Word) (code : Byte → Code) : Prop where
  completed : CompletedOk t (BitVec.ofNat 32 (1028 + ceil8 (sourceBits code (sourceBytes s)).length))
    (BitVec.ofNat 64 (sourceBits code (sourceBytes s)).length)
  bytes : bytesAt t.mem s.dstAddr (1028 + ceil8 (sourceBits code (sourceBytes s)).length) =
    container s.srcLen f code (sourceBytes s)
  memory : MemoryKeptPast s t (1028 + ceil8 (sourceBits code (sourceBytes s)).length)

/-- With readable, coded source bytes and room in a writable window, the encode stage writes the container. -/
theorem Pre.finish_writes {s u : State} (hu : Pre s u) (hread : SourceReadable s s.srcLen.toNat)
    (hcode : ∀ x ∈ sourceBytes s, u.code x ≠ [])
    (hcap : 1028 + ceil8 (sourceBits u.code (sourceBytes s)).length ≤ s.dstCap.toNat)
    (hwrite : WindowWritable s (1028 + ceil8 (sourceBits u.code (sourceBytes s)).length)) :
    WroteContainer s (encodeFinish u) u.freq u.code := by
  obtain ⟨k, hfin, hk⟩ := finish_ok u (by rw [hu.ck.srcLen]; exact hu.sourceReadable hread)
    (by rwa [hu.sourceBytes_eq]) (by rwa [hu.encodedBits_eq, hu.ck.dstCap])
    (by rw [hu.encodedBits_eq]; exact hu.windowWritable hwrite)
  rw [hu.encodedBits_eq] at hfin
  rw [hu.encodedBytes_eq] at hk
  have hsink := sink_transfer hk hu.mem hu.ck.platform hu.ck.dstAddr hu.ck.dstCap
  have hmem : (encodeFinish u).mem = k.mem := by rw [hfin, State.succeed_mem, State.withMem_mem]
  have hlen := length_container s.srcLen u.freq u.code (sourceBytes s)
  refine ⟨?_, ?_, ?_⟩
  · rw [hfin]
    exact completedOk_succeed _ _ _
  · rw [hmem, ← hlen]
    exact sinkHolds_bytes hsink
  · rw [← hlen]
    exact memoryKeptPast_of hsink _ hmem

theorem finish_reports {u : State} {e : CmdError} (h : encodeStage u = .error e) : CompletedWith (encodeFinish u) e := by
  rw [finish_error h]
  exact completedWith_failWindow u e

/-- The whole container is written once no source byte is left (R225). -/
theorem writtenAfter_all (s : State) : writtenAfter s s.srcLen.toNat = 1028 + ceil8 (encodedBits s).length := by
  rw [writtenAfter, if_pos rfl, encodedBits, sourceBytes]

/-- Before the first source byte just the header is written (R220). -/
theorem writtenAfter_zero (s : State) : writtenAfter s 0 = 1028 := by
  simp [writtenAfter, bytesAt, sourceBits, ceil8]

/-- Writing that stops inside the container of a readable, coded source ends the encode stage in that error. -/
theorem Pre.finish_stops {s u : State} (hu : Pre s u) (hread : SourceReadable s s.srcLen.toNat)
    (hcode : ∀ x ∈ sourceBytes s, u.code x ≠ []) {p : Nat} {e : CmdError} (h : StopsAt s p e)
    (hp : p < 1028 + ceil8 (sourceBits u.code (sourceBytes s)).length) : CompletedWith (encodeFinish u) e := by
  refine finish_reports (encodeStage_stops (j := u.srcLen.toNat) le_rfl ?_ ?_ (hu.stopsAt h) ?_)
  · rw [hu.ck.srcLen]
    exact hu.sourceReadable hread
  · rw [← sourceBytes, hu.sourceBytes_eq]
    exact hcode
  · rwa [writtenAfter_all, hu.encodedBits_eq]

/-! ### ENCODE (R221) -/

theorem encodeDone_of_fits {s : State} (hsrc : SourceFits s) (hwin : WindowFits s) : encodeDone s = encodeFinish s := by
  rcases encodeDone_cases s with ⟨h, -⟩ | ⟨-, h, -⟩ | ⟨-, -, h⟩
  · exact absurd hsrc h
  · exact absurd hwin h
  · exact h

theorem exec_encode_of_fits {s : State} (hfree : HazardFree .encode s) (hsrc : SourceFits s) (hwin : WindowFits s) :
    exec .encode s = .next (encodeFinish s) :=
  exec_next.2 ⟨hfree, (encodeDone_of_fits hsrc hwin).symm⟩

theorem tablesKept_failWindow (s : State) (e : CmdError) : TablesKept s (s.failWindow e) := ⟨rfl, rfl⟩

/-- ENCODE keeps FREQ and the tree, whatever it ends in (R221). -/
theorem tablesKept_encodeDone (s : State) : TablesKept s (encodeDone s) := by
  rcases encodeDone_cases s with ⟨-, h⟩ | ⟨-, -, h⟩ | ⟨-, -, h⟩ <;> rw [h]
  · exact tablesKept_failWindow s _
  · exact tablesKept_failWindow s _
  · exact tables_finish s

/-- Settles O30: the encode stage on the state as it stands. -/
theorem encodeWritesContainer : Obligations.EncodeWritesContainer := by
  intro s hfree hsrc hwin hread hcode hcap hwrite
  obtain ⟨hok, hbytes, hmem⟩ := (Pre.refl s).finish_writes hread hcode hcap hwrite
  exact ⟨_, exec_encode_of_fits hfree hsrc hwin, hok, ceil8_bound hcap s.dstCap.isLt, hbytes, hmem, tables_finish s,
    controlKept_finish s⟩

/-- Settles O33: at byte `j` the stage reads, or it has stopped at a byte of the window it could not write. -/
theorem encodeReportsFirstError : Obligations.EncodeReportsFirstError := by
  intro s j hfree hsrc hwin hj hread hcode
  refine ⟨_, exec_encode_of_fits hfree hsrc hwin, fun hlt hcap hwrite => ?_, fun hfull hwrite => ?_,
    fun k hk hcap hwrite hbad => ?_⟩
  · obtain ⟨hio, hunknown⟩ := encodeStage_at hlt hread hcode hcap hwrite
    exact ⟨fun hbad => finish_reports (hio hbad), fun hok hnone => finish_reports (hunknown hok hnone)⟩
  · exact finish_reports (encodeStage_stops hj hread hcode (stopsAt_full hwrite) hfull)
  · exact finish_reports (encodeStage_stops hj hread hcode (stopsAt_bad hwrite hcap hbad) hk)

/-- Settles O32: the range checks, then the first error before source byte 0, behind the header. -/
theorem encodeErrors : Obligations.EncodeErrors := by
  intro s hfree
  have hex : exec .encode s = .next (encodeDone s) := exec_next.2 ⟨hfree, rfl⟩
  obtain ⟨-, -, -, hck, -⟩ := commandEndsInCompletion .encode s _ hex
  refine ⟨_, hex, tablesKept_encodeDone s, hck, (ends .encode s).memKept, ?_⟩
  rcases encodeDone_cases s with ⟨hwrap, h⟩ | ⟨hsrc, hwrap, h⟩ | ⟨hsrc, hwin, -⟩
  · rw [h]
    exact ⟨fun _ => completedWith_failWindow s _, fun hsrc => absurd hsrc hwrap, fun hsrc => absurd hsrc hwrap,
      fun _ hsrc => absurd hsrc hwrap, fun hsrc => absurd hsrc hwrap⟩
  · rw [h]
    exact ⟨fun hsrc' => absurd hsrc hsrc', fun _ _ => completedWith_failWindow s _, fun _ hwin => absurd hwin hwrap,
      fun _ _ hwin => absurd hwin hwrap, fun _ hwin => absurd hwin hwrap⟩
  · obtain ⟨t, ht, hat, hfull, hbad⟩ := encodeReportsFirstError s 0 hfree hsrc hwin (Nat.zero_le _)
      (fun k hk => absurd hk (Nat.not_lt_zero k)) (fun x hx => absurd hx List.not_mem_nil)
    obtain ⟨-, rfl⟩ := exec_next.1 ht
    rw [writtenAfter_zero] at hat hfull hbad
    refine ⟨fun h => absurd hsrc h, fun _ h => absurd hwin h, fun _ _ hcap hwrite => hfull hcap hwrite,
      fun k _ _ hk hcap hwrite hno => hbad k hk hcap hwrite hno, fun _ _ hcap hwrite hpos hok hnone => ?_⟩
    obtain ⟨-, hunknown⟩ := hat hpos hcap hwrite
    rw [BitVec.add_zero] at hunknown
    exact hunknown hok (code_of_tree_none (Option.isNone_iff_eq_none.1 (Option.isSome_eq_false_iff.1 hnone)) _)

/-! ### The payload in chunks (R227) -/

/-- Stitching goes on from the packed bits of the chunks before (R227 steps 3 and 5). -/
theorem stitchChunks_packBits (code : Byte → Code) (bits : Code) (chunks : List (List Byte)) :
    stitchChunks code bits.length (packBits bits) chunks = packBits (bits ++ sourceBits code chunks.flatten) := by
  induction chunks generalizing bits with
  | nil => simp [stitchChunks, sourceBits]
  | cons chunk rest ih =>
    rw [stitchChunks, renderChunk, splice_packBits, ← length_sourceBits, ← List.length_append, ih, List.flatten_cons,
      sourceBits_append, List.append_assoc]

/-- Settles O34: the stitching from no bits on. -/
theorem parallelPayloadIsSequential : Obligations.ParallelPayloadIsSequential :=
  fun code chunks => stitchChunks_packBits code [] chunks

/-! ### The tables of COMPRESS (R228, R229) -/

theorem srcLen_pos_iff {s : State} : 0 < s.srcLen.toNat ↔ s.srcLen ≠ 0#32 := by
  rw [Nat.pos_iff_ne_zero, ne_eq, ne_eq, ← BitVec.toNat_inj, BitVec.toNat_zero]

theorem sourceBytes_eq_nil {s : State} (h0 : s.srcLen = 0#32) : sourceBytes s = [] :=
  List.eq_nil_of_length_eq_zero (by rw [length_sourceBytes, h0, BitVec.toNat_zero])

theorem sourceBytes_ne_nil {s : State} (hpos : 0 < s.srcLen.toNat) : sourceBytes s ≠ [] :=
  List.length_pos_iff.1 (by rwa [length_sourceBytes])

theorem ceil8_zero : ceil8 0 = 0 := rfl

/-- An empty source has no payload bits (R230). -/
theorem sourceBits_empty {s : State} (h0 : s.srcLen = 0#32) (code : Byte → Code) :
    sourceBits code (sourceBytes s) = [] := by
  rw [sourceBytes_eq_nil h0, sourceBits, List.flatMap_nil]

/-- The counts of a source that is not empty build a tree (R229). -/
theorem exists_sourceTree {s : State} (hpos : 0 < s.srcLen.toNat) : ∃ T, buildTree (countBytes (sourceBytes s)) = .ok T :=
  build_counts (length_sourceBytes_lt s) (sourceBytes_ne_nil hpos)

theorem compressTables_freq (s : State) : (compressTables s).freq = countBytes (sourceBytes s) := by
  by_cases h0 : s.srcLen = 0#32
  · rw [compressTables_zero h0, State.withFreq_freq]
  · obtain ⟨T, hT⟩ := exists_sourceTree (srcLen_pos_iff.2 h0)
    rw [compressTables_built (srcLen_pos_iff.2 h0) hT, State.withTree_freq, State.withFreq_freq]

theorem compressTables_tree {s : State} {T : Tree} (hpos : 0 < s.srcLen.toNat)
    (hT : buildTree (countBytes (sourceBytes s)) = .ok T) : (compressTables s).tree = some T := by
  rw [compressTables_built hpos hT, State.withTree_tree]

theorem compressTables_code {s : State} {T : Tree} (hpos : 0 < s.srcLen.toNat)
    (hT : buildTree (countBytes (sourceBytes s)) = .ok T) : (compressTables s).code = entry T.code := by
  rw [compressTables_built hpos hT, State.withTree_code]

theorem compressTables_tree_zero {s : State} (h0 : s.srcLen = 0#32) : (compressTables s).tree = none := by
  rw [compressTables_zero h0, State.withFreq_tree]

/-- Every source byte has a code under the tree of the counts it is one of (R229). -/
theorem compressTables_coded (s : State) : ∀ x ∈ sourceBytes s, (compressTables s).code x ≠ [] := by
  intro x hx
  have hpos : 0 < s.srcLen.toNat := by
    rw [← length_sourceBytes]
    exact List.length_pos_of_mem hx
  obtain ⟨T, hT⟩ := exists_sourceTree hpos
  rw [compressTables_code hpos hT]
  exact present_code hT (count_pos (length_sourceBytes_lt s) hx)

/-- The length of COMPRESS's container is the one under the tables it builds. -/
theorem CompressedLength.eq {s : State} {n : Nat} (h : CompressedLength s n) :
    n = 1028 + ceil8 (sourceBits (compressTables s).code (sourceBytes s)).length := by
  rcases h with ⟨h0, rfl⟩ | ⟨h0, T, hT, rfl⟩
  · rw [sourceBits_empty h0, List.length_nil, ceil8_zero]
  · rw [compressTables_code (srcLen_pos_iff.2 h0) hT]

/-! ### COMPRESS (R228) -/

theorem compressDone_of_readable {s : State} (hsrc : SourceFits s) (hwin : WindowFits s)
    (hread : SourceReadable s s.srcLen.toNat) : compressDone s = encodeFinish (compressTables s) := by
  rcases compressDone_cases s with ⟨h, -⟩ | ⟨-, h, -⟩ | ⟨-, -, k, hk, -, hbad, -⟩ | ⟨-, -, -, h⟩
  · exact absurd hsrc h
  · exact absurd hwin h
  · exact absurd hread (not_readable hk hbad)
  · exact h

theorem exec_compress_of_readable {s : State} (hfree : HazardFree .compress s) (hsrc : SourceFits s) (hwin : WindowFits s)
    (hread : SourceReadable s s.srcLen.toNat) : exec .compress s = .next (encodeFinish (compressTables s)) :=
  exec_next.2 ⟨hfree, (compressDone_of_readable hsrc hwin hread).symm⟩

/-- COMPRESS of a source that reads leaves its counts in FREQ. -/
theorem finish_compressTables_freq (s : State) :
    (encodeFinish (compressTables s)).freq = countBytes (sourceBytes s) :=
  (tables_finish (compressTables s)).1.trans (compressTables_freq s)

/-- COMPRESS of a source that reads writes the container under the tables it built. -/
theorem compressTables_writes {s : State} (hread : SourceReadable s s.srcLen.toNat)
    (hcap : 1028 + ceil8 (sourceBits (compressTables s).code (sourceBytes s)).length ≤ s.dstCap.toNat)
    (hwrite : WindowWritable s (1028 + ceil8 (sourceBits (compressTables s).code (sourceBytes s)).length)) :
    WroteContainer s (encodeFinish (compressTables s)) (countBytes (sourceBytes s)) (compressTables s).code := by
  have h := (pre_compressTables s).1.finish_writes hread (compressTables_coded s) hcap hwrite
  rwa [compressTables_freq] at h

/-- Settles O35: the encode stage under the tree of the counts. -/
theorem compressWritesContainer : Obligations.CompressWritesContainer := by
  intro s T hfree hsrc hwin hread hpos hT hcap hwrite
  obtain ⟨hpre, -⟩ := pre_compressTables s
  have hcode := compressTables_code hpos hT
  obtain ⟨hok, hbytes, hmem⟩ := compressTables_writes hread (by rwa [hcode]) (by rwa [hcode])
  rw [hcode] at hok hbytes hmem
  exact ⟨_, exec_compress_of_readable hfree hsrc hwin hread, hok, hbytes, hmem, finish_compressTables_freq s,
    (tables_finish _).2.trans (compressTables_tree hpos hT), hpre.ck.trans (controlKept_finish _)⟩

theorem sourceReadable_empty {s : State} (h0 : s.srcLen = 0#32) : SourceReadable s s.srcLen.toNat := by
  rw [h0]
  exact fun k hk => absurd hk (Nat.not_lt_zero k)

theorem sourceFits_empty {s : State} (h0 : s.srcLen = 0#32) : SourceFits s := by
  unfold SourceFits
  rw [h0, BitVec.toNat_zero]
  exact s.srcAddr.isLt.le

/-- The container of an empty source is its header (R230). -/
theorem WroteContainer.of_empty {s t : State} {f : Table Word} {code : Byte → Code} (h : WroteContainer s t f code)
    (h0 : s.srcLen = 0#32) :
    CompletedOk t 1028#32 0#64 ∧ bytesAt t.mem s.dstAddr 1028 = headerBytes 0#32 f ∧ MemoryKeptPast s t 1028 := by
  obtain ⟨hok, hbytes, hmem⟩ := h
  rw [container] at hbytes
  rw [sourceBits_empty h0, List.length_nil] at hok hbytes hmem
  rw [packBits_nil, List.append_nil, h0] at hbytes
  exact ⟨hok, hbytes, hmem⟩

/-- Settles O38: with no source byte the payload has no bits, and the counts of COMPRESS are zeros. -/
theorem emptySourceGivesHeaderOnly : Obligations.EmptySourceGivesHeaderOnly := by
  intro s h0 hwin hcap hwrite
  have hsrc := sourceFits_empty h0
  have hread := sourceReadable_empty h0
  have hlen : ∀ code, 1028 + ceil8 (sourceBits code (sourceBytes s)).length = 1028 := fun code => by
    rw [sourceBits_empty h0, List.length_nil, ceil8_zero]
  refine ⟨fun hfree => ?_, fun hfree => ?_⟩
  · have hcoded : ∀ x ∈ sourceBytes s, s.code x ≠ [] := by
      rw [sourceBytes_eq_nil h0]
      exact fun x hx => absurd hx List.not_mem_nil
    obtain ⟨hok, hbytes, hmem⟩ :=
      ((Pre.refl s).finish_writes hread hcoded (by rwa [hlen]) (by rwa [hlen])).of_empty h0
    exact ⟨_, exec_encode_of_fits hfree hsrc hwin, hok, hbytes, hmem, tables_finish s⟩
  · have hzero : ∀ x, entry (countBytes (sourceBytes s)) x = 0#32 := fun x => by
      rw [sourceBytes_eq_nil h0, countBytes, entry_tabulate, List.count_nil]
    obtain ⟨hok, hbytes, hmem⟩ := (compressTables_writes hread (by rwa [hlen]) (by rwa [hlen])).of_empty h0
    rw [header_zero _ hzero] at hbytes
    refine ⟨_, exec_compress_of_readable hfree hsrc hwin hread, hok, hbytes, hmem, fun x => ?_, ?_⟩
    · rw [finish_compressTables_freq, hzero]
    · rw [State.treeValid, (tables_finish _).2, compressTables_tree_zero h0, Option.isSome_none]

/-- The bytes behind the front of a range. -/
theorem bytesAt_behind {m : Memory} {a : Word} {l r : List Byte} {i j : Nat} (hl : l.length = i)
    (h : bytesAt m a (i + j) = l ++ r) : bytesAt m (a + BitVec.ofNat 32 i) j = r := by
  rw [bytesAt_append] at h
  exact List.append_inj_right h (by rw [length_bytesAt, hl])

/-- The only symbol with a count is the one repeated. -/
theorem present_replicate {n : Nat} (v : Byte) (hn : n < 2 ^ 32) (hpos : 0 < n) :
    present (countBytes (List.replicate n v)) = [v] := by
  refine present_single (count_pos (by rwa [List.length_replicate]) (List.mem_replicate.2 ⟨hpos.ne', rfl⟩)) fun y hy => ?_
  rw [countBytes, entry_tabulate, List.count_eq_zero_of_not_mem fun hmem => hy (List.eq_of_mem_replicate hmem)]

theorem singleTree_code_self (v : Byte) : entry (singleTree v).code v = [false] := by
  rw [singleTree, entry_tabulate, if_pos rfl]

/-- One bit 0 for each copy (R232). -/
theorem sourceBits_replicate {code : Byte → Code} {v : Byte} (h : code v = [false]) (n : Nat) :
    sourceBits code (List.replicate n v) = List.replicate n false := by
  rw [sourceBits, List.flatMap_replicate, h, List.flatten_replicate_singleton]

/-- Settles O39: the tree of the counts is the single-symbol tree of `v`. -/
theorem compressOneRepeatedByte : Obligations.CompressOneRepeatedByte := by
  intro s v hfree hsrc hwin hread hpos hcopies hcap hwrite
  have hT : buildTree (countBytes (sourceBytes s)) = .ok (singleTree v) := by
    rw [hcopies]
    exact build_single (present_replicate v s.srcLen.isLt hpos)
  have hcode := singleTree_code_self v
  have hbits : sourceBits (entry (singleTree v).code) (sourceBytes s) = List.replicate s.srcLen.toNat false := by
    rw [hcopies, sourceBits_replicate hcode]
  have hlen : (sourceBits (entry (singleTree v).code) (sourceBytes s)).length = s.srcLen.toNat := by
    rw [hbits, List.length_replicate]
  obtain ⟨t, hex, hok, hbytes, -, hfreq, htree, -⟩ := compressWritesContainer s (singleTree v) hfree hsrc hwin hread hpos hT
    (by rwa [hlen]) (by rwa [hlen])
  rw [hlen] at hok hbytes
  refine ⟨t, hex, ?_, BitVec.eq_of_toNat_eq (tree_readBack htree).2, ?_, ?_, ?_, ?_⟩
  · apply BitVec.eq_of_toNat_eq
    rw [hfreq, count_sourceBytes, hcopies, List.count_replicate_self]
  · rw [State.code, htree]
    exact hcode
  · have := s.srcLen.isLt
    rw [hok.bits, BitVec.toNat_ofNat, Nat.mod_eq_of_lt (by omega)]
  · have := s.dstCap.isLt
    rw [hok.outLen, BitVec.toNat_ofNat, Nat.mod_eq_of_lt (by omega)]
  · rw [bytesAt_behind (length_headerBytes _ _) hbytes, hbits, packBits_replicate]

/-! ### The errors of COMPRESS (R229, R288) -/

/-- A completed command reports no error or one of its row of R288. -/
theorem Ends.err_listed {i : Instr} {s t : State} (h : Ends i s t) :
    (t.err, t.errSub) = (0#4, 0#4) ∨ (t.err, t.errSub) ∈ errorsOf i := by
  cases h with
  | fail u e hu hw he ht hT hf =>
    rw [ht]
    exact .inr he
  | failWindow u e hu hw he ht hT hf =>
    rw [ht]
    exact .inr he
  | ok u l k b o hu hw hk hwf ht ho hT hf =>
    rw [ht]
    exact .inl rfl

theorem failWindow_errors (s : State) (e : CmdError) :
    ((s.failWindow e).err, (s.failWindow e).errSub) = (errNumber e.cause, errSubNumber e.cause) := rfl

/-- Once the source is counted COMPRESS can fail in its writes alone (R229). -/
theorem compressTables_errors {s : State} (hread : SourceReadable s s.srcLen.toNat) :
    ((encodeFinish (compressTables s)).err, (encodeFinish (compressTables s)).errSub) ∈
      [(0#4, 0#4), (1#4, 2#4), (1#4, 3#4)] := by
  rcases encodeFinish_cases (compressTables s) with ⟨e, he, h⟩ | ⟨k, b, -, h⟩ <;> rw [h]
  · rw [failWindow_errors]
    rcases compress_stage_error hread he with hc | hc <;> rw [hc] <;> decide
  · exact List.mem_cons_self

/-- Settles O36, by the row of R288 and, for READ, by the ends of COMPRESS. -/
theorem compressAlwaysHasCodes : Obligations.CompressAlwaysHasCodes := by
  refine ⟨fun s _ hpos => exists_sourceTree hpos, fun s t ht => ?_⟩
  obtain ⟨-, rfl⟩ := exec_next.1 ht
  have hlisted := (ends .compress s).err_listed
  have hrow : ∀ p ∈ (0#4, 0#4) :: errorsOf .compress, p.1 ≠ 2#4 ∧ p.1 ≠ 3#4 ∧ p ≠ (6#4, 4#4) := by simp [errorsOf]
  obtain ⟨h2, h3, h64⟩ := hrow _ (List.mem_cons.2 hlisted)
  refine ⟨h2, h3, h64, fun hio => ?_⟩
  rw [doneState] at hio ⊢
  rcases compressDone_cases s with ⟨-, h⟩ | ⟨-, -, h⟩ | ⟨-, -, k, hk, -, hbad, h⟩ | ⟨-, -, hread, h⟩ <;> rw [h] at hio ⊢
  · exact absurd hio (by simp [failWindow_errors, errNumber])
  · exact absurd hio (by simp [failWindow_errors, errNumber])
  · exact ⟨tablesKept_failWindow s _, not_readable hk hbad⟩
  · have := compressTables_errors hread
    rw [hio] at this
    exact absurd this (by decide)

/-- Settles O37, by the four ends of COMPRESS; the premises of the other clauses fail in each. -/
theorem compressFailureSurvivors : Obligations.CompressFailureSurvivors := by
  intro s hfree
  have hex : exec .compress s = .next (compressDone s) := exec_next.2 ⟨hfree, rfl⟩
  obtain ⟨-, -, -, hck, hout, -⟩ := commandEndsInCompletion .compress s _ hex
  refine ⟨_, hex, (ends .compress s).memKept, hck, hout, ?_⟩
  rcases compressDone_cases s with ⟨hwrap, h⟩ | ⟨hsrc, hwrap, h⟩ | ⟨hsrc, hwin, j, hj, hlow, hbad, h⟩ |
    ⟨hsrc, hwin, hread, h⟩ <;> rw [h]
  · exact ⟨fun _ => ⟨completedWith_failWindow s _, tablesKept_failWindow s _⟩, fun hsrc => absurd hsrc hwrap,
      fun _ hsrc => absurd hsrc hwrap, fun hsrc => absurd hsrc hwrap⟩
  · exact ⟨fun hsrc' => absurd hsrc hsrc', fun _ _ => ⟨completedWith_failWindow s _, tablesKept_failWindow s _⟩,
      fun _ _ hwin => absurd hwin hwrap, fun _ hwin => absurd hwin hwrap⟩
  · refine ⟨fun hsrc' => absurd hsrc hsrc', fun _ hwin' => absurd hwin hwin', fun k _ _ _ hlow' hbad' => ?_,
      fun _ _ hread => absurd hread (not_readable hj hbad)⟩
    obtain rfl := lowest_unreadable hlow hbad hlow' hbad'
    exact ⟨completedWith_failWindow s _, tablesKept_failWindow s _⟩
  · obtain ⟨hpre, -⟩ := pre_compressTables s
    have hfreq := finish_compressTables_freq s
    have htree := (tables_finish (compressTables s)).2
    refine ⟨fun hsrc' => absurd hsrc hsrc', fun _ hwin' => absurd hwin hwin',
      fun k _ _ hk _ hbad => absurd hread (not_readable hk hbad), fun _ _ _ => ⟨hfreq, fun herr => ?_, fun h0 => ?_,
      fun h0 => ?_, fun n hn => ⟨fun hfull hwrite => ?_, fun k hk hcap hwrite hbad => ?_⟩⟩⟩
    · have := compressTables_errors hread
      simpa [herr] using this
    · rw [htree, compressTables_tree_zero h0]
    · obtain ⟨T, hT⟩ := exists_sourceTree (srcLen_pos_iff.2 h0)
      exact ⟨T, by rw [hfreq, hT], by rw [htree, compressTables_tree (srcLen_pos_iff.2 h0) hT]⟩
    · rw [hn.eq] at hfull
      exact hpre.finish_stops hread (compressTables_coded s) (stopsAt_full hwrite) hfull
    · rw [hn.eq] at hk
      exact hpre.finish_stops hread (compressTables_coded s) (stopsAt_bad hwrite hcap hbad) hk

end Sys2Proof.Machine
end

section
/-! PROOFS. The decoder (spec/44_decoder.md): a container that decodes and one with surplus bytes (O40, O41), the checks
before the walk (O42, O43), the errors of the walk (O44, O45), a truncated container (O46), and the round trip (O47). -/

namespace Sys2Proof.Machine

/-! ### The end of DECODE -/

/-- DECODE that breaks no hazard rule completes, and keeps the control registers and the memory outside its window. -/
theorem exec_decode {s : State} (hfree : HazardFree .decode s) :
    exec .decode s = .next (decodeDone s) ∧ ControlKept s (decodeDone s) ∧
      MemoryKeptOutsideWindow s (decodeDone s) := by
  have hex : exec .decode s = .next (decodeDone s) := exec_next.2 ⟨hfree, rfl⟩
  obtain ⟨-, -, -, hck, -⟩ := commandEndsInCompletion .decode s _ hex
  exact ⟨hex, hck, (ends .decode s).memKept⟩

/-- A failure that leaves the tables alone reports its record. -/
theorem failWindow_reports (s : State) (e : CmdError) :
    CompletedWith (s.failWindow e) e ∧ TablesKept s (s.failWindow e) :=
  ⟨completedWith_failWindow s e, tablesKept_failWindow s e⟩

/-- Settles O42, by the ends of DECODE before its header is read; the premises of the other clauses fail in each. -/
theorem decodeStopsBeforeHeaderIsRead : Obligations.DecodeStopsBeforeHeaderIsRead := by
  intro s hfree
  obtain ⟨hex, hck, hmem⟩ := exec_decode hfree
  refine ⟨_, hex, hck, hmem, ?_⟩
  rcases decodeDone_cases s with ⟨hwrap, h⟩ | ⟨hsrc, hwrap, h⟩ | ⟨hsrc, hwin, hshort, h⟩ |
    ⟨hsrc, hwin, hlong, j, -, hlow, hbad, h⟩ | ⟨hsrc, hwin, hlong, hread, -⟩
  · rw [h]
    exact ⟨fun _ => failWindow_reports s _, fun hsrc => absurd hsrc hwrap, fun hsrc => absurd hsrc hwrap,
      fun _ hsrc => absurd hsrc hwrap⟩
  · rw [h]
    exact ⟨fun hsrc' => absurd hsrc hsrc', fun _ _ => failWindow_reports s _, fun _ hwin => absurd hwin hwrap,
      fun _ _ hwin => absurd hwin hwrap⟩
  · rw [h]
    exact ⟨fun hsrc' => absurd hsrc hsrc', fun _ hwin' => absurd hwin hwin', fun _ _ _ => failWindow_reports s _,
      fun _ _ _ hlong => absurd hlong (Nat.not_le.2 hshort)⟩
  · rw [h]
    refine ⟨fun hsrc' => absurd hsrc hsrc', fun _ hwin' => absurd hwin hwin',
      fun _ _ hshort => absurd hlong (Nat.not_le.2 hshort), fun k _ _ _ _ hlow' hbad' => ?_⟩
    obtain rfl := lowest_unreadable hlow hbad hlow' hbad'
    exact failWindow_reports s _
  · exact ⟨fun hsrc' => absurd hsrc hsrc', fun _ hwin' => absurd hwin hwin',
      fun _ _ hshort => absurd hlong (Nat.not_le.2 hshort),
      fun k _ _ _ hk _ hbad => absurd hread (not_readable hk hbad)⟩

/-! ### The operands at a container -/

/-- The source range is a container of symbol count `n` and table `f` with its payload, both ranges fit, and the header
reads: what DECODE needs to get past its header (R250 to R252). -/
structure AtContainer (s : State) (n : Word) (f : Table Word) (payload : List Byte) : Prop where
  source : SourceFits s
  window : WindowFits s
  header : SourceReadable s 1028
  bytes  : sourceBytes s = headerBytes n f ++ payload

/-- A source range that reads as a whole reads its header. -/
theorem atContainer_of_readable {s : State} {n : Word} {f : Table Word} {payload : List Byte} (hsrc : SourceFits s)
    (hwin : WindowFits s) (hread : SourceReadable s s.srcLen.toNat)
    (hbytes : sourceBytes s = headerBytes n f ++ payload) : AtContainer s n f payload where
  source := hsrc
  window := hwin
  header k hk := hread k (by have := (source_split (length_headerBytes n f) hbytes).1; omega)
  bytes := hbytes

/-- Payload byte `q` stands behind the header. -/
theorem payloadBase_add (s : State) (q : Nat) :
    payloadBase s + BitVec.ofNat 32 q = s.srcAddr + BitVec.ofNat 32 (1028 + q) := by
  rw [payloadBase, BitVec.ofNat_add, BitVec.add_assoc]

theorem withTables_freq (s : State) (f : Table Word) (T : Tree) : (withTables s f T).freq = f := by
  rw [withTables, State.withTree_freq, State.withFreq_freq]

theorem withTables_tree (s : State) (f : Table Word) (T : Tree) : (withTables s f T).tree = some T := by
  rw [withTables, State.withTree_tree]

/-- The walk changes neither FREQ nor the tree, whatever it ends in (R252, R256). -/
theorem tablesKept_decodePayload (s : State) (T : Tree) (n : Word) : TablesKept s (decodePayload s T n) := by
  rcases decodePayload_cases s T n with ⟨-, h⟩ | ⟨-, e, -, h⟩ | ⟨-, pos, m, -, -, h⟩ | ⟨-, pos, m, -, -, h⟩ <;> rw [h]
  · exact tablesKept_failWindow s _
  · exact tablesKept_failWindow s e
  · exact tablesKept_failWindow s _
  · exact ⟨rfl, rfl⟩

/-- More symbols than the window has bytes (R255). -/
theorem decodePayload_full {s : State} {T : Tree} {n : Word} (h : s.dstCap.toNat < n.toNat) :
    decodePayload s T n = s.failWindow ⟨.ioSinkFull, s.dstAddr + s.dstCap, 0#32⟩ := by
  rw [decodePayload, if_pos h]

/-- An error of the loop is the error of the command. -/
theorem decodePayload_error {s : State} {T : Tree} {n : Word} {e : CmdError} (hcap : n.toNat ≤ s.dstCap.toNat)
    (h : decodeLoop s T n.toNat 0 0 s.mem = .error e) : decodePayload s T n = s.failWindow e := by
  rw [decodePayload, if_neg (Nat.not_lt.2 hcap), h]

/-- All symbols are decoded, and no payload byte is left (R262). -/
theorem decodePayload_exact {s : State} {T : Tree} {n : Word} {pos : Nat} {mem : Memory}
    (hcap : n.toNat ≤ s.dstCap.toNat) (h : decodeLoop s T n.toNat 0 0 s.mem = .ok (pos, mem))
    (hlen : s.srcLen.toNat - 1028 = ceil8 pos) :
    decodePayload s T n = (s.withMem mem).succeed n (BitVec.ofNat 64 pos) := by
  rw [decodePayload, if_neg (Nat.not_lt.2 hcap), h]
  exact if_neg (not_not.2 hlen)

/-- All symbols are decoded, and payload bytes are left (R260). -/
theorem decodePayload_surplus {s : State} {T : Tree} {n : Word} {pos : Nat} {mem : Memory}
    (hcap : n.toNat ≤ s.dstCap.toNat) (h : decodeLoop s T n.toNat 0 0 s.mem = .ok (pos, mem))
    (hlen : s.srcLen.toNat - 1028 ≠ ceil8 pos) :
    decodePayload s T n = s.failWindow ⟨.trailingBytes, payloadBase s + BitVec.ofNat 32 (ceil8 pos), n⟩ := by
  rw [decodePayload, if_neg (Nat.not_lt.2 hcap), h]
  exact if_pos hlen

section
variable {s : State} {n : Word} {f : Table Word} {T : Tree} {payload : List Byte}

theorem AtContainer.srcLen_eq (h : AtContainer s n f payload) : s.srcLen.toNat = 1028 + payload.length :=
  (source_split (length_headerBytes n f) h.bytes).1

theorem AtContainer.payload_length (h : AtContainer s n f payload) : s.srcLen.toNat - 1028 = payload.length := by
  have := h.srcLen_eq
  omega

theorem AtContainer.payloadBits_eq (h : AtContainer s n f payload) : payloadBits s = 8 * payload.length :=
  congrArg (8 * ·) h.payload_length

/-- Past its header DECODE is in one of five cases (R253 to R256). -/
theorem AtContainer.cases (h : AtContainer s n f payload) :
    (n = 0#32 ∧ payload ≠ [] ∧ decodeDone s = (s.withFreq f).failWindow ⟨.trailingBytes, payloadBase s, 0#32⟩) ∨
    (n = 0#32 ∧ payload = [] ∧ decodeDone s = (s.withFreq f).succeed 0#32 0#64) ∨
    (n ≠ 0#32 ∧ buildTree f = .overflow ∧
      decodeDone s = (s.withFreq f).failWindow ⟨.corruptWeightOverflow, s.srcAddr, 0#32⟩) ∨
    (n ≠ 0#32 ∧ buildTree f = .empty ∧ decodeDone s = (s.withFreq f).failWindow ⟨.emptyTable, s.srcAddr, 0#32⟩) ∨
    (n ≠ 0#32 ∧ ∃ T, buildTree f = .ok T ∧ decodeDone s = decodePayload (withTables s f T) T n) := by
  obtain ⟨hdone, -⟩ := decode_after_header h.source h.window h.header h.bytes
  have hcases := decodeContainer_cases s (headerBytes n f)
  rwa [headerWord_headerBytes, headerTable_headerBytes, h.payload_length, ne_eq, List.length_eq_zero_iff,
    ← hdone] at hcases

/-- A table that builds takes DECODE to the walk (R256). -/
theorem AtContainer.done_walk (h : AtContainer s n f payload) (hn : n ≠ 0#32) (hb : buildTree f = .ok T) :
    decodeDone s = decodePayload (withTables s f T) T n :=
  decode_payload h.source h.window h.header h.bytes hn hb

theorem AtContainer.tables (h : AtContainer s n f payload) (hn : n ≠ 0#32) (hb : buildTree f = .ok T) :
    (decodeDone s).freq = f ∧ (decodeDone s).tree = some T := by
  rw [h.done_walk hn hb]
  obtain ⟨hfreq, htree⟩ := tablesKept_decodePayload (withTables s f T) T n
  exact ⟨hfreq.trans (withTables_freq s f T), htree.trans (withTables_tree s f T)⟩

end

/-! ### The descriptor (R252 to R255) -/

theorem buildTree_of_overflow {f : Table Word} (h : freqSum f > 2 ^ 32 - 1) : buildTree f = .overflow := by
  rw [buildTree, if_pos h]

theorem buildTree_of_zero {f : Table Word} (h : ∀ x, entry f x = 0#32) : buildTree f = .empty := by
  rw [buildTree, if_neg (Nat.not_lt.2 (freqSum_le_of_zero h)), present_eq_nil.2 h]

/-- A failure before a tree is built leaves the header's table and no tree (R252). -/
theorem withFreq_failWindow_reports (s : State) (f : Table Word) (e : CmdError) :
    ((s.withFreq f).failWindow e).freq = f ∧ CompletedWith ((s.withFreq f).failWindow e) e ∧
      ((s.withFreq f).failWindow e).treeValid = false := by
  obtain ⟨hok, hfreq, htree⟩ := failWindow_reports (s.withFreq f) e
  refine ⟨hfreq.trans (State.withFreq_freq s f), hok, ?_⟩
  rw [State.treeValid, htree, State.withFreq_tree, Option.isSome_none]

/-- Settles O43, by the five cases behind the header; the premises of the other clauses fail in each. -/
theorem decodeChecksDescriptor : Obligations.DecodeChecksDescriptor := by
  intro s f n payload hfree hsrc hwin hread hbytes
  obtain ⟨hex, hck, hmem⟩ := exec_decode hfree
  have hat : AtContainer s n f payload := ⟨hsrc, hwin, hread, hbytes⟩
  refine ⟨_, hex, hck, hmem, ?_⟩
  rcases hat.cases with ⟨hn, hp, h⟩ | ⟨hn, hp, h⟩ | ⟨hn, hb, h⟩ | ⟨hn, hb, h⟩ | ⟨hn, T, hb, h⟩
  · rw [h]
    obtain ⟨hfreq, hreports⟩ := withFreq_failWindow_reports s f ⟨.trailingBytes, payloadBase s, 0#32⟩
    exact ⟨hfreq, fun _ hp' => absurd hp' hp, fun _ _ => hreports, fun hn' => absurd hn hn', fun hn' => absurd hn hn',
      fun T hn' => absurd hn hn'⟩
  · rw [h]
    obtain ⟨hok, htree, hfreq⟩ := withFreq_succeed_completes s f
    have hsame := (State.succeed_mem (s.withFreq f) 0#32 0#64).trans (State.withFreq_mem s f)
    exact ⟨hfreq, fun _ _ => ⟨hok, htree, hsame⟩, fun _ hp' => absurd hp hp', fun hn' => absurd hn hn',
      fun hn' => absurd hn hn', fun T hn' => absurd hn hn'⟩
  · rw [h]
    obtain ⟨hfreq, hreports⟩ := withFreq_failWindow_reports s f ⟨.corruptWeightOverflow, s.srcAddr, 0#32⟩
    exact ⟨hfreq, fun hn' => absurd hn' hn, fun hn' => absurd hn' hn, fun _ _ => hreports,
      fun _ hzero => BuildResult.noConfusion (hb.symm.trans (buildTree_of_zero hzero)),
      fun T _ hb' => BuildResult.noConfusion (hb.symm.trans hb')⟩
  · rw [h]
    obtain ⟨hfreq, hreports⟩ := withFreq_failWindow_reports s f ⟨.emptyTable, s.srcAddr, 0#32⟩
    exact ⟨hfreq, fun hn' => absurd hn' hn, fun hn' => absurd hn' hn,
      fun _ hover => BuildResult.noConfusion (hb.symm.trans (buildTree_of_overflow hover)), fun _ _ => hreports,
      fun T _ hb' => BuildResult.noConfusion (hb.symm.trans hb')⟩
  · obtain ⟨hfreq, htree⟩ := hat.tables hn hb
    refine ⟨hfreq, fun hn' => absurd hn' hn, fun hn' => absurd hn' hn,
      fun _ hover => BuildResult.noConfusion (hb.symm.trans (buildTree_of_overflow hover)),
      fun _ hzero => BuildResult.noConfusion (hb.symm.trans (buildTree_of_zero hzero)), fun T' _ hb' => ?_⟩
    obtain rfl : T = T' := BuildResult.ok.inj (hb.symm.trans hb')
    refine ⟨htree, fun hfull => ?_⟩
    rw [h, decodePayload_full (s := withTables s f T) hfull]
    exact completedWith_failWindow (withTables s f T) _

/-! ### A container that decodes (R257 to R262) -/

section
variable {s : State} {f : Table Word} {T : Tree} {data payload : List Byte}

/-- Over a payload that begins with the codes of `data`, as many as the header says, the walk writes `data`; it then
completes or meets a surplus byte. -/
theorem AtContainer.walk_data (h : AtContainer s (BitVec.ofNat 32 data.length) f payload)
    (hread : SourceReadable s s.srcLen.toNat) (hne : data ≠ []) (hcap : data.length ≤ s.dstCap.toNat)
    (hwrite : WindowWritable s data.length) (hb : buildTree f = .ok T) (hcode : ∀ x ∈ data, entry T.code x ≠ [])
    (hlen : ceil8 (sourceBits (entry T.code) data).length ≤ payload.length)
    (hbits : PayloadBegins payload (sourceBits (entry T.code) data) (sourceBits (entry T.code) data).length) :
    ∃ mem, SinkHolds s data ⟨data.length, mem⟩ ∧
      (payload.length = ceil8 (sourceBits (entry T.code) data).length →
        decodeDone s = ((withTables s f T).withMem mem).succeed (BitVec.ofNat 32 data.length)
          (BitVec.ofNat 64 (sourceBits (entry T.code) data).length)) ∧
      (payload.length ≠ ceil8 (sourceBits (entry T.code) data).length →
        decodeDone s = (withTables s f T).failWindow ⟨.trailingBytes,
          payloadBase s + BitVec.ofNat 32 (ceil8 (sourceBits (entry T.code) data).length),
          BitVec.ofNat 32 data.length⟩) := by
  obtain ⟨mem, hloop, hsink⟩ := loop_data hread h.bytes hcap hwrite hb hcode hlen hbits
  have hcount := toNat_len hcap
  rw [h.done_walk (len_ne hcap hne) hb]
  rw [← hcount] at hcap hloop
  exact ⟨mem, hsink, fun hexact => decodePayload_exact hcap hloop (h.payload_length.trans hexact),
    fun hsurplus => decodePayload_surplus hcap hloop (h.payload_length.trans_ne hsurplus)⟩

end

/-- Settles O40: the walk over the codes of `data` writes `data` and takes all payload bytes. -/
theorem decodeReadsSymbolsBack : Obligations.DecodeReadsSymbolsBack := by
  intro s f T data payload hfree hsrc hwin hread hbytes hne hcap hwrite hb hcode hlen hbits
  obtain ⟨hex, hck, -⟩ := exec_decode hfree
  have hat := atContainer_of_readable hsrc hwin hread hbytes
  obtain ⟨hfreq, htree⟩ := hat.tables (len_ne hcap hne) hb
  obtain ⟨mem, hsink, hexact, -⟩ := hat.walk_data hread hne hcap hwrite hb hcode hlen.ge hbits
  have hdone := hexact hlen
  have hmem : (decodeDone s).mem = mem := by rw [hdone, State.succeed_mem, State.withMem_mem]
  refine ⟨_, hex, ?_, ?_, memoryKeptPast_of hsink _ hmem, hfreq, htree, hck⟩
  · rw [hdone]
    exact completedOk_succeed _ _ _
  · rw [hmem]
    exact sinkHolds_bytes hsink

/-- Settles O41: the walk over the codes of `data` leaves payload bytes. -/
theorem decodeRejectsSurplusBytes : Obligations.DecodeRejectsSurplusBytes := by
  intro s f T data payload hfree hsrc hwin hread hbytes hne hcap hwrite hb hcode hlen hbits
  obtain ⟨hex, hck, hmem⟩ := exec_decode hfree
  have hat := atContainer_of_readable hsrc hwin hread hbytes
  obtain ⟨hfreq, htree⟩ := hat.tables (len_ne hcap hne) hb
  obtain ⟨-, -, -, hsurplus⟩ := hat.walk_data hread hne hcap hwrite hb hcode hlen.le hbits
  refine ⟨_, hex, ?_, hfreq, htree, hmem, hck⟩
  rw [hsurplus hlen.ne', payloadBase_add]
  exact completedWith_failWindow _ _

/-! ### The errors of the walk (R258, R259) -/

/-- An error of the loop is what DECODE reports. -/
theorem AtContainer.reports {s : State} {n : Word} {f : Table Word} {T : Tree} {payload : List Byte} {e : CmdError}
    (h : AtContainer s n f payload) (hn : n ≠ 0#32) (hb : buildTree f = .ok T) (hcap : n.toNat ≤ s.dstCap.toNat)
    (he : decodeLoop (withTables s f T) T n.toNat 0 0 (withTables s f T).mem = .error e) :
    CompletedWith (decodeDone s) e := by
  rw [h.done_walk hn hb, decodePayload_error (s := withTables s f T) hcap he]
  exact completedWith_failWindow _ _

theorem ne_zero_of_lt_toNat {n : Word} {m : Nat} (h : m < n.toNat) : n ≠ 0#32 := by
  rintro rfl
  exact Nat.not_lt_zero m h

/-- Settles O44: the loop over a lone leaf takes the bits 0 before the 1. -/
theorem decodeSingleSymbolRejectsOneBit : Obligations.DecodeSingleSymbolRejectsOneBit := by
  intro s f x n payload m hfree hsrc hwin hread hbytes hx hcap hwrite hlt hbit hzero hone
  obtain ⟨hex, hck, hmem⟩ := exec_decode hfree
  have hat := atContainer_of_readable hsrc hwin hread hbytes
  have hn := ne_zero_of_lt_toNat hlt
  obtain ⟨hfreq, htree⟩ := hat.tables hn (build_single hx)
  refine ⟨_, hex, ?_, hfreq, ?_, hmem, hck⟩
  · rw [← payloadBase_add]
    exact hat.reports hn (build_single hx) hcap (single_loop (u := withTables s f (singleTree x))
      (length_headerBytes n f) hbytes hread rfl rfl rfl rfl rfl hwrite hbit hzero hone 0 _ (Nat.zero_le m) _ hlt)
  · rw [State.code, htree]
    exact singleTree_code_self x

theorem sourceBits_concat (code : Byte → Code) (data : List Byte) (x : Byte) :
    sourceBits code (data ++ [x]) = sourceBits code data ++ code x := by
  rw [sourceBits_append, sourceBits, sourceBits, List.flatMap_singleton]

theorem decodeLoop_symbol_error {s : State} {T : Tree} {k m pos : Nat} {mem : Memory} {e : CmdError}
    (h : decodeSymbol s T m pos = .error e) : decodeLoop s T (k + 1) m pos mem = .error e := by
  rw [decodeLoop, h]

theorem decodeLoop_write_error {s : State} {T : Tree} {k m pos pos' : Nat} {mem : Memory} {x : Byte}
    (h : decodeSymbol s T m pos = .ok (pos', x)) (hw : memWOk s.platform (s.dstAddr + BitVec.ofNat 32 m) = false) :
    decodeLoop s T (k + 1) m pos mem = .error ⟨.ioWrite, s.dstAddr + BitVec.ofNat 32 m, 0#32⟩ := by
  rw [decodeLoop, h]
  simp only [memWrite, hw, Bool.false_eq_true, if_false]

section
variable {s : State} {n : Word} {f : Table Word} {T : Tree} {payload data : List Byte} {x : Byte}

/-- Past the codes of `data` the walk turns to the next symbol; of the first `L` payload bits those behind are the first
of the code of `x`. -/
theorem AtContainer.walk_after_data (h : AtContainer s n f payload) (hb : buildTree f = .ok T)
    (hcap : n.toNat ≤ s.dstCap.toNat) (hlt : data.length < n.toNat) (hcode : ∀ y ∈ data ++ [x], entry T.code y ≠ [])
    (hwrite : WindowWritable s data.length) {L q : Nat} (hread : SourceReadable s (1028 + q)) (hq : L ≤ 8 * q)
    (hp : L ≤ 8 * payload.length) (hbits : PayloadBegins payload (sourceBits (entry T.code) (data ++ [x])) L)
    (hL : (sourceBits (entry T.code) data).length ≤ L) :
    ∃ mem m, (∀ e, decodeLoop (withTables s f T) T (m + 1) data.length (sourceBits (entry T.code) data).length mem =
        .error e → CompletedWith (decodeDone s) e) ∧
      ∀ i, (sourceBits (entry T.code) data).length + i < L →
        payloadBit (withTables s f T) ((sourceBits (entry T.code) data).length + i) =
          .ok ((entry T.code x).getD i false) := by
  rw [sourceBits_concat] at hbits
  obtain ⟨mem, m, hloop, hbit⟩ := loop_after_data h.bytes hb hcap hlt
    (fun y hy => hcode y (List.mem_append_left _ hy)) hwrite (fun i hi => hread _ (by omega)) hp hbits hL
  exact ⟨mem, m, fun e he => h.reports (ne_zero_of_lt_toNat hlt) hb hcap (hloop.trans he), hbit⟩

end

/-- Settles O45: past the codes of `data` the walk decodes `x` and cannot write it, or stops inside its code. -/
theorem decodeWalkErrors : Obligations.DecodeWalkErrors := by
  intro s f T n payload data x hfree hsrc hwin hread hbytes hb hcap hlt hcode hwrite
  obtain ⟨hex, hck, hmem⟩ := exec_decode hfree
  have hat : AtContainer s n f payload := ⟨hsrc, hwin, hread, hbytes⟩
  obtain ⟨hfreq, htree⟩ := hat.tables (ne_zero_of_lt_toNat hlt) hb
  have hx : entry T.code x ≠ [] := hcode x (List.mem_append_right _ List.mem_cons_self)
  have hlen : (sourceBits (entry T.code) (data ++ [x])).length =
      (sourceBits (entry T.code) data).length + (entry T.code x).length := by
    rw [sourceBits_concat, List.length_append]
  have hpay : payloadBits (withTables s f T) = 8 * payload.length := hat.payloadBits_eq
  refine ⟨_, hex, hfreq, htree, hck, hmem, fun hfits hreads hbits hbad => ?_,
    fun q hq hle hinside hreads hbits hbad => ?_, fun hle hinside hreads hbits => ?_⟩
  · obtain ⟨mem, m, hreports, hbit⟩ := hat.walk_after_data hb hcap hlt hcode hwrite hreads (by unfold ceil8; omega)
      hfits hbits (by omega)
    exact hreports _ (decodeLoop_write_error (decodeSymbol_code hb hx (by omega) fun i hi => hbit i (by omega)) hbad)
  · obtain ⟨mem, m, hreports, hbit⟩ := hat.walk_after_data hb hcap hlt hcode hwrite hreads le_rfl (by omega) hbits hle
    have hpos : (sourceBits (entry T.code) data).length + (8 * q - (sourceBits (entry T.code) data).length) = 8 * q :=
      Nat.add_sub_cancel' hle
    refine hreports _ (decodeLoop_symbol_error (decodeSymbol_stops hb hx
      (k := 8 * q - (sourceBits (entry T.code) data).length) (by omega) (fun i hi => hbit i (by omega))
      (.inr ⟨by omega, ?_⟩)))
    rw [hpos]
    exact payloadBit_bad (s := withTables s f T) hbad
  · have hall : SourceReadable s (1028 + payload.length) := by rwa [← hat.srcLen_eq]
    obtain ⟨mem, m, hreports, hbit⟩ := hat.walk_after_data hb hcap hlt hcode hwrite hall le_rfl le_rfl hbits hle
    exact hreports _ (decodeLoop_symbol_error (decodeSymbol_stops hb hx
      (k := 8 * payload.length - (sourceBits (entry T.code) data).length) (by omega) (fun i hi => hbit i (by omega))
      (.inl ⟨by omega, rfl⟩)))

/-! ### A truncated container (R265) -/

theorem packBits_ne_nil {bits : Code} (h : 0 < bits.length) : packBits bits ≠ [] := by
  refine List.length_pos_iff.1 ?_
  rw [length_packBits]
  unfold ceil8
  omega

/-- A payload cut by its last byte ends inside the code of one of the symbols. -/
theorem AtContainer.walk_truncated {s : State} {f : Table Word} {T : Tree} {data : List Byte}
    (h : AtContainer s (BitVec.ofNat 32 data.length) f (packBits (sourceBits (entry T.code) data)).dropLast)
    (hread : SourceReadable s s.srcLen.toNat) (hne : data ≠ []) (hcap : data.length ≤ s.dstCap.toNat)
    (hwrite : WindowWritable s data.length) (hb : buildTree f = .ok T) (hcode : ∀ x ∈ data, entry T.code x ≠ []) :
    ∃ j, j < data.length ∧ CompletedWith (decodeDone s) (exhausted s j) := by
  have hpos := sourceBits_pos hne hcode
  have hlen : (packBits (sourceBits (entry T.code) data)).dropLast.length =
      ceil8 (sourceBits (entry T.code) data).length - 1 := by rw [List.length_dropLast, length_packBits]
  have hpay : payloadBits (withTables s f T) = 8 * (ceil8 (sourceBits (entry T.code) data).length - 1) :=
    h.payloadBits_eq.trans (by rw [hlen])
  have hshort : 8 * (ceil8 (sourceBits (entry T.code) data).length - 1) < (sourceBits (entry T.code) data).length := by
    unfold ceil8
    omega
  have hsrc := h.srcLen_eq
  obtain ⟨j, -, hj, hloop⟩ := decodeLoop_short (s := withTables s f T) hb (m := 0) (pos := 0)
    (mem := (withTables s f T).mem) hcode (Nat.zero_le _) (by omega)
    (fun i hi => by
      rw [Nat.zero_add] at hi ⊢
      rw [payloadBit_of (length_headerBytes _ f) h.bytes (withTables s f T) rfl rfl rfl (by omega)
        (hread _ (by omega)), getD_dropLast (by omega), streamBit_packBits _ _ (by omega)])
    (fun i hi => hwrite i (by omega))
  refine ⟨j, by omega, h.reports (len_ne hcap hne) hb (by rwa [toNat_len hcap]) ?_⟩
  rw [toNat_len hcap]
  exact hloop

/-- Settles O46: the cut payload runs out, and the cut header is short. -/
theorem truncationIsDetected : Obligations.TruncationIsDetected := by
  refine ⟨fun s f T data hfree hsrc hwin hread hne hlt hcap hwrite hb hcode hbytes => ?_,
    fun s f code hfree hsrc hwin hbytes => ?_⟩
  · rw [container, List.dropLast_append_of_ne_nil (packBits_ne_nil (sourceBits_pos hne hcode))] at hbytes
    have hat := atContainer_of_readable hsrc hwin hread hbytes
    obtain ⟨j, hj, hdone⟩ := hat.walk_truncated hread hne hcap hwrite hb hcode
    refine ⟨_, (exec_decode hfree).1, hdone.err, hdone.errSub, hdone.errAddr, hdone.outLen, ?_⟩
    rw [hdone.errData, exhausted, BitVec.toNat_ofNat]
    exact (Nat.mod_le j _).trans_lt hj
  · have hlen : s.srcLen.toNat = 1027 := by
      have := congrArg List.length hbytes
      rw [length_sourceBytes, List.length_dropLast, length_container, sourceBits, List.flatMap_nil, List.length_nil,
        ceil8_zero] at this
      exact this
    obtain ⟨t, ht, -, -, -, -, hshort, -⟩ := decodeStopsBeforeHeaderIsRead s hfree
    exact ⟨t, ht, (hshort hsrc hwin (by omega)).1⟩

/-! ### The round trip (R264) -/

/-- COMPRESS and ENCODE that end without an error ended in the encode stage, under tables that match. -/
theorem encode_success {i : Instr} {s t : State} (hi : i = .compress ∨ i = .encode) (hmatch : TreeMatchesFreq s)
    (ht : exec i s = .next t) (herr : t.err = 0#4) : ∃ u, Pre s u ∧ TreeMatchesFreq u ∧ t = encodeFinish u := by
  obtain ⟨-, rfl⟩ := exec_next.1 ht
  rcases hi with rfl | rfl
  · rw [doneState] at herr ⊢
    rcases compressDone_cases s with ⟨-, h⟩ | ⟨-, -, h⟩ | ⟨-, -, k, -, -, -, h⟩ | ⟨-, -, -, h⟩
    · exact absurd (h ▸ herr) failWindow_err
    · exact absurd (h ▸ herr) failWindow_err
    · exact absurd (h ▸ herr) failWindow_err
    · obtain ⟨hpre, hmatch'⟩ := pre_compressTables s
      exact ⟨_, hpre, hmatch', h⟩
  · rw [doneState] at herr ⊢
    rcases encodeDone_cases s with ⟨-, h⟩ | ⟨-, -, h⟩ | ⟨-, -, h⟩
    · exact absurd (h ▸ herr) failWindow_err
    · exact absurd (h ▸ herr) failWindow_err
    · exact ⟨s, .refl s, hmatch, h⟩

/-- What an encode stage without an error left: every source byte has a code, and the container stands in the window. -/
theorem Pre.finish_wrote {s u : State} (hu : Pre s u) (herr : (encodeFinish u).err = 0#4) :
    (∀ x ∈ sourceBytes s, u.code x ≠ []) ∧
      (encodeFinish u).bits = BitVec.ofNat 64 (sourceBits u.code (sourceBytes s)).length ∧
      bytesAt (encodeFinish u).mem s.dstAddr (encodeFinish u).outLen.toNat =
        container s.srcLen u.freq u.code (sourceBytes s) := by
  obtain ⟨k, hk, hfin, hcode⟩ := finish_success herr
  rw [hu.sourceBytes_eq] at hcode
  rw [hu.encodedBytes_eq] at hk hfin
  rw [hu.encodedBits_eq] at hfin
  have hsink := sink_transfer hk hu.mem hu.ck.platform hu.ck.dstAddr hu.ck.dstCap
  have hmem : (encodeFinish u).mem = k.mem := by rw [hfin, State.succeed_mem, State.withMem_mem]
  have hout : (encodeFinish u).outLen.toNat = (container s.srcLen u.freq u.code (sourceBytes s)).length := by
    rw [hfin, State.succeed_outLen, toNat_len hsink.fits]
  refine ⟨hcode, by rw [hfin, State.succeed_bits], ?_⟩
  rw [hmem, hout]
  exact sinkHolds_bytes hsink

/-- A coded symbol comes from a built tree. -/
theorem exists_tree_of_code {u : State} (hmatch : TreeMatchesFreq u) {x : Byte} (hx : u.code x ≠ []) :
    ∃ T, buildTree u.freq = .ok T ∧ u.code = entry T.code := by
  cases htree : u.tree with
  | none => exact absurd (code_of_tree_none htree x) hx
  | some T => exact ⟨T, hmatch T htree, funext fun y => by rw [State.code, htree]⟩

/-- Settles O47: the encode stage wrote a container of the source, which decodes to it; of no source, a bare header. -/
theorem roundTrip : Obligations.RoundTrip := by
  intro i s t u hi hmatch ht herr _ hbytes hfree hsrc hwin hread hcap hwrite
  obtain ⟨v, hpre, hmatch', rfl⟩ := encode_success hi hmatch ht herr
  obtain ⟨hcode, hbits, hwrote⟩ := hpre.finish_wrote herr
  rw [hwrote, container] at hbytes
  by_cases h0 : s.srcLen = 0#32
  · have hnil := sourceBytes_eq_nil h0
    rw [sourceBits_empty h0, packBits_nil, h0] at hbytes
    obtain ⟨w, hex, -, -, -, hok, -⟩ := decodeChecksDescriptor u v.freq 0#32 [] hfree hsrc hwin
      (atContainer_of_readable hsrc hwin hread hbytes).header hbytes
    obtain ⟨hok, -, -⟩ := hok rfl rfl
    refine ⟨w, hex, hok.err, hok.outLen.trans h0.symm, hok.bits.trans ?_, ?_⟩
    · rw [hbits, sourceBits_empty h0, List.length_nil]
    · rw [hnil, h0, BitVec.toNat_zero, bytesAt]
  · have hlen := length_sourceBytes s
    have hcount : BitVec.ofNat 32 (sourceBytes s).length = s.srcLen := by
      rw [hlen, BitVec.ofNat_toNat, BitVec.setWidth_eq]
    have hne := sourceBytes_ne_nil (srcLen_pos_iff.2 h0)
    obtain ⟨T, hb, hT⟩ := exists_tree_of_code hmatch' (hcode _ (List.head_mem hne))
    rw [hT] at hcode hbits hbytes
    rw [← hcount] at hbytes
    rw [← hlen] at hcap hwrite ⊢
    obtain ⟨w, hex, hok, hdata, -⟩ := decodeReadsSymbolsBack u v.freq T (sourceBytes s) _ hfree hsrc hwin hread hbytes
      hne hcap hwrite hb hcode (length_packBits _) fun i hi => streamBit_packBits _ i hi
    exact ⟨w, hex, hok.err, hok.outLen.trans hcount, hok.bits.trans hbits.symm, hdata⟩

end Sys2Proof.Machine
end

section
/-! PROOFS. Exceptions (spec/60_exceptions.md): the errors of each command, the life of an error record, and IRQ (O48, O53,
O16). -/

namespace Sys2Proof.Machine

/-- Settles O48: a command that goes on ends in one of its `Ends`, each with no error or one of its row of R288. -/
theorem errorsEachCommandCanRaise : Obligations.ErrorsEachCommandCanRaise := by
  intro i s t hs
  obtain ⟨-, rfl⟩ := exec_next.1 hs
  exact (ends i s).err_listed

/-! ### The error record (R292, R37) -/

/-- What a completion leaves for the host: ERR, ERR_SUB, ERR_ADDR, ERR_DATA, OUT_LEN and BITS. -/
def State.record (s : State) : BitVec 4 × BitVec 4 × Word × Word × Word × BitVec 64 :=
  (s.err, s.errSub, s.errAddr, s.errData, s.outLen, s.bits)

theorem record_eq_iff {s t : State} :
    t.record = s.record ↔ t.err = s.err ∧ t.errSub = s.errSub ∧ t.errAddr = s.errAddr ∧ t.errData = s.errData ∧
      t.outLen = s.outLen ∧ t.bits = s.bits := by
  simp only [State.record, Prod.mk.injEq]

theorem readReg_record (r : Reg) (s : State) : (readReg r s).record = s.record := by
  obtain ⟨hframe, -⟩ := readReg_frame r s
  have hrecord := congrArg State.record hframe
  exact hrecord

theorem setOperand_record (s : State) (r : Reg) (v : Word) : (s.setOperand r v).record = s.record := by
  obtain ⟨a, n, d, c, e⟩ := s.setOperand_frame r v
  rw [e]
  rfl

/-- A host access that changes the error record is a reset or a start. -/
theorem HostEffect.record_changed {s t : State} {op : HostOp} (he : HostEffect s op t) (hr : t.record ≠ s.record) :
    op = .hardReset ∨ (∃ off v, op = .regWrite off 4 v ∧ regOfAccess off 4 = some .ctrl ∧ v.getLsbD 1 = true) ∨
      (s.busy = false ∧ ∃ off v, op = .regWrite off 4 v ∧ regOfAccess off 4 = some .cmd) := by
  cases he with
  | hardReset hu => exact .inl rfl
  | softReset ha hv hu => exact .inr (.inl ⟨_, _, rfl, ha, hv⟩)
  | start ha hb hfree => exact .inr (.inr ⟨hb, _, _, rfl, ha⟩)
  | read ha => exact absurd (readReg_record _ s) hr
  | operand v ha hb => exact absurd (setOperand_record s _ v) hr
  | memRead | memWrite | setIe | acknowledge | counter | lost | ignored => exact absurd rfl hr

/-- Settles O53: with no command due a step is a host access or a wait, and of the host accesses only a reset or a start
changes the record. -/
theorem errorRecordPersists : Obligations.ErrorRecordPersists := by
  intro s t hs hdue hstart hsoft hhard
  rw [← record_eq_iff]
  rcases step_cases s with ⟨w, i, hd, -, -⟩ | ⟨w, r, hd, -, -⟩ | ⟨op, rest, -, hi, e⟩ | ⟨-, -, e⟩
  · exact absurd hd (hdue w)
  · exact absurd hd (hdue w)
  · rw [e] at hs
    have hhead : s.inputs.head? = some op := by rw [hi, List.head?_cons]
    by_contra hr
    rcases (hostStep_next hs).record_changed hr with rfl | ⟨off, v, rfl, ha, hv⟩ | ⟨hb, off, v, rfl, ha⟩
    · exact hhard hhead
    · exact hsoft off v ha hv hhead
    · exact hstart off v ha hb hhead
  · rw [e] at hs
    cases hs
    rfl

/-! ### IRQ (R297) -/

theorem irq_eq_true_iff (s : State) : s.irq = true ↔ s.ie = true ∧ s.done = true := Bool.and_eq_true_iff

/-- Settles O16: a write of CTRL without its reset bit sets IE alone. -/
theorem interruptIsLevel : Obligations.InterruptIsLevel := by
  obtain ⟨-, -, hctrl, -, -⟩ := writeWhileBusy
  refine ⟨irq_eq_true_iff, fun s hd => ?_, fun s => ?_⟩
  · exact ⟨_, hctrl s 0x00000001#32 (by decide), (irq_eq_true_iff _).2 ⟨rfl, hd⟩, hd⟩
  · exact ⟨_, hctrl s 0x00000000#32 (by decide), Bool.false_and s.done, rfl⟩

end Sys2Proof.Machine
end

section
/-! PROOFS. Reset and hazards (spec/70_reset_and_hazards.md): what a reset does to memory, which commands and which outside
accesses fault, and that a started command ends (O55, O56, O57, O58). -/

namespace Sys2Proof.Machine

/-! ### A reset and memory (R321, R323) -/

/-- A reset spoils the window exactly where it abandons a command that has one. -/
theorem resetStep_next_cases {s t : State} (h : resetStep s = .next t) :
    ((∀ i, runningCommand s = some i → usesWindow i = false) ∧ t = s.resetBlock) ∨
      ∃ i, runningCommand s = some i ∧ usesWindow i = true ∧ t = s.spoilWindow.resetBlock := by
  unfold resetStep at h
  cases hr : runningCommand s with
  | none =>
    rw [hr] at h
    cases h
    exact .inl ⟨nofun, rfl⟩
  | some i =>
    rw [hr] at h
    obtain ⟨-, rfl⟩ := runUnlessHazard_next.1 h
    cases hw : usesWindow i with
    | false => exact .inl ⟨fun j hj => by cases hj; exact hw, rfl⟩
    | true => exact .inr ⟨i, rfl, hw, rfl⟩

/-- Settles O55: the memory after a reset is the memory before it, or that of the spoiled window of a running command. -/
theorem resetTouchesOnlyAbandonedWindow : Obligations.ResetTouchesOnlyAbandonedWindow := by
  intro s t h
  rcases resetStep_next_cases h with ⟨-, rfl⟩ | ⟨i, hi, hw, rfl⟩
  · exact ⟨fun a ha => absurd rfl ha, fun _ => rfl⟩
  · refine ⟨fun a ha => ?_, ?_⟩
    · rw [State.resetBlock_mem, readMem_spoilWindow] at ha
      by_cases hdrawn : inWindow s a = true ∧ memWOk s.platform a = true
      · exact ⟨hdrawn.1, hdrawn.2, i, hi, usesWindow_eq_true_iff.1 hw⟩
      · exact absurd (if_neg hdrawn) ha
    · rintro (hnone | ⟨j, hj, hjw⟩)
      · cases hnone.symm.trans hi
      · cases hj.symm.trans hi
        cases hjw.symm.trans hw

/-! ### The hazards of a command (R330 to R332) -/

/-- Address `n` is in the register window or in a region with side effects: no range a command uses may hold it (R331,
R332). -/
def Forbidden (p : Platform) (n : Nat) : Prop :=
  (p.huffBase.toNat ≤ n ∧ n < p.huffBase.toNat + 0x4000) ∨
    ∃ r ∈ p.regions, r.kind = .sideEffects ∧ r.base ≤ n ∧ n < r.base + r.size

theorem rangeHazard_ne_none (p : Platform) (a n : Nat) :
    rangeHazard p a n ≠ none ↔ ∃ k, (a ≤ k ∧ k < a + n) ∧ Forbidden p k := by
  rw [ne_eq, rangeHazard_eq_none, not_iff_comm]
  simp only [Forbidden, not_exists, not_and, not_or, and_imp]

theorem bothHazard_eq_none (s : State) :
    bothHazard s = none ↔ rangesMeet s.srcAddr.toNat s.srcLen.toNat s.dstAddr.toNat s.dstCap.toNat = false ∧
      sourceHazard s = none ∧ windowHazard s = none := by
  unfold bothHazard
  cases rangesMeet s.srcAddr.toNat s.srcLen.toNat s.dstAddr.toNat s.dstCap.toNat <;> cases sourceHazard s <;> simp

theorem usesSource_of_usesWindow {i : Instr} (h : usesWindow i = true) : usesSource i = true := by
  revert h
  cases i <;> decide

/-- A command breaks a hazard rule by the overlap of its two ranges, or by a forbidden address in a range that it uses. -/
theorem not_hazardFree_iff (i : Instr) (s : State) :
    ¬ HazardFree i s ↔
      (usesWindow i = true ∧ ∃ n, s.srcAddr.toNat ≤ n ∧ n < s.srcAddr.toNat + s.srcLen.toNat ∧
        s.dstAddr.toNat ≤ n ∧ n < s.dstAddr.toNat + s.dstCap.toNat) ∨
      ∃ n, ((usesSource i = true ∧ s.srcAddr.toNat ≤ n ∧ n < s.srcAddr.toNat + s.srcLen.toNat) ∨
          (usesWindow i = true ∧ s.dstAddr.toNat ≤ n ∧ n < s.dstAddr.toNat + s.dstCap.toNat)) ∧
        Forbidden s.platform n := by
  unfold HazardFree commandHazard
  cases hw : usesWindow i with
  | true =>
    rw [usesSource_of_usesWindow hw]
    simp only [bothHazard_eq_none, not_and_or, sourceHazard, windowHazard, rangeHazard_ne_none, ← rangesMeet_iff, true_and,
      or_and_right, exists_or, Bool.not_eq_false]
  | false =>
    cases hs : usesSource i with
    | true => simp only [sourceHazard, rangeHazard_ne_none, true_and, Bool.false_eq_true, false_and, false_or, or_false]
    | false => simp only [not_true_eq_false, Bool.false_eq_true, false_and, or_false, exists_false]

theorem runUnlessHazard_faults_iff (i : Instr) (s t : State) :
    (∃ h, runUnlessHazard i s t = .fault (.hazardViolation h)) ↔ ¬ HazardFree i s := by
  rcases runUnlessHazard_cases i s t with ⟨hfree, e⟩ | ⟨h, hbad, e⟩ <;> rw [e]
  · exact iff_of_false nofun (not_not_intro hfree)
  · exact iff_of_true ⟨h, rfl⟩ fun hfree => nomatch hfree.symm.trans hbad

/-- A write of a command's word to CMD while idle is the start, behind the hazard rules of the command (R150, R339). -/
theorem hostStep_cmd {s : State} (i : Instr) (hb : s.busy = false) :
    hostStep (.regWrite 0x010#14 4 (encode i)) s = runUnlessHazard i s (s.start (encode i)) := by
  refine (hostStep_wr .cmd (encode i)).trans ?_
  rw [writeReg, if_neg (Bool.eq_false_iff.1 hb), startCommand, decode_encode]

/-- Settles O56: a command and its start fault exactly where the command is not hazard-free. -/
theorem commandsFaultExactlyOnHazards : Obligations.CommandsFaultExactlyOnHazards := by
  intro i s
  have hexec : (∃ h, exec i s = .fault (.hazardViolation h)) ↔ ¬ HazardFree i s := by
    rw [exec_eq]
    exact runUnlessHazard_faults_iff i s _
  refine ⟨hexec.trans (not_hazardFree_iff i s), fun hno => ?_, fun hb => ?_⟩
  · exact ⟨_, exec_next.2 ⟨not_not.1 fun hbad => (hexec.2 hbad).elim hno, rfl⟩⟩
  · rw [hexec, hostStep_cmd i hb]
    exact runUnlessHazard_faults_iff i s _

/-! ### The accesses of other agents (R328, R329, R307) -/

theorem sourceBusy_eq_true {s : State} {a : Word} :
    sourceBusy s a = true ↔ ∃ i, runningCommand s = some i ∧ usesSource i = true ∧ inSource s a = true := by
  unfold sourceBusy
  cases runningCommand s <;> simp

theorem windowBusy_eq_true {s : State} {a : Word} :
    windowBusy s a = true ↔ ∃ i, runningCommand s = some i ∧ usesWindow i = true ∧ inWindow s a = true := by
  unfold windowBusy
  cases runningCommand s <;> simp

section
variable {s : State} {a : Word} (v : Byte)

theorem hostMemRead_registerWindow (h : inRegisterWindow s.platform a = true) :
    hostMemRead a s = .fault (.hazardViolation .badHostAccess) := if_pos h

theorem hostMemWrite_registerWindow (h : inRegisterWindow s.platform a = true) :
    hostMemWrite a v s = .fault (.hazardViolation .badHostAccess) := if_pos h

theorem hostMemRead_busy (h : inRegisterWindow s.platform a = false) (hw : windowBusy s a = true) :
    hostMemRead a s = .fault (.hazardViolation .destinationTouched) := by
  rw [hostMemRead, h, hw]
  rfl

theorem hostMemRead_lands (h : inRegisterWindow s.platform a = false) (hw : windowBusy s a = false) :
    hostMemRead a s = .next (s.answer (0#24 ++ readMem s.mem a)) := by
  rw [hostMemRead, h, hw]
  rfl

theorem hostMemWrite_busy (h : inRegisterWindow s.platform a = false)
    (hbusy : sourceBusy s a = true ∨ windowBusy s a = true) :
    ∃ hz, hostMemWrite a v s = .fault (.hazardViolation hz) := by
  rw [hostMemWrite, h]
  cases hs : sourceBusy s a with
  | true => exact ⟨_, rfl⟩
  | false =>
    rw [hbusy.resolve_left (Bool.eq_false_iff.1 hs)]
    exact ⟨_, rfl⟩

theorem hostMemWrite_lands (h : inRegisterWindow s.platform a = false) (hs : sourceBusy s a = false)
    (hw : windowBusy s a = false) : hostMemWrite a v s = .next (s.withMem (writeMem s.mem a v)) := by
  rw [hostMemWrite, h, hs, hw]
  rfl

end

/-- Settles O57: the two accesses to memory by whether the running command owns the byte, and the accesses to the window. -/
theorem hostAccessHazards : Obligations.HostAccessHazards := by
  refine ⟨fun s a v h => ⟨?_, fun hno => ?_⟩, fun s a h => ⟨fun hbusy => ?_, fun hno => ?_⟩, fun s a v h => ?_,
    fun s off bytes v h => ?_⟩
  · rintro ⟨i, hi, hsrc | hwin⟩
    · exact hostMemWrite_busy v h (.inl (sourceBusy_eq_true.2 ⟨i, hi, hsrc⟩))
    · exact hostMemWrite_busy v h (.inr (windowBusy_eq_true.2 ⟨i, hi, hwin⟩))
  · have hs : sourceBusy s a = false := Bool.eq_false_iff.2 fun hb =>
      have ⟨i, hi, hsrc⟩ := sourceBusy_eq_true.1 hb
      (hno i hi).1 hsrc
    have hw : windowBusy s a = false := Bool.eq_false_iff.2 fun hb =>
      have ⟨i, hi, hwin⟩ := windowBusy_eq_true.1 hb
      (hno i hi).2 hwin
    exact ⟨_, hostMemWrite_lands v h hs hw, rfl, fun b => readMem_writeMem s.mem a b v⟩
  · exact hostMemRead_busy h (windowBusy_eq_true.2 hbusy)
  · have hw : windowBusy s a = false := Bool.eq_false_iff.2 fun hb =>
      have ⟨i, hi, hwin⟩ := windowBusy_eq_true.1 hb
      hno i hi hwin
    exact hostMemRead_lands h hw
  · exact ⟨hostMemRead_registerWindow h, hostMemWrite_registerWindow v h⟩
  · have hnone := regOfAccess_eq_none.2 h
    simp only [hostStep, hnone, and_self]

/-! ### A started command ends (R337) -/

/-- An access or a command goes on or breaks a hazard rule; nothing is refused and there is no other fault. -/
def GoesOnOrBreaksHazard (o : Host.Outcome State Fault Refusal) : Prop :=
  (∃ t, o = .next t) ∨ ∃ h, o = .fault (.hazardViolation h)

theorem runUnlessHazard_goesOn (i : Instr) (s t : State) : GoesOnOrBreaksHazard (runUnlessHazard i s t) := by
  rcases runUnlessHazard_cases i s t with ⟨-, e⟩ | ⟨h, -, e⟩
  · exact .inl ⟨t, e⟩
  · exact .inr ⟨h, e⟩

theorem resetStep_goesOn (s : State) : GoesOnOrBreaksHazard (resetStep s) := by
  unfold resetStep
  cases runningCommand s with
  | none => exact .inl ⟨_, rfl⟩
  | some i => exact runUnlessHazard_goesOn i s _

theorem writeReg_goesOn (r : Reg) (v : Word) (s : State) : GoesOnOrBreaksHazard (writeReg r v s) := by
  cases r with
  | ctrl =>
    rw [writeReg]
    split
    · exact resetStep_goesOn s
    · exact .inl ⟨_, rfl⟩
  | cmd =>
    rw [writeReg]
    split
    · exact .inl ⟨_, rfl⟩
    · rcases startCommand_cases v s with ⟨-, e⟩ | ⟨-, h, -, -, e⟩
      · exact .inl ⟨_, e⟩
      · exact .inr ⟨h, e⟩
  | _ => exact .inl ⟨_, rfl⟩

theorem hostStep_goesOn (op : HostOp) (s : State) : GoesOnOrBreaksHazard (hostStep op s) := by
  cases op with
  | regRead off bytes =>
    rw [hostStep]
    cases regOfAccess off bytes with
    | none => exact .inr ⟨_, rfl⟩
    | some r => exact .inl ⟨_, rfl⟩
  | regWrite off bytes v =>
    rw [hostStep]
    cases regOfAccess off bytes with
    | none => exact .inr ⟨_, rfl⟩
    | some r => exact writeReg_goesOn r v s
  | memRead a =>
    rw [hostStep, hostMemRead]
    split_ifs
    · exact .inr ⟨_, rfl⟩
    · exact .inr ⟨_, rfl⟩
    · exact .inl ⟨_, rfl⟩
  | memWrite a v =>
    rw [hostStep, hostMemWrite]
    split_ifs
    · exact .inr ⟨_, rfl⟩
    · exact .inr ⟨_, rfl⟩
    · exact .inr ⟨_, rfl⟩
    · exact .inl ⟨_, rfl⟩
  | hardReset => exact resetStep_goesOn s

theorem readReg_inputs (r : Reg) (s : State) : (readReg r s).inputs = s.inputs := by
  obtain ⟨hframe, -⟩ := readReg_frame r s
  have hinputs := congrArg State.inputs hframe
  exact hinputs

theorem setOperand_inputs (s : State) (r : Reg) (v : Word) : (s.setOperand r v).inputs = s.inputs := by
  obtain ⟨a, n, d, c, e⟩ := s.setOperand_frame r v
  rw [e]

/-- No host access queues another. -/
theorem HostEffect.inputs_eq {s t : State} {op : HostOp} (he : HostEffect s op t) : t.inputs = s.inputs := by
  cases he with
  | read ha => exact readReg_inputs _ s
  | operand v ha hb => exact setOperand_inputs s _ v
  | hardReset hu | softReset ha hv hu => rcases hu with rfl | rfl <;> rfl
  | memRead | memWrite | setIe | acknowledge | start | counter | lost | ignored => rfl

theorem doneState_busy (i : Instr) (s : State) : (doneState i s).busy = false := by
  cases ends i s with
  | fail u e hu hw he ht hT hf => rw [ht, State.fail_busy]
  | failWindow u e hu hw he ht hT hf => rw [ht, State.failWindow, State.fail_busy]
  | ok u l k b o hu hw hk hwf ht ho hT hf => rw [ht, State.succeed_busy]

theorem illegalCommand_busy (r : IllegalWord) (w : Word) (s : State) : (illegalCommand r w s).busy = false := by
  cases r with
  | unknownOpcode | reservedBits => exact State.fail_busy _ _

/-- While busy a step breaks a hazard rule, ends the command, or takes the oldest access off the queue. -/
theorem step_of_busy {s : State} (hb : s.busy = true) :
    (∃ h, step s = .fault (.hazardViolation h)) ∨
      ∃ t, step s = .next t ∧ (t.busy = false ∨ ∃ op, s.inputs = op :: t.inputs) := by
  rcases step_cases s with ⟨w, i, -, -, e⟩ | ⟨w, r, -, -, e⟩ | ⟨op, rest, -, hi, e⟩ | ⟨hn, hi, -⟩
  · rw [e, exec_eq]
    rcases runUnlessHazard_cases i s (doneState i s) with ⟨-, e⟩ | ⟨h, -, e⟩
    · exact .inr ⟨_, e, .inl (doneState_busy i s)⟩
    · exact .inl ⟨h, e⟩
  · exact .inr ⟨_, e, .inl (illegalCommand_busy r w s)⟩
  · rw [e]
    rcases hostStep_goesOn op (s.takeInput rest) with ⟨t, ht⟩ | hfault
    · have hin : t.inputs = rest := (hostStep_next ht).inputs_eq
      exact .inr ⟨t, ht, .inr ⟨op, by rw [hin, hi]⟩⟩
    · exact .inl hfault
  · obtain ⟨w, hw⟩ := Option.isSome_iff_exists.1 hb
    exact absurd ⟨hw, .inr hi⟩ (hn w)

/-- Settles O58, by induction on how many accesses are queued: a step that does not end the command takes one of them. -/
theorem startedCommandEnds : Obligations.StartedCommandEnds := by
  intro s hb
  induction hn : s.inputs.length using Nat.strong_induction_on generalizing s with
  | _ n ih =>
    rcases step_of_busy hb with ⟨h, e⟩ | ⟨t, e, ht⟩
    · exact ⟨1, Nat.le_add_left 1 n, .inr ⟨h, run_fault e⟩⟩
    · cases htb : t.busy with
      | false => exact ⟨1, Nat.le_add_left 1 n, .inl ⟨t, run_next e, htb⟩⟩
      | true =>
        obtain ⟨op, hin⟩ := ht.resolve_left fun hidle => nomatch htb.symm.trans hidle
        have hlen : n = t.inputs.length + 1 := by rw [← hn, hin, List.length_cons]
        obtain ⟨k, hk, hend⟩ := ih t.inputs.length (by omega) t htb rfl
        refine ⟨k + 1, by omega, ?_⟩
        rw [run_next e]
        exact hend

end Sys2Proof.Machine
end
